-- ==== Sys2Proof/Word.lean ====
section
/-! DEFINITION. The byte, and the small data shapes the spec uses everywhere: the channel index and a value per channel. -/

namespace Sys2Proof

/-- A byte: eight bits, bit 0 the least significant (`00_scope.md` section 7). -/
abbrev Byte := BitVec 8

/-- The channel index `c` of the spec: 0 is `y`, 1 is `u`, 2 is `v`, always in that order (`00_scope.md` section 7). -/
inductive Channel where
  | y
  | u
  | v
deriving DecidableEq, Repr

/-- One value per channel, in the order Y, U, V: a sample, the three stats, the three flags, the three codes. -/
structure Triple (α : Type) where
  y : α
  u : α
  v : α
deriving DecidableEq, Repr

/-- The component of channel `c`: the spec's `t[c]`. -/
def Triple.get {α : Type} (t : Triple α) : Channel → α
  | .y => t.y
  | .u => t.u
  | .v => t.v

/-- The triple whose component at `c` is `f c`: the spec's `for c in 0..2`. -/
def Triple.ofFn {α : Type} (f : Channel → α) : Triple α :=
  ⟨f .y, f .u, f .v⟩

/-- One value per corner, in the order TL, TR, BL, BR (corner index `k` 0 to 3, `00_scope.md` section 7). -/
structure Corners (α : Type) where
  tl : α
  tr : α
  bl : α
  br : α
deriving DecidableEq, Repr

/-- Apply `f` at each of the four corners. -/
def Corners.map {α β : Type} (f : α → β) (cs : Corners α) : Corners β :=
  ⟨f cs.tl, f cs.tr, f cs.bl, f cs.br⟩

end Sys2Proof
end

