-- ==== Sys2Proof/Config.lean ====
section
/-! DEFINITION. The parameters of the engine (rule R7). First the values the spec decides, one definition each, which nothing else repeats; then what it leaves to the platform and the free values of what it leaves unspecified, which have no body: no proof can see a value. -/

namespace Sys2Proof.Config

/-! ### Parameters marked decision (log entry 27) -/

/-- `LEVEL_BITS`: the width of LEVEL, unsigned (R7, R24, D7). -/
abbrev levelBits : Nat := 16

/-- The command code of NOP (R7, R70, D5). -/
abbrev nopCode : Byte := 0x00

/-- The command code of ENC (R7, R70, D5). -/
abbrev encCode : Byte := 0x01

/-- The command code of DEC (R7, R70, D5). -/
abbrev decCode : Byte := 0x02

/-- The command code of SRST (R7, R70, D5). -/
abbrev srstCode : Byte := 0xFF

/-- The error code of no error (R7, R74, R200, D8). -/
abbrev noErrorCode : Byte := 0x00

/-- The error code of PackingOverflow (R7, R74, R200, D8). -/
abbrev packingOverflowCode : Byte := 0x01

/-- The error code of FormatError (R7, R74, R200, D8). -/
abbrev formatErrorCode : Byte := 0x02

/-- The error code of IllegalCommand (R7, R74, R200, D8). -/
abbrev illegalCommandCode : Byte := 0x03

/-- `RGB_TO_U8`: how a clamped colour value becomes an integer: the floor (R7, R103, D2, log entry 13). -/
abbrev rgbToU8 (w : Rat) : Int := w.floor

/-! ### Parameters marked open, and the free values -/

/-- An unspecified byte: the byte that draw number `draw` gives at offset `offset` of the engine. It stands for TILE
and REC after a reset (R33, U2), REC after a PackingOverflow (R152, U3) and a host read of a buffer while BUSY (R54, U4). -/
opaque freeByte (draw offset : Nat) : Byte

/-- How many host actions are served between the acceptance of a command and the engine's step for it, when the
acceptance is draw number `draw`: finite and otherwise unspecified (R174, U5). -/
opaque freeDelay (draw : Nat) : Nat

/-- `BASE`: the bus address of offset 0 of the engine with number `engine` (R7, R51, R188: each engine has its own). -/
opaque base (engine : Nat) : Nat

/-- `N_ENGINES`: how many engines the platform has (R7, D30). -/
opaque nEngines : Nat

/-- `HEADER_SIG`: the header signature of the host's byte stream (R181, D26: the source does not give the text). -/
opaque headerSig : List Byte

/-- `FOOTER_SIG`: the footer signature of the host's byte stream (R181, D26). -/
opaque footerSig : List Byte

/-- `TRAILING_BYTES_POLICY`: whether a host decoder accepts bytes after the footer (R182, U10, D29). -/
opaque acceptsTrailingBytes : Bool

end Sys2Proof.Config
end

