-- ==== Sys2Proof/Syntax.lean ====
section
/-! DEFINITION. The instructions of the engine, which the spec calls commands (R2, R70), one constructor per row of the opcode table, and the actions the world outside takes on the engine (R50, R90, R91, R220). -/

namespace Sys2Proof

/-- The command set BCE-1 (R2, R70): no command has an operand field; the operands are the buffers and LEVEL. -/
inductive Instr where
  /-- NOP, byte 0x00 (R170). -/
  | nop
  /-- ENC, byte 0x01: encode the tile in TILE into REC (R150). -/
  | enc
  /-- DEC, byte 0x02: decode the record in REC into TILE (R151). -/
  | dec
  /-- SRST, byte 0xFF: soft reset (R171). -/
  | srst
deriving DecidableEq, Repr

/-- One thing the outside world does to the engine. A host program is a list of these (R30, R90). -/
inductive HostAction where
  /-- `RD a`: the access `(R, a)`, `MemRead(a, 1)` (R52, R90). -/
  | read (offset : Nat)
  /-- `WR a, v`: the access `(W, a, v)`, `MemWrite(a, 1, v)` (R53, R90). -/
  | write (offset : Nat) (value : Byte)
  /-- `WAIT`: repeat `RD STATUS` until the value read has BUSY clear (R91). One read is one step. -/
  | wait
  /-- The platform asserts the hardware reset input (R220 (a)). -/
  | hardReset
deriving DecidableEq, Repr

end Sys2Proof
end

