-- ==== Sys2Proof/Decode.lean ====
section
/-! DEFINITION. The decoder of command bytes and the encoder, both from the encoding table of R70. -/

namespace Sys2Proof

/-- Why a byte sequence holds no command. -/
inductive DecodeError where
  /-- There is no byte. -/
  | noByte
  /-- The byte is one of the 252 reserved command bytes 0x03 to 0xFE (R71). -/
  | reservedCommand (v : Byte)
deriving DecidableEq, Repr

/-- One row of the command table of R70: a command byte `v` is this command when `v &&& mask = pattern`. -/
structure OpcodeRow where
  instr : Instr
  mask : Byte
  pattern : Byte
deriving DecidableEq, Repr

/-- Whether a command byte matches the row. -/
def OpcodeRow.hit (r : OpcodeRow) (v : Byte) : Bool :=
  v &&& r.mask == r.pattern

/-- The command table (R70): the decoder compares the whole byte, mask 0xFF. -/
def opcodeTable : List OpcodeRow :=
  [⟨.nop, 0xFF, Config.nopCode⟩, ⟨.enc, 0xFF, Config.encCode⟩, ⟨.dec, 0xFF, Config.decCode⟩,
    ⟨.srst, 0xFF, Config.srstCode⟩]

/-- The command a byte written to CMD means (R70), or that it is reserved (R71). -/
def decodeByte (v : Byte) : Except DecodeError Instr :=
  match opcodeTable.find? (fun r => r.hit v) with
  | some r => .ok r.instr
  | none => .error (.reservedCommand v)

/-- The decoder on any bytes: every command is one byte long (R70), the rest is left over. -/
def decode : List Byte → Except DecodeError (Instr × List Byte)
  | [] => .error .noByte
  | v :: rest => (decodeByte v).map (fun i => (i, rest))

/-- The command byte of each command (R70). -/
def commandByte : Instr → Byte
  | .nop => Config.nopCode
  | .enc => Config.encCode
  | .dec => Config.decCode
  | .srst => Config.srstCode

/-- The encoder: every command is its one byte (R70). -/
def encode (i : Instr) : List Byte :=
  [commandByte i]

/-- The bytes of an instruction whose bits, as spec/opcode_table.json numbers them, are the low `nbits` bits of `w`:
byte 0 is bits 7..0; every bit above `nbits` is 0. -/
def tableBytes (nbits w : Nat) : List Byte :=
  (List.range ((nbits + 7) / 8)).map (fun k => BitVec.ofNat 8 (w % 2 ^ nbits / 256 ^ k))

/-- The instruction the decoder reads from a word of the opcode table. -/
def decodeTableWord (nbits w : Nat) : Option Instr :=
  match decode (tableBytes nbits w) with
  | .ok (i, _) => some i
  | .error _ => none

end Sys2Proof
end

