-- ==== Sys2Proof/Machine/State.lean ====
section
/-! DEFINITION. The state of the engine, as plain data, its reset value, and the reasons a step can stop. -/

namespace Sys2Proof.Machine

/-- STATUS (R23, R72): bit 0 BUSY, bit 1 DONE, bit 2 ERR. Bits 7..3 have no storage: they read as zero. -/
structure Status where
  busy : Bool
  done : Bool
  err : Bool
deriving DecidableEq, Repr

/-- The OP latch (R27): the command in flight. -/
inductive Op where
  | none
  | enc
  | dec
deriving DecidableEq, Repr

/-- The engine's own errors, each with its detail (R200). They are architectural: raising one is a next state. -/
inductive EngineError where
  /-- ENC computed a packed byte outside 0 to 255; the detail is its REC index (R201). -/
  | packingOverflow (index : Nat)
  /-- DEC found a record field out of its bounds; the detail is the REC index of the field (R202). -/
  | formatError (index : Nat)
  /-- A reserved byte was written to CMD; the detail is the byte (R203). -/
  | illegalCommand (v : Byte)
deriving DecidableEq, Repr

/-- The storage behind the offsets that hold a byte of a buffer: TILE at 0x000 to 0x0BF, REC at 0x0C0 to 0x10A (R51).
A list of (offset, byte); canonical form `Memory.wf`: exactly the 267 offsets, rising. An unlisted offset has no
storage (log entry 12). -/
abbrev Memory := List Host.Cell

/-- How many offsets have storage: 192 of TILE and 75 of REC (R20, R21, R51). -/
abbrev Memory.size : Nat := 267

/-- The canonical form: the listed addresses are 0, 1, …, 266, in that order. -/
abbrev Memory.wf (m : Memory) : Prop :=
  m.map Prod.fst = List.range Memory.size

/-- Both buffers unspecified, each byte separately, fixed at this draw (R33, U2). -/
def Memory.drawn (draw : Nat) : Memory :=
  (List.range Memory.size).map (fun a => (a, Config.freeByte draw a))

/-- All the state. The first seven fields are the spec's; the last four are the model's own (INVENTORY.md). -/
structure State where
  /-- TILE and REC (R20, R21). -/
  mem : Memory
  /-- STATUS (R23). -/
  status : Status
  /-- LEVEL (R24). -/
  level : BitVec Config.levelBits
  /-- ERRCODE (R25). -/
  errcode : Byte
  /-- ERRINFO (R26). -/
  errinfo : Byte
  /-- OP, hidden (R27). -/
  op : Op
  /-- PREV[0..2], hidden (R28). -/
  prev : Triple Int
  /-- The model's own: how many free draws have been made (log entry 3). -/
  draws : Nat
  /-- The model's own: host actions still served before the engine's step (R174, log entry 4). -/
  delay : Nat
  /-- The model's own: the host actions to come (R30, R90, log entry 1). -/
  script : List HostAction
  /-- The model's own: what the port has returned, with the offset read, newest first (R90). -/
  replies : List (Nat × Byte)
deriving DecidableEq, Repr

/-- After reset (R33, R221): STATUS 0x00, LEVEL 16, ERRCODE and ERRINFO 0x00, OP NONE, PREV 0, 0, 0, and every byte
of TILE and of REC unspecified: draw 0. Nothing is pending (log entries 3 and 20). -/
def State.reset : State where
  mem := Memory.drawn 0
  status := ⟨false, false, false⟩
  level := 16
  errcode := Config.noErrorCode
  errinfo := 0x00
  op := .none
  prev := ⟨0, 0, 0⟩
  draws := 1
  delay := 0
  script := []
  replies := []

/-- Why the machine stops. The engine's own errors are not here: they are next states. -/
inductive Fault where
  /-- The engine's step is enabled (BUSY = 1) and OP is NONE, for which R173 gives the step no effect. Raised by
  `engineStep`; by R27 no run reaches it (log entry 9). Safe. -/
  | busyWithoutOperation
deriving DecidableEq, Repr

/-- Why the model does not take a step. -/
inductive Refusal where
  /-- An instruction the model gives no meaning yet. Raised by no arm of `exec`. Safe. -/
  | notModelled (mnemonic : String)
  /-- A host access at or above offset 0x200: not an access to the engine, and no rule covers it (R51, U7). Raised by
  the port (log entry 8). Safe. -/
  | offsetOutsideEngine (offset : Nat)
deriving DecidableEq, Repr

end Sys2Proof.Machine
end

