-- ==== Sys2Proof/Machine/Ops.lean ====
section
/-! DEFINITION. The shared operations: reading and writing the buffers, making their bytes unspecified, raising an error (the engine's one form of exception entry) and leaving it, which only a reset does. -/

namespace Sys2Proof.Machine

/-- A byte from an integer known to be 0 to 255. -/
def byteOfInt (n : Int) : Byte :=
  BitVec.ofInt 8 n

/-- What an offset the memory does not list holds: nothing, there is no storage behind it (log entry 12). -/
def Memory.unlisted (_offset : Nat) : Option Byte :=
  none

/-- The stored byte at an offset. -/
def Memory.read (m : Memory) (offset : Nat) : Option Byte :=
  match List.lookup offset m with
  | some v => some v
  | none => Memory.unlisted offset

/-- The byte a command or the port finds at a buffer offset. In canonical form every buffer offset is listed; were one
not, the byte would be unspecified (log entry 12). -/
def Memory.byte (m : Memory) (offset : Nat) : Byte :=
  (m.read offset).getD (Config.freeByte 0 offset)

/-- Replace the byte at one offset (R53). -/
def Memory.write (m : Memory) (offset : Nat) (v : Byte) : Memory :=
  m.map (fun c => if c.1 = offset then (c.1, v) else c)

/-- Replace the bytes from `base` on by `bytes`, all at once: the emit loops of R150 and R151. -/
def Memory.writeBlock (m : Memory) (base : Nat) (bytes : List Byte) : Memory :=
  m.map (fun c =>
    if base ≤ c.1 then
      match bytes[c.1 - base]? with
      | some v => (c.1, v)
      | none => c
    else c)

/-- The 75 free bytes of draw `draw`, as REC content (R152, U3). -/
def drawnRecord (draw : Nat) : List Byte :=
  (List.range 75).map (fun j => Config.freeByte draw (0xC0 + j))

/-- Every byte of REC becomes unspecified, now and stable afterwards (R152, U3). -/
def State.drawRecord (s : State) : State :=
  { s with mem := s.mem.writeBlock 0xC0 (drawnRecord s.draws), draws := s.draws + 1 }

/-- The number of an error in ERRCODE (R74, R200). -/
def EngineError.code : EngineError → Byte
  | .packingOverflow _ => Config.packingOverflowCode
  | .formatError _ => Config.formatErrorCode
  | .illegalCommand _ => Config.illegalCommandCode

/-- The detail of an error in ERRINFO (R75, R200). -/
def EngineError.info : EngineError → Byte
  | .packingOverflow index => BitVec.ofNat 8 index
  | .formatError index => BitVec.ofNat 8 index
  | .illegalCommand v => v

/-- The buffer effect that goes with an error (R201, R202, R203): PackingOverflow makes REC unspecified, the others
change no buffer. -/
def EngineError.bufferEffect : EngineError → State → State
  | .packingOverflow _, s => s.drawRecord
  | .formatError _, s => s
  | .illegalCommand _, s => s

/-- Raising an error, the engine's one way of taking an exception (R205): ERRCODE and ERRINFO hold the code and the
detail, ERR is set, BUSY and DONE are clear, OP is NONE, and the buffer effect of the error happens. Nothing is
vectored: there is no handler and no mode. -/
def State.raise (e : EngineError) (s : State) : State :=
  let s := e.bufferEffect s
  { s with
    errcode := e.code
    errinfo := e.info
    status := ⟨false, false, true⟩
    op := .none
    delay := 0 }

/-- Both resets (R220, R221, R33), and so the only way out of an error (R206): every piece of the engine's state takes
its reset value and every byte of TILE and of REC is unspecified anew. What belongs to the host, the actions to come
and the replies it has, stays. -/
def State.resetEngine (s : State) : State :=
  { State.reset with
    mem := Memory.drawn s.draws
    draws := s.draws + 1
    script := s.script
    replies := s.replies }

end Sys2Proof.Machine
end

