-- ==== Sys2Proof/Machine/Operands.lean ====
section
/-! DEFINITION. The address map, and how the operands of the commands are assembled from the buffers and from LEVEL. -/

namespace Sys2Proof.Machine

/-- What an offset of the port names (R51). -/
inductive Location where
  /-- `TILE[i]` -/
  | tile (i : Nat)
  /-- `REC[i]` -/
  | record (i : Nat)
  | cmd
  | status
  | levelHi
  | levelLo
  | errcode
  | errinfo
  /-- A reserved offset (R58). -/
  | reserved
  /-- Not one of the engine's 512 offsets (U7). -/
  | outside
deriving DecidableEq, Repr

/-- The offset of CMD (R51). -/
def cmdOffset : Nat := 0x110

/-- The offset of STATUS (R51). -/
def statusOffset : Nat := 0x111

/-- The map of the 512 offsets (R51). -/
def locate (offset : Nat) : Location :=
  if offset ≤ 0x0BF then .tile offset
  else if offset ≤ 0x10A then .record (offset - 0x0C0)
  else if offset ≤ 0x10F then .reserved
  else if offset = 0x110 then .cmd
  else if offset = 0x111 then .status
  else if offset = 0x112 then .levelHi
  else if offset = 0x113 then .levelLo
  else if offset = 0x114 then .errcode
  else if offset = 0x115 then .errinfo
  else if offset ≤ 0x1FF then .reserved
  else .outside

/-- Where `TILE[i]` lies (R51). -/
def tileOffset (i : Nat) : Nat := i

/-- Where `REC[i]` lies (R51). -/
def recOffset (i : Nat) : Nat := 0x0C0 + i

/-- `TILE[i]` (R20). -/
def State.tileByte (s : State) (i : Nat) : Byte :=
  s.mem.byte (tileOffset i)

/-- `REC[i]` (R21). -/
def State.recByte (s : State) (i : Nat) : Byte :=
  s.mem.byte (recOffset i)

/-- `for j in 0..191: TILE[j] <- out[j]` (R151). -/
def State.writeTile (s : State) (out : List Byte) : State :=
  { s with mem := s.mem.writeBlock (tileOffset 0) out }

/-- `for j in 0..74: REC[j] <- out[j]` (R150). -/
def State.writeRec (s : State) (out : List Byte) : State :=
  { s with mem := s.mem.writeBlock (recOffset 0) out }

/-- LEVEL_HI, bits 15..8 of LEVEL (R24, R55). -/
def levelHi (level : BitVec Config.levelBits) : Byte :=
  level.extractLsb' 8 8

/-- LEVEL_LO, bits 7..0 of LEVEL (R24, R55). -/
def levelLo (level : BitVec Config.levelBits) : Byte :=
  level.extractLsb' 0 8

/-- LEVEL from its two bytes, LEVEL_HI the more significant (R55, R73). -/
def levelOfBytes (hi lo : Byte) : BitVec Config.levelBits :=
  (hi ++ lo).setWidth Config.levelBits

/-- The greatest LEVEL: a host whose level exceeds it writes this and loses nothing (R24, R186). -/
def maxLevel : Nat := 2 ^ Config.levelBits - 1

/-- LEVEL as the unsigned integer ENC reads (R24, R83). -/
def State.levelNat (s : State) : Nat :=
  s.level.toNat

/-- The column of pixel `p` (`00_scope.md` section 7). -/
def pixelX (p : Nat) : Nat := p % 8

/-- The row of pixel `p`. -/
def pixelY (p : Nat) : Nat := p / 8

/-- The 64 pixel indices in row-major order. -/
def pixels : List Nat := List.range 64

/-- The index of a channel: `c` as a number (`00_scope.md` section 7). -/
def channelIndex : Channel → Nat
  | .y => 0
  | .u => 1
  | .v => 2

/-- The byte of a record that holds the maximum of channel `c`: `REC[2c]` (R77). -/
def statMaxIndex (c : Channel) : Nat := 2 * channelIndex c

/-- The byte of a record that holds the minimum of channel `c`: `REC[2c + 1]` (R77). -/
def statMinIndex (c : Channel) : Nat := 2 * channelIndex c + 1

/-- The index of the flags byte (R76, R78). -/
def flagsIndex : Nat := 6

/-- The index of the byte of corner `k` (R79). -/
def cornerIndex (k : Nat) : Nat := 7 + k

/-- The index of the grid byte of pixel `p` (R81). -/
def gridIndex (p : Nat) : Nat := 11 + p

/-- The flags byte of three interp flags: bit 2 is Y, bit 1 is U, bit 0 is V (R78). -/
def packFlags (i : Triple Bool) : Byte :=
  byteOfInt (4 * i.y.toNat + 2 * i.u.toNat + i.v.toNat)

/-- The interp flags of a flags byte: `iy = REC[6][2]`, `iu = REC[6][1]`, `iv = REC[6][0]` (R78). -/
def unpackFlags (b : Byte) : Triple Bool :=
  ⟨b.getLsbD 2, b.getLsbD 1, b.getLsbD 0⟩

end Sys2Proof.Machine
end

