-- ==== Sys2Proof/Machine/ColorTransform.lean ====
section
/-! DEFINITION. Function unit 1, ColorTransform (41_color_transform.md): RGB to YUV, YUV to RGB, the output clamp and the conversion to a byte, on exact rationals (R8). -/

namespace Sys2Proof.Machine

/-- `rgb_to_yuv(r, g, b)` (R100): no rounding, no clamp. -/
def rgbToYuv (r g b : Nat) : Triple Rat where
  y := (299 * (r : Rat) + 587 * (g : Rat) + 114 * (b : Rat)) / 1000
  u := (-169 * (r : Rat) - 331 * (g : Rat) + 500 * (b : Rat)) / 1000 + 128
  v := (500 * (r : Rat) - 419 * (g : Rat) - 81 * (b : Rat)) / 1000 + 128

/-- A red, a green and a blue value. -/
structure Rgb (α : Type) where
  r : α
  g : α
  b : α
deriving DecidableEq, Repr

/-- `yuv_to_rgb(Y, U, V)` (R101): no rounding, no clamp. -/
def yuvToRgb (s : Triple Rat) : Rgb Rat where
  r := s.y + (1402 / 1000) * (s.v - 128)
  g := s.y - (344 / 1000) * (s.u - 128) - (714 / 1000) * (s.v - 128)
  b := s.y + (1772 / 1000) * (s.u - 128)

/-- `clamp255(v)` (R102). -/
def clamp255 (v : Rat) : Rat :=
  if v < 0 then 0 else if 255 < v then 255 else v

/-- `to_u8(v)`, the parameter `RGB_TO_U8` (R103, decision D2, log entry 13): the floor of the clamped value. -/
def toU8 (v : Rat) : Int :=
  Config.rgbToU8 (clamp255 v)

end Sys2Proof.Machine
end

