-- ==== Sys2Proof/Machine/BlockStats.lean ====
section
/-! DEFINITION. Function unit 2, BlockStats (42_block_stats.md): per-channel minimum, maximum and range. -/

namespace Sys2Proof.Machine

/-- `min(S)`, the least of a list of samples (R9). A tile has 64 samples; the empty list, which no rule meets, gives 0. -/
def leastSample : List Rat → Rat
  | [] => 0
  | x :: xs => xs.foldl min x

/-- `max(S)`, the greatest of a list of samples (R9). -/
def greatestSample : List Rat → Rat
  | [] => 0
  | x :: xs => xs.foldl max x

/-- `chan_min(S)` (R110). -/
def chanMin (samples : List Rat) : Int :=
  (leastSample samples).floor

/-- `chan_max(S)` (R111): the ceiling of the maximum, with 256 clamped to 255. -/
def chanMax (samples : List Rat) : Int :=
  let m := (greatestSample samples).ceil
  if m = 256 then 255 else m

/-- The pair of integers `min` and `max` of one channel of a block (the source's stat). -/
structure Stat where
  min : Int
  max : Int
deriving DecidableEq, Repr

/-- `range = max - min` (R112). -/
def Stat.range (st : Stat) : Int :=
  st.max - st.min

/-- The stat of a channel's samples (R110, R111). -/
def statOf (samples : List Rat) : Stat :=
  ⟨chanMin samples, chanMax samples⟩

end Sys2Proof.Machine
end

