-- ==== Sys2Proof/Machine/Quantizer.lean ====
section
/-! DEFINITION. Function unit 3, Quantizer (43_quantizer.md): normalise, quantise, de-quantise, the interp thresholds. -/

namespace Sys2Proof.Machine

/-- `K[c]`: 15.9 for Y, 3.9 for U and V (R7, R121, R122). -/
def quantScale : Channel → Rat
  | .y => 159 / 10
  | .u => 39 / 10
  | .v => 39 / 10

/-- `DIV[c]`: 15 for Y, 3 for U and V (R7, R123). -/
def dequantDivisor : Channel → Rat
  | .y => 15
  | .u => 3
  | .v => 3

/-- `norm(v, min, max)` (R120): 0 when the range is 0, no clamp to [0,1]. -/
def norm (v : Rat) (st : Stat) : Rat :=
  if st.range = 0 then 0 else (v - st.min) / st.range

/-- `quant(c, v, min, max)` (R121, R122): not clamped to the width of the field (R125). -/
def quant (c : Channel) (v : Rat) (st : Stat) : Int :=
  (norm v st * quantScale c).floor

/-- `dequant(c, q, min, max)` (R123). -/
def dequant (c : Channel) (q : Int) (st : Stat) : Rat :=
  (q / dequantDivisor c) * (st.max - st.min) + st.min

/-- `interp_flags(level, range_Y, range_U, range_V)` (R124): three separate tests (C5), the Y threshold a real half of
the level (D21). -/
def interpFlags (level : Nat) (range : Triple Int) : Triple Bool where
  y := decide (2 * range.y < level)
  u := decide (range.u < level)
  v := decide (range.v < level)

end Sys2Proof.Machine
end

