-- ==== Sys2Proof/Machine/DeltaCoder.lean ====
section
/-! DEFINITION. Function unit 4, DeltaCoder (44_delta_coder.md): the modular delta and the packing of three fields in one byte. -/

namespace Sys2Proof.Machine

/-- `MOD[c]`: 16 for Y, 4 for U and V (R7, R130). -/
def deltaModulus : Channel → Int
  | .y => 16
  | .u => 4
  | .v => 4

/-- `delta_enc(c, prev, curr)` (R130), on mathematical integers with no reduction. -/
def deltaEnc (c : Channel) (prev curr : Int) : Int :=
  if prev ≤ curr then curr - prev else deltaModulus c + curr - prev

/-- `delta_dec(c, prev, delta)` (R131). -/
def deltaDec (c : Channel) (prev delta : Int) : Int :=
  (prev + delta) % deltaModulus c

/-- A packed sum as the byte at REC index `index`, or PackingOverflow when it is outside 0 to 255 (R132, R142, C6). -/
def packByte (index : Nat) (sum : Int) : Except EngineError Byte :=
  if sum < 0 ∨ 255 < sum then .error (.packingOverflow index) else .ok (byteOfInt sum)

/-- The sum `pack_grid` forms (R132): arithmetic, no field is masked. -/
def gridSum (d : Triple Int) : Int :=
  (d.y * 4 + d.u) * 4 + d.v

/-- `pack_grid(dy, du, dv)` for the grid byte of pixel `p` (R132). -/
def packGrid (p : Nat) (d : Triple Int) : Except EngineError Byte :=
  packByte (gridIndex p) (gridSum d)

/-- `unpack3(byte)` (R133). -/
def unpack3 (b : Byte) : Triple Int where
  y := ((b.toNat / 16 : Nat) : Int)
  u := ((b.toNat % 16 / 4 : Nat) : Int)
  v := ((b.toNat % 4 : Nat) : Int)

/-- The delta of each channel (R134, encode). -/
def deltaEnc3 (prev curr : Triple Int) : Triple Int :=
  .ofFn (fun c => deltaEnc c (prev.get c) (curr.get c))

/-- The code of each channel (R134, decode): the delta is decoded for every channel, flagged or not. -/
def deltaDec3 (prev delta : Triple Int) : Triple Int :=
  .ofFn (fun c => deltaDec c (prev.get c) (delta.get c))

end Sys2Proof.Machine
end

