-- ==== Sys2Proof/Machine/CornerSampler.lean ====
section
/-! DEFINITION. Function unit 5, CornerSampler (45_corner_sampler.md): corner samples, corner bytes, bilinear interpolation. -/

namespace Sys2Proof.Machine

/-- `corner_samples(yuv)` (R140): the source samples of pixels 0, 7, 56 and 63. -/
def cornerSamples (yuv : Nat → Triple Rat) : Corners (Triple Rat) :=
  ⟨yuv 0, yuv 7, yuv 56, yuv 63⟩

/-- `corner_codes(cs_k, stat, interp)` (R141): the absolute code of a flagged channel, 0 of an unflagged one. -/
def cornerCodes (cs : Triple Rat) (stat : Triple Stat) (interp : Triple Bool) : Triple Int :=
  .ofFn (fun c => if interp.get c then quant c (cs.get c) (stat.get c) else 0)

/-- The sum `pack_corner` forms (R142). -/
def cornerSum (q : Triple Int) : Int :=
  q.y * 16 + q.u * 4 + q.v

/-- `pack_corner(qy, qu, qv)` for the byte of corner `k` (R142). The check is kept (U14). -/
def packCorner (k : Nat) (q : Triple Int) : Except EngineError Byte :=
  packByte (cornerIndex k) (cornerSum q)

/-- `unpack_corner(byte)` (R143): the same function as for a grid byte. -/
def unpackCorner (b : Byte) : Triple Int :=
  unpack3 b

/-- One corner of `corner_values(REC)` (R144): every channel de-quantised, whatever the flags. -/
def cornerValue (b : Byte) (stat : Triple Stat) : Triple Rat :=
  .ofFn (fun c => dequant c ((unpackCorner b).get c) (stat.get c))

/-- `bilerp(TL, TR, BL, BR, x, y)` (R145). -/
def bilerp (corners : Corners Rat) (x y : Nat) : Rat :=
  let u : Rat := x / 7
  let w : Rat := y / 7
  let top := corners.tl * (1 - u) + corners.tr * u
  let bottom := corners.bl * (1 - u) + corners.br * u
  top * (1 - w) + bottom * w

/-- The interpolated value of channel `c` at pixel `p`, from corner triples (R145, R147). -/
def interpolated (cs : Corners (Triple Rat)) (c : Channel) (p : Nat) : Rat :=
  bilerp (cs.map (fun t => t.get c)) (pixelX p) (pixelY p)

end Sys2Proof.Machine
end

