-- ==== Sys2Proof/Machine/Flags.lean ====
section
/-! DEFINITION. The STATUS register: its byte, its four states, and the two ways a command moves it without error, acceptance and completion. -/

namespace Sys2Proof.Machine

/-- STATUS as the host reads it: `{00000, ERR, DONE, BUSY}` (R52, R72). -/
def Status.toByte (st : Status) : Byte :=
  byteOfInt (4 * st.err.toNat + 2 * st.done.toNat + st.busy.toNat)

/-- State IDLE of R173: STATUS 0x00. -/
def Status.idle : Status := ⟨false, false, false⟩

/-- State BUSY of R173: STATUS 0x01. -/
def Status.running : Status := ⟨true, false, false⟩

/-- State DONE of R173: STATUS 0x02. -/
def Status.finished : Status := ⟨false, true, false⟩

/-- State ERROR of R173: STATUS 0x04. -/
def Status.failed : Status := ⟨false, false, true⟩

/-- At most one of the three bits is 1 (R23). -/
def Status.legal (st : Status) : Bool :=
  st == .idle || st == .running || st == .finished || st == .failed

/-- ENC or DEC is accepted (R173): `OP <- op; STATUS.BUSY <- 1; STATUS.DONE <- 0`, and the engine's step comes after a
delay that nothing fixes (R174, log entry 4). -/
def State.accept (op : Op) (s : State) : State :=
  { s with
    op := op
    status := { s.status with busy := true, done := false }
    delay := Config.freeDelay s.draws
    draws := s.draws + 1 }

/-- ENC or DEC ends without error (R150, R151, R173): `OP <- NONE; STATUS.BUSY <- 0; STATUS.DONE <- 1`. -/
def State.complete (s : State) : State :=
  { s with
    op := .none
    status := { s.status with busy := false, done := true }
    delay := 0 }

end Sys2Proof.Machine
end

