-- ==== Sys2Proof/Machine/BlockCodec.lean ====
section
/-! DEFINITION. The commands ENC and DEC (46_block_codec_commands.md): the engine's step for each, over the five function units. -/

namespace Sys2Proof.Machine

/-- `yuv[p]`: the samples of pixel `p` of a tile (R150 step 1, R82). -/
def tileYuv (tile : Nat → Byte) (p : Nat) : Triple Rat :=
  rgbToYuv (tile (3 * p)).toNat (tile (3 * p + 1)).toNat (tile (3 * p + 2)).toNat

/-- The three stats of a tile, over the source samples of all 64 pixels (R150 step 1). -/
def tileStats (tile : Nat → Byte) : Triple Stat :=
  .ofFn (fun c => statOf (pixels.map (fun p => (tileYuv tile p).get c)))

/-- The three ranges of a tile (R112). -/
def tileRanges (tile : Nat → Byte) : Triple Int :=
  .ofFn (fun c => ((tileStats tile).get c).range)

/-- The interp flags ENC decides for a tile (R150 step 2). -/
def tileFlags (tile : Nat → Byte) (level : Nat) : Triple Bool :=
  interpFlags level (tileRanges tile)

/-- The corner triples of a tile (R150 step 3). -/
def tileCorners (tile : Nat → Byte) : Corners (Triple Rat) :=
  cornerSamples (tileYuv tile)

/-- The code ENC quantises at pixel `p` (R150 step 4): of the interpolated value in a flagged channel, of the pixel's
own sample in an unflagged one. -/
def gridCode (tile : Nat → Byte) (level p : Nat) : Triple Int :=
  .ofFn (fun c =>
    let v := if (tileFlags tile level).get c then interpolated (tileCorners tile) c p else (tileYuv tile p).get c
    quant c v ((tileStats tile).get c))

/-- The stat bytes and the flags byte, `out[0..6]` (R150 steps 1 and 2, R77, R78). -/
def encodeHeader (tile : Nat → Byte) (level : Nat) : List Byte :=
  let st := tileStats tile
  [byteOfInt st.y.max, byteOfInt st.y.min, byteOfInt st.u.max, byteOfInt st.u.min,
    byteOfInt st.v.max, byteOfInt st.v.min, packFlags (tileFlags tile level)]

/-- The four corner bytes, `out[7..10]`, or the first PackingOverflow in the order TL, TR, BL, BR (R150 step 3, R152). -/
def encodeCorners (tile : Nat → Byte) (level : Nat) : Except EngineError (List Byte) := do
  let codes := (tileCorners tile).map (fun cs => cornerCodes cs (tileStats tile) (tileFlags tile level))
  let tl ← packCorner 0 codes.tl
  let tr ← packCorner 1 codes.tr
  let bl ← packCorner 2 codes.bl
  let br ← packCorner 3 codes.br
  return [tl, tr, bl, br]

/-- The grid loop (R150 step 4) over a list of pixel indices, from accumulators `prev`: the final accumulators, and
the grid bytes or the first PackingOverflow. At the byte that fails the accumulators already hold its codes. -/
def encodeGrid (code : Nat → Triple Int) : List Nat → Triple Int → Triple Int × Except EngineError (List Byte)
  | [], prev => (prev, .ok [])
  | p :: ps, prev =>
    let q := code p
    match packGrid p (deltaEnc3 prev q) with
    | .error e => (q, .error e)
    | .ok b =>
      let rest := encodeGrid code ps q
      (rest.1, rest.2.map (fun bs => b :: bs))

/-- The accumulators at the start of a block (R134). -/
def startPrev : Triple Int := ⟨0, 0, 0⟩

/-- What ENC computes (R150): the final accumulators, and the 75 bytes or the error. -/
def encodeBlock (tile : Nat → Byte) (level : Nat) : Triple Int × Except EngineError (List Byte) :=
  match encodeCorners tile level with
  | .error e => (startPrev, .error e)
  | .ok corners =>
    let grid := encodeGrid (gridCode tile level) pixels startPrev
    (grid.1, grid.2.map (fun bytes => encodeHeader tile level ++ corners ++ bytes))

/-- ENC, the engine's step (R150, R152): REC takes the record and the command completes, or the error is raised. -/
def execEnc (s : State) : Host.Outcome State Fault Refusal :=
  .next (
    let result := encodeBlock s.tileByte s.levelNat
    let s := { s with prev := result.1 }
    match result.2 with
    | .ok record => (s.writeRec record).complete
    | .error e => s.raise e)

/-- The stats a record holds (R77, R151). -/
def recordStats (record : Nat → Byte) : Triple Stat :=
  .ofFn (fun c => ⟨((record (statMinIndex c)).toNat : Int), ((record (statMaxIndex c)).toNat : Int)⟩)

/-- The validation of DEC (R151 step 0, R153): the first check that fails, in the order Y, U, V pair, flags byte. -/
def validateRecord (record : Nat → Byte) : Except EngineError Unit :=
  if (record 0).toNat < (record 1).toNat then .error (.formatError 0)
  else if (record 2).toNat < (record 3).toNat then .error (.formatError 2)
  else if (record 4).toNat < (record 5).toNat then .error (.formatError 4)
  else if 7 < (record flagsIndex).toNat then .error (.formatError 6)
  else .ok ()

/-- `corner_values(REC)` (R144, R151 step 1). -/
def recordCorners (record : Nat → Byte) : Corners (Triple Rat) :=
  Corners.map (fun k => cornerValue (record (cornerIndex k)) (recordStats record)) ⟨0, 1, 2, 3⟩

/-- The reconstructed sample at pixel `p` whose codes are `q` (R151 steps 2 to 4): interpolated in a flagged channel,
de-quantised in an unflagged one. -/
def decodeSample (record : Nat → Byte) (p : Nat) (q : Triple Int) : Triple Rat :=
  .ofFn (fun c =>
    if (unpackFlags (record flagsIndex)).get c then interpolated (recordCorners record) c p
    else dequant c (q.get c) ((recordStats record).get c))

/-- The three bytes of a reconstructed pixel, R, G, B (R101, R102, R103, R82). -/
def pixelBytes (sample : Triple Rat) : List Byte :=
  let rgb := yuvToRgb sample
  [byteOfInt (toU8 rgb.r), byteOfInt (toU8 rgb.g), byteOfInt (toU8 rgb.b)]

/-- The position loop of DEC (R151) over a list of pixel indices, from accumulators `prev`: the final accumulators and
the bytes. -/
def decodeGrid (record : Nat → Byte) : List Nat → Triple Int → Triple Int × List Byte
  | [], prev => (prev, [])
  | p :: ps, prev =>
    let q := deltaDec3 prev (unpack3 (record (gridIndex p)))
    let rest := decodeGrid record ps q
    (rest.1, pixelBytes (decodeSample record p q) ++ rest.2)

/-- What DEC computes (R151): the final accumulators and the 192 bytes, or the error of the validation. -/
def decodeBlock (record : Nat → Byte) : Except EngineError (Triple Int × List Byte) :=
  (validateRecord record).map (fun _ => decodeGrid record pixels startPrev)

/-- DEC, the engine's step (R151, R153): TILE takes the tile and the command completes, or the error is raised before
anything is written. -/
def execDec (s : State) : Host.Outcome State Fault Refusal :=
  .next (
    match decodeBlock s.recByte with
    | .ok result => ({ s with prev := result.1 }.writeTile result.2).complete
    | .error e => s.raise e)

end Sys2Proof.Machine
end

