-- ==== Sys2Proof/Machine/Control.lean ====
section
/-! DEFINITION. The commands NOP and SRST (47_control_commands.md). Both have their effect within the CMD write. -/

namespace Sys2Proof.Machine

/-- NOP (R170): nothing changes. -/
def execNop (s : State) : Host.Outcome State Fault Refusal :=
  .next s

/-- SRST (R171): reset, in every state. -/
def execSrst (s : State) : Host.Outcome State Fault Refusal :=
  .next s.resetEngine

end Sys2Proof.Machine
end

