-- ==== Sys2Proof/Machine/Port.lean ====
section
/-! DEFINITION. The host port (20_memory.md), the command-issue machine (47_control_commands.md R173), the engine's own step, and the host action a step serves. -/

namespace Sys2Proof.Machine

/-- `MemRead(a, 1)` (R52, R54): the byte the host gets, and the state after. No read changes the engine; a read of a
buffer while BUSY makes a free draw (log entry 5). -/
def memRead (offset : Nat) (s : State) : Host.Outcome (Byte × State) Fault Refusal :=
  match locate offset with
  | .tile _ | .record _ =>
    if s.status.busy then .next (Config.freeByte s.draws offset, { s with draws := s.draws + 1 })
    else .next (s.mem.byte offset, s)
  | .cmd => .next (0x00, s)
  | .status => .next (s.status.toByte, s)
  | .levelHi => .next (levelHi s.level, s)
  | .levelLo => .next (levelLo s.level, s)
  | .errcode => .next (s.errcode, s)
  | .errinfo => .next (s.errinfo, s)
  | .reserved => .next (0x00, s)
  | .outside => .refused (.offsetOutsideEngine offset)

/-- What the IDLE or DONE engine does with a command byte that is no SRST (R173): NOP runs at once, ENC and DEC are
accepted and run in the engine's step, a reserved byte raises IllegalCommand within the write (R172). -/
def acceptCommand (v : Byte) (s : State) : Host.Outcome State Fault Refusal :=
  match decodeByte v with
  | .ok .nop => exec .nop s
  | .ok .enc => .next (s.accept .enc)
  | .ok .dec => .next (s.accept .dec)
  | .ok .srst => exec .srst s
  | .error _ => .next (s.raise (.illegalCommand v))

/-- A command issue, the host write of `v` to CMD (R173): SRST in every state; any other byte is ignored without trace
in ERROR and in BUSY. -/
def issueCommand (v : Byte) (s : State) : Host.Outcome State Fault Refusal :=
  if decodeByte v = .ok .srst then exec .srst s
  else if s.status.err then .next s
  else if s.status.busy then .next s
  else acceptCommand v s

/-- `MemWrite(a, 1, v)` (R53, R54, R58). -/
def memWrite (offset : Nat) (v : Byte) (s : State) : Host.Outcome State Fault Refusal :=
  match locate offset with
  | .cmd => issueCommand v s
  | .tile _ | .record _ =>
    if s.status.busy then .next s else .next { s with mem := s.mem.write offset v }
  | .levelHi =>
    if s.status.busy then .next s else .next { s with level := levelOfBytes v (levelLo s.level) }
  | .levelLo =>
    if s.status.busy then .next s else .next { s with level := levelOfBytes (levelHi s.level) v }
  | .status | .errcode | .errinfo | .reserved => .next s
  | .outside => .refused (.offsetOutsideEngine offset)

/-- The engine's own step (R173), enabled exactly while BUSY = 1: the command in the OP latch runs. -/
def engineStep (s : State) : Host.Outcome State Fault Refusal :=
  match s.op with
  | .enc => exec .enc s
  | .dec => exec .dec s
  | .none => .fault .busyWithoutOperation

/-- Hand a byte read to the host (R90: `RD a -> n` binds it). -/
def State.reply (s : State) (offset : Nat) (v : Byte) : State :=
  { s with replies := (offset, v) :: s.replies }

/-- One read access with its reply. -/
def readAccess (offset : Nat) (s : State) : Host.Outcome State Fault Refusal :=
  match memRead offset s with
  | .next (v, t) => .next (t.reply offset v)
  | .fault r => .fault r
  | .refused r => .refused r

/-- One round of `WAIT` (R91): read STATUS; while the value has BUSY set, the `WAIT` is still to do. -/
def waitRound (s : State) : State :=
  let v := s.status.toByte
  let t := s.reply statusOffset v
  if v.getLsbD 0 then { t with script := .wait :: t.script } else t

/-- Take the first host action off the list; if a command is in flight, one fewer is served before its step (R174). -/
def State.consume (s : State) (rest : List HostAction) : State :=
  { s with script := rest, delay := s.delay - 1 }

/-- What one host action does (R52, R53, R91, R220). -/
def serve (a : HostAction) (s : State) : Host.Outcome State Fault Refusal :=
  match a with
  | .read offset => readAccess offset s
  | .write offset v => memWrite offset v s
  | .wait => .next (waitRound s)
  | .hardReset => .next s.resetEngine

/-- The host moves: its next action is served. With none to come nothing happens, and every state of R173 but BUSY
holds indefinitely (R211, log entry 19). -/
def hostStep (s : State) : Host.Outcome State Fault Refusal :=
  match s.script with
  | [] => .next s
  | a :: rest => serve a (s.consume rest)

/-- Whether the engine moves next (R174, log entry 4): a command is in flight and its free delay has run out, or the
host has nothing to do. -/
def engineMoves (s : State) : Bool :=
  s.status.busy && (s.delay == 0 || s.script.isEmpty)

/-- The state in which the instruction with command byte `v` is what the next step runs (log entry 11). ENC and DEC
run in the engine's step, so they stand in the OP latch, accepted, with no delay left. Any other byte runs within the
CMD write, so that write is the host's next action, served before an engine step. -/
def State.withCommand (s : State) (v : Byte) : State :=
  match decodeByte v with
  | .ok .enc => { s with op := .enc, status := .running, errcode := Config.noErrorCode, errinfo := 0x00, delay := 0 }
  | .ok .dec => { s with op := .dec, status := .running, errcode := Config.noErrorCode, errinfo := 0x00, delay := 0 }
  | .ok .nop | .ok .srst | .error _ =>
    { s with
      script := .write cmdOffset v :: s.script
      delay := if s.status.busy then s.delay + 1 else s.delay }

end Sys2Proof.Machine
end

