-- ==== Sys2Proof/Machine/Step.lean ====
section
/-! DEFINITION. One step of the machine, and where the next instruction stands. -/

namespace Sys2Proof.Machine

/-- One step: the engine's own step of the command in flight, or the host's next action (R6, R59, R173, R174). -/
def step (s : State) : Host.Outcome State Fault Refusal :=
  if engineMoves s then engineStep s else hostStep s

/-- `s` with the instruction of an opcode-table word where the very next step runs it (log entry 11). -/
def State.withFetchWord (s : State) (nbits w : Nat) : State :=
  match tableBytes nbits w with
  | v :: _ => s.withCommand v
  | [] => s

end Sys2Proof.Machine
end

