-- ==== Sys2Proof/Machine/HostImage.lean ====
section
/-! DEFINITION. The host's contract (48_host_image_codec.md): padding, tiling, the byte stream, image encode and image decode. Software of the host, not of the engine (R4); no engine rule depends on it. -/

namespace Sys2Proof.Machine.HostImage

/-- A raster: row-major pixels, `width * height` of them (`00_scope.md` glossary, RasterImage). -/
structure Raster where
  width : Nat
  height : Nat
  pixels : List (Rgb Byte)
deriving DecidableEq, Repr

/-- A compressed image: the padded size and the records in row-major tile order, 75 bytes each (CompressedImage). -/
structure CompressedImage where
  width : Nat
  height : Nat
  blocks : List (List Byte)
deriving DecidableEq, Repr

/-- The causes of the host's FormatError (R181, R182, R187, R210). -/
inductive FormatCause where
  | headerSignature
  | truncated
  | dimensions
  | blockCount
  | footerSignature
  /-- Bytes after the footer, where the platform's policy does not accept them (U10). -/
  | trailingBytes
deriving DecidableEq, Repr

/-- How an image encode or decode fails: always fatal (R186, R187). -/
inductive HostError where
  | formatError (cause : FormatCause)
  /-- The engine raised an error at tile `tile`. -/
  | engine (tile : Nat) (e : EngineError)
deriving DecidableEq, Repr

/-- Black (R184). -/
def black : Rgb Byte := ⟨0, 0, 0⟩

/-- The next multiple of 8 (R184). -/
def padUp (n : Nat) : Nat := (n + 7) / 8 * 8

/-- Padding with black columns on the right and black rows at the bottom (R184). -/
def pad (r : Raster) : Raster where
  width := padUp r.width
  height := padUp r.height
  pixels := (List.range (padUp r.width * padUp r.height)).map (fun e =>
    let x := e % padUp r.width
    let y := e / padUp r.width
    if x < r.width ∧ y < r.height then r.pixels.getD (y * r.width + x) black else black)

/-- `(width/8)*(height/8)` (R182). -/
def blockCount (width height : Nat) : Nat := (width / 8) * (height / 8)

/-- `origin_x(i)` (R183). -/
def originX (width i : Nat) : Nat := (i * 8) % width

/-- `origin_y(i)` (R183), with the floor division (D25). -/
def originY (width i : Nat) : Nat := (i * 8) / width * 8

/-- The element of the raster's row-major sequence that is pixel `p` of tile `i` (R183). -/
def rasterElement (width i p : Nat) : Nat :=
  (originY width i + pixelY p) * width + (originX width i + pixelX p)

/-- The raster pixel that is pixel `p` of tile `i` (R183). -/
def Raster.pixelOf (r : Raster) (i p : Nat) : Rgb Byte :=
  r.pixels.getD (rasterElement r.width i p) black

/-- The 192 bytes of tile `i` of a padded raster, as the host loads them into TILE (R82, R183, R186). -/
def tileOf (r : Raster) (i : Nat) : List Byte :=
  pixels.flatMap (fun p => [(r.pixelOf i p).r, (r.pixelOf i p).g, (r.pixelOf i p).b])

/-- A 2-byte big-endian two's complement integer (R180; two's complement is G1, log entry 15). -/
def be16 (n : Int) : List Byte :=
  let w := BitVec.ofInt 16 n
  [w.extractLsb' 8 8, w.extractLsb' 0 8]

/-- A 4-byte big-endian two's complement integer (R180, G1). -/
def be32 (n : Int) : List Byte :=
  let w := BitVec.ofInt 32 n
  [w.extractLsb' 24 8, w.extractLsb' 16 8, w.extractLsb' 8 8, w.extractLsb' 0 8]

/-- The signed integer of two big-endian bytes. -/
def int16 (b1 b0 : Byte) : Int := (b1 ++ b0).toInt

/-- The signed integer of four big-endian bytes. -/
def int32 (b3 b2 b1 b0 : Byte) : Int := (b3 ++ b2 ++ b1 ++ b0).toInt

/-- What stands in front of the records: the header signature, the width, the height and the block count (R180). -/
def headerBytes (width height : Nat) : List Byte :=
  Config.headerSig ++ be16 width ++ be16 height ++ be32 (blockCount width height)

/-- The byte stream of a compressed image (R180). -/
def serialize (img : CompressedImage) : List Byte :=
  headerBytes img.width img.height ++ img.blocks.flatten ++ Config.footerSig

/-- The bytes after a signature, compared byte for byte (R181). -/
def dropSignature : List Byte → List Byte → Option (List Byte)
  | [], rest => some rest
  | _ :: _, [] => none
  | s :: sig, b :: rest => if s = b then dropSignature sig rest else none

/-- A dimension within its declared bounds: positive and a multiple of 8 (R182). -/
def dimensionOk (n : Int) : Bool := 0 < n && n % 8 == 0

/-- What the fixed fields in front of the records say (R180, R182), and the bytes after them. -/
structure Header where
  width : Nat
  height : Nat
  body : List Byte
deriving DecidableEq, Repr

/-- The checks of the header signature and of the three integer fields, in the order of R187 (R181, R182). -/
def parseHeader (stream : List Byte) : Except HostError Header :=
  match dropSignature Config.headerSig stream with
  | none => .error (.formatError .headerSignature)
  | some (w1 :: w0 :: h1 :: h0 :: c3 :: c2 :: c1 :: c0 :: body) =>
    let width := int16 w1 w0
    let height := int16 h1 h0
    if !(dimensionOk width && dimensionOk height) then .error (.formatError .dimensions)
    else if int32 c3 c2 c1 c0 ≠ blockCount width.toNat height.toNat then .error (.formatError .blockCount)
    else .ok ⟨width.toNat, height.toNat, body⟩
  | some _ => .error (.formatError .truncated)

/-- How many records follow the header. -/
def Header.count (h : Header) : Nat := blockCount h.width h.height

/-- The 75 bytes of record `i`; fewer available is a truncated stream (R187). -/
def Header.record (h : Header) (i : Nat) : Except HostError (List Byte) :=
  let bytes := (h.body.drop (75 * i)).take 75
  if bytes.length < 75 then .error (.formatError .truncated) else .ok bytes

/-- The check of the footer signature, and of what follows it (R181, R182, U10). -/
def Header.checkFooter (h : Header) : Except HostError Unit :=
  let footer := h.body.drop (75 * h.count)
  if footer.length < Config.footerSig.length then .error (.formatError .truncated)
  else
    match dropSignature Config.footerSig footer with
    | none => .error (.formatError .footerSignature)
    | some extra =>
      if extra.isEmpty || Config.acceptsTrailingBytes then .ok () else .error (.formatError .trailingBytes)

/-- `f` at each tile index in order, stopping at the first failure: "no partial-failure recovery" (R186, R187). -/
def forTiles {α : Type} (f : Nat → Except HostError α) : List Nat → Except HostError (List α)
  | [] => .ok []
  | i :: rest => do
    let a ← f i
    let as ← forTiles f rest
    return a :: as

/-- Parsing a byte stream, every check of R181 and R182 in the order of R187. -/
def deserialize (stream : List Byte) : Except HostError CompressedImage := do
  let h ← parseHeader stream
  let blocks ← forTiles h.record (List.range h.count)
  h.checkFooter
  return ⟨h.width, h.height, blocks⟩

/-- What the engine answers for tile `i` at a level (R150). -/
def encodeTileAt (r : Raster) (level i : Nat) : Except HostError (List Byte) :=
  match (encodeBlock (fun j => (tileOf r i).getD j 0) level).2 with
  | .ok record => .ok record
  | .error e => .error (.engine i e)

/-- The greatest dimension the 2-byte signed fields hold among the multiples of 8 (R182). -/
def maxDimension : Nat := 32760

/-- Whether a raster can be the input of an image encode: padded (R182, R184), and of a size its fields hold. -/
def encodable (r : Raster) : Bool :=
  dimensionOk r.width && dimensionOk r.height && decide (r.width ≤ maxDimension) && decide (r.height ≤ maxDimension)

/-- What a host writes to LEVEL for a level of any size: `min(n, 65535)` (R24, R186). -/
def hostLevel (level : Nat) : Nat := min level maxLevel

/-- The result of an image encode of a padded raster (R186). A raster that R182 gives no stream is not encoded (log
entry 15). -/
def encodeImage (r : Raster) (level : Nat) : Except HostError (List Byte) :=
  if encodable r then do
    let blocks ← forTiles (encodeTileAt r (hostLevel level)) (List.range (blockCount r.width r.height))
    return serialize ⟨r.width, r.height, blocks⟩
  else .error (.formatError .dimensions)

/-- What the engine answers for record `i` of a stream (R151, R187). -/
def decodeBlockAt (h : Header) (i : Nat) : Except HostError (List Byte) := do
  let record ← h.record i
  match decodeBlock (fun j => record.getD j 0) with
  | .ok result => .ok result.2
  | .error e => .error (.engine i e)

/-- The tile that holds raster pixel `(x, y)` (R183). -/
def tileIndexAt (width x y : Nat) : Nat := (y / 8) * (width / 8) + x / 8

/-- The place of raster pixel `(x, y)` in its tile (R183). -/
def placeInTile (x y : Nat) : Nat := 8 * (y % 8) + x % 8

/-- Pixel `p` of a tile's 192 bytes (R82). -/
def tilePixel (tile : List Byte) (p : Nat) : Rgb Byte :=
  ⟨tile.getD (3 * p) 0, tile.getD (3 * p + 1) 0, tile.getD (3 * p + 2) 0⟩

/-- The raster of decoded tiles (R183, R187). -/
def assemble (width height : Nat) (tiles : List (List Byte)) : Raster where
  width := width
  height := height
  pixels := (List.range (width * height)).map (fun e =>
    let x := e % width
    let y := e / width
    tilePixel (tiles.getD (tileIndexAt width x y) []) (placeInTile x y))

/-- The result of an image decode of a byte stream, in the order of R187: the header, each record read and decoded, the
footer. -/
def decodeImage (stream : List Byte) : Except HostError Raster := do
  let h ← parseHeader stream
  let tiles ← forTiles (decodeBlockAt h) (List.range h.count)
  h.checkFooter
  return assemble h.width h.height tiles

end Sys2Proof.Machine.HostImage
end

