-- ==== Sys2Proof/Machine/HostScript.lean ====
section
/-! DEFINITION. The host notation (30_encoding.md R90, R91) and the minimal sequences (70 R223), as lists of host actions. -/

namespace Sys2Proof.Machine.Script

/-- `WR CMD, v`: issue a command by its byte (R22, R90). -/
def command (i : Instr) : List HostAction := [.write cmdOffset (commandByte i)]

/-- `NOP` (R91). -/
def nop : List HostAction := command .nop

/-- `ENC` (R91). -/
def enc : List HostAction := command .enc

/-- `DEC` (R91). -/
def dec : List HostAction := command .dec

/-- `SRST` (R91). -/
def srst : List HostAction := command .srst

/-- `SETLEVEL n`, 0 ≤ n ≤ 65535: LEVEL_HI, then LEVEL_LO (R91). -/
def setLevel (n : Nat) : List HostAction :=
  [.write 0x112 (BitVec.ofNat 8 (n / 256)), .write 0x113 (BitVec.ofNat 8 (n % 256))]

/-- Writes of `bytes` to ascending offsets from `base` on. -/
def store (base : Nat) : List Byte → List HostAction
  | [] => []
  | v :: rest => .write base v :: store (base + 1) rest

/-- `LDTILE b0 ... b191` (R91). -/
def ldTile (bytes : List Byte) : List HostAction := store (tileOffset 0) bytes

/-- `LDPIX p, r, g, b` (R91). -/
def ldPix (p : Nat) (r g b : Byte) : List HostAction := store (tileOffset (3 * p)) [r, g, b]

/-- `FILL r, g, b` (R91). -/
def fill (r g b : Byte) : List HostAction := pixels.flatMap (fun p => ldPix p r g b)

/-- `LDREC b0 ... b74` (R91). -/
def ldRec (bytes : List Byte) : List HostAction := store (recOffset 0) bytes

/-- `WAIT -> s` (R91). -/
def wait : List HostAction := [.wait]

/-- `RDREC -> r` (R91). -/
def rdRec : List HostAction := (List.range 75).map (fun j => .read (recOffset j))

/-- `RDTILE -> t` (R91). -/
def rdTile : List HostAction := (List.range 192).map (fun i => .read (tileOffset i))

/-- Encode one tile at a level, when nothing fails (R223, R186). -/
def encodeTile (bytes : List Byte) (level : Nat) : List HostAction :=
  ldTile bytes ++ setLevel level ++ enc ++ wait ++ rdRec

/-- Decode one record, when nothing fails (R223, R187). -/
def decodeRecord (bytes : List Byte) : List HostAction :=
  ldRec bytes ++ dec ++ wait ++ rdTile

/-- Reads of ERRCODE and ERRINFO, the detail of a failed command (R186, R187, R223). -/
def readError : List HostAction := [.read 0x114, .read 0x115]

/-- What a host does after a `WAIT` that read `st` (R223): the given sequence when the command is done (0x02), and when
it failed (0x04) reads of ERRCODE and ERRINFO and a reset. Nothing else can be read (R223). -/
def afterWait (st : Byte) (done : List HostAction) : List HostAction :=
  if st = 0x02 then done else if st = 0x04 then readError ++ srst else []

/-- `EXPECT n == v` (R90): an assertion about a bound variable, not an access. The variable is the reply of the read
that lies `back` replies back, 0 the latest (log entry 16). -/
def expect (s : State) (back : Nat) (v : Byte) : Bool :=
  match s.replies[back]? with
  | some r => r.2 == v
  | none => false

end Sys2Proof.Machine.Script
end

