-- ==== Sys2Proof/Machine/HostRun.lean ====
section
/-! DEFINITION. A host that drives one engine through a whole image (48_host_image_codec.md R186, R187): the image encode and the image decode as programs over the engine's port, one access or engine step at a time, branching on what `WAIT` read. -/

namespace Sys2Proof.Machine.HostImage

/-- What a host is asked to do with its engine. -/
inductive Job where
  /-- Image encode of a padded raster at a level (R186). -/
  | encode (r : Raster) (level : Nat)
  /-- Image decode of a byte stream (R187). -/
  | decode (stream : List Byte)
deriving DecidableEq, Repr

/-- What the host does before its first tile: an encode sets LEVEL once; a decode checks the header (R186, R187). -/
def Job.begin : Job → Except HostError (List HostAction)
  | .encode r level =>
    if encodable r then .ok (Script.setLevel (hostLevel level)) else .error (.formatError .dimensions)
  | .decode stream => (parseHeader stream).map (fun _ => [])

/-- How many tiles the loop of R186 or R187 runs over. -/
def Job.count : Job → Nat
  | .encode r _ => blockCount r.width r.height
  | .decode stream =>
    match parseHeader stream with
    | .ok h => h.count
    | .error _ => 0

/-- `for p in 0..63: LDPIX p` of tile `i` (R186). -/
def loadTile (r : Raster) (i : Nat) : List HostAction :=
  pixels.flatMap (fun p => Script.ldPix p (r.pixelOf i p).r (r.pixelOf i p).g (r.pixelOf i p).b)

/-- The accesses of tile `i` up to and with its `WAIT` (R186, R187), or that the stream ends before its record. -/
def Job.issue : Job → Nat → Except HostError (List HostAction)
  | .encode r _, i => .ok (loadTile r i ++ Script.enc ++ Script.wait)
  | .decode stream, i => do
    let h ← parseHeader stream
    let record ← h.record i
    return Script.ldRec record ++ Script.dec ++ Script.wait

/-- The reads of the result: `RDREC` or `RDTILE` (R186, R187). -/
def Job.readBack : Job → List HostAction
  | .encode _ _ => Script.rdRec
  | .decode _ => Script.rdTile

/-- What the host checks after its last tile: a decode checks the footer (R187). -/
def Job.finish : Job → Except HostError Unit
  | .encode _ _ => .ok ()
  | .decode stream => do
    let h ← parseHeader stream
    h.checkFooter

/-- Where the host stands when its accesses so far are served. -/
inductive Stage where
  /-- Nothing done yet. -/
  | start
  /-- At the head of the loop. -/
  | next
  /-- The `WAIT` of the current tile has ended. -/
  | awaited
  /-- The result of the current tile has been read. -/
  | read
  /-- ERRCODE and ERRINFO have been read and SRST issued. -/
  | errorRead
  /-- The whole image is done. -/
  | done
  /-- The whole image has failed; there is no partial-failure recovery (R186, R187). -/
  | stopped (e : HostError)
deriving DecidableEq, Repr

/-- A host with its engine, in the middle of a job. -/
structure HostRun where
  engine : State
  /-- The index `i` of the current tile. -/
  tile : Nat
  /-- What the tiles before it gave: records (encode) or 192 tile bytes each (decode), in order. -/
  output : List (List Byte)
  stage : Stage
deriving DecidableEq, Repr

/-- A host about to begin with this engine. -/
def HostRun.start (engine : State) : HostRun := ⟨engine, 0, [], .start⟩

/-- The bytes of the `n` latest replies, in the order they were read. -/
def latestReplies (s : State) (n : Nat) : List Byte :=
  ((s.replies.take n).map Prod.snd).reverse

/-- The error that ERRCODE and ERRINFO name (R74, R75). -/
def errorOf (code info : Byte) : EngineError :=
  if code = Config.packingOverflowCode then .packingOverflow info.toNat
  else if code = Config.formatErrorCode then .formatError info.toNat
  else .illegalCommand info

/-- The error of the replies to `RD ERRCODE` and `RD ERRINFO`, the last two. -/
def reportedError (s : State) : EngineError :=
  match latestReplies s 2 with
  | [code, info] => errorOf code info
  | _ => .illegalCommand Config.noErrorCode

/-- The host gives its engine these accesses to serve. -/
def HostRun.accesses (run : HostRun) (script : List HostAction) (stage : Stage) : HostRun :=
  { run with engine := { run.engine with script := script }, stage := stage }

/-- The host goes on at `stage` with what a check allows, or the whole image fails (R186, R187). -/
def HostRun.orStop {α : Type} (run : HostRun) (check : Except HostError α) (go : α → HostRun) : HostRun :=
  match check with
  | .ok a => go a
  | .error e => { run with stage := .stopped e }

/-- The host issues the current tile: its loads, its command and its `WAIT` (R186, R187). -/
def HostRun.issue (job : Job) (run : HostRun) : HostRun :=
  run.orStop (job.issue run.tile) (fun script => run.accesses script .awaited)

/-- The branch after a `WAIT`: on 0x04 the host reads the error and issues SRST, else it reads the result (R186, R187). -/
def HostRun.afterWait (job : Job) (run : HostRun) : HostRun :=
  if latestReplies run.engine 1 = [Status.failed.toByte] then run.accesses (Script.readError ++ Script.srst) .errorRead
  else run.accesses job.readBack .read

/-- The result of the current tile, just read back: a record, or 192 tile bytes. -/
def HostRun.result (job : Job) (run : HostRun) : List Byte :=
  latestReplies run.engine job.readBack.length

/-- The failure of the current tile, its error just read (R186, R187). -/
def HostRun.failure (run : HostRun) : HostError :=
  .engine run.tile (reportedError run.engine)

/-- What the host does when its accesses so far are served (R186, R187). -/
def HostRun.advance (job : Job) (run : HostRun) : HostRun :=
  match run.stage with
  | .start => run.orStop job.begin (fun script => run.accesses script .next)
  | .next =>
    if run.tile < job.count then run.issue job
    else run.orStop job.finish (fun _ => { run with stage := .done })
  | .awaited => run.afterWait job
  | .read => { run with tile := run.tile + 1, output := run.output ++ [run.result job], stage := .next }
  | .errorRead => { run with stage := .stopped run.failure }
  | .done => run
  | .stopped _ => run

/-- One step of the host with its engine: while accesses are left the engine's own step, then the host's next move. -/
def HostRun.step (job : Job) (run : HostRun) : Host.Outcome HostRun Fault Refusal :=
  if run.engine.script.isEmpty then .next (run.advance job)
  else
    match Sys2Proof.Machine.step run.engine with
    | .next t => .next { run with engine := t }
    | .fault r => .fault r
    | .refused r => .refused r

/-- `n` steps. -/
def HostRun.run (job : Job) : Nat → HostRun → Host.Outcome HostRun Fault Refusal
  | 0, run => .next run
  | n + 1, run =>
    match run.step job with
    | .next run' => HostRun.run job n run'
    | .fault r => .fault r
    | .refused r => .refused r

/-- The byte stream an encode has written so far: the header first, each record as it is made, the footer last (R186). -/
def HostRun.stream (r : Raster) (run : HostRun) : List Byte :=
  headerBytes r.width r.height ++ run.output.flatten ++ (if run.stage = .done then Config.footerSig else [])

/-- The raster of a decode, with the tiles decoded so far (R187). -/
def HostRun.raster (h : Header) (run : HostRun) : Raster :=
  assemble h.width h.height run.output

end Sys2Proof.Machine.HostImage
end

