-- ==== Sys2Proof/Machine/Platform.lean ====
section
/-! DEFINITION. Several engines side by side (60_exceptions.md R209, 48 R188), each with its own BASE (R51): they share nothing. -/

namespace Sys2Proof.Machine.Platform

/-- The engines of a platform, engine `k` at place `k`. -/
abbrev Engines := List State

/-- A platform right after the hardware reset: `N_ENGINES` engines in the reset state (R7, R33). -/
def reset : Engines := List.replicate Config.nEngines State.reset

/-- The platform address of an offset of engine `k`: `BASE + offset` (R51). -/
def address (k offset : Nat) : Nat := Config.base k + offset

/-- Whether a platform address is one of the 512 offsets of engine `k` (R51). -/
def belongs (k a : Nat) : Bool := Config.base k ≤ a && a < Config.base k + 0x200

/-- Engine `k` takes a step; no other engine sees or disturbs it (R209). -/
def step (k : Nat) (engines : Engines) : Host.Outcome Engines Fault Refusal :=
  match engines[k]? with
  | none => .next engines
  | some s =>
    match Sys2Proof.Machine.step s with
    | .next t => .next (engines.set k t)
    | .fault r => .fault r
    | .refused r => .refused r

end Sys2Proof.Machine.Platform
end

