-- ==== Sys2Proof/Machine/ImageTeam.lean ====
section
/-! DEFINITION. An image over several engines (48_host_image_codec.md R188): any tile to any engine, at any time; the result of tile `i` at place `i`, whichever engine made it and whenever it ended; the framing in the order of the places. -/

namespace Sys2Proof.Machine.Platform

open HostImage

/-- A host with the engines of a platform, in the middle of an image. -/
structure ImageTeam where
  /-- Engine `k` of the platform at place `k`, with the tile it works on and how far the host is with it. Its own list of
  outputs stays empty: results go to `places`. -/
  workers : List HostRun
  /-- At place `i` the result of tile `i`, once it has been read back: record `i` (encode), raster tile `i` (decode). -/
  places : List (Option (List Byte))
  /-- How far the whole image is: `next` while it is in work. -/
  stage : Stage
deriving DecidableEq, Repr

/-- The engines of the team, as the platform has them. -/
def ImageTeam.engines (team : ImageTeam) : Engines :=
  team.workers.map HostRun.engine

/-- A host about to begin an image with these engines: nothing is given, no place is filled, and what R186 and R187 check
before the first tile is checked. -/
def ImageTeam.start (job : Job) (engines : Engines) : ImageTeam where
  workers := engines.map HostRun.start
  places := List.replicate job.count none
  stage :=
    match job.begin with
    | .ok _ => .next
    | .error e => .stopped e

/-- What may happen next: R188 fixes no order among these. -/
inductive TeamMove where
  /-- Tile `i` is given to engine `k`. -/
  | give (k i : Nat)
  /-- Engine `k` steps, or, with its accesses served, the host goes on with it. -/
  | work (k : Nat)
  /-- The framing, once every place is filled: the one serialization point. -/
  | frame
deriving DecidableEq, Repr

/-- Worker `k` becomes `run`; no other worker changes. -/
def ImageTeam.put (team : ImageTeam) (k : Nat) (run : HostRun) : ImageTeam :=
  { team with workers := team.workers.set k run }

/-- The whole image fails: there is no partial-failure recovery (R186, R187). -/
def ImageTeam.stop (team : ImageTeam) (e : HostError) : ImageTeam :=
  { team with stage := .stopped e }

/-- Worker `k` goes on with what a check allowed, or the whole image fails with it. -/
def ImageTeam.putOrStop (team : ImageTeam) (k : Nat) (run : HostRun) : ImageTeam :=
  match run.stage with
  | .stopped e => team.stop e
  | _ => team.put k run

/-- Tile `i` of the image is given to worker `k`, if it is free and there is such a tile. -/
def ImageTeam.give (job : Job) (k i : Nat) (run : HostRun) (team : ImageTeam) : ImageTeam :=
  if run.engine.script.isEmpty && run.stage == .next && decide (i < job.count) then
    team.putOrStop k ({ run with tile := i }.issue job)
  else team

/-- The host goes on with worker `k`, whose accesses are served: it sets LEVEL once for this engine, branches after a
`WAIT`, or puts the result of tile `i` at place `i` (R186, R187, R188). -/
def ImageTeam.advance (job : Job) (k : Nat) (run : HostRun) (team : ImageTeam) : ImageTeam :=
  match run.stage with
  | .start => team.putOrStop k (run.orStop job.begin (fun script => run.accesses script .next))
  | .next => team
  | .awaited => team.put k (run.afterWait job)
  | .read =>
    { team.put k { run with stage := .next } with places := team.places.set run.tile (some (run.result job)) }
  | .errorRead => team.stop run.failure
  | .done => team
  | .stopped _ => team

/-- Worker `k` works: while it has accesses left its engine steps, which is the platform's step of engine `k`
(`ImageTeam.work_engines`). -/
def ImageTeam.work (job : Job) (k : Nat) (run : HostRun) (team : ImageTeam) : Host.Outcome ImageTeam Fault Refusal :=
  if run.engine.script.isEmpty then .next (team.advance job k run)
  else
    match Sys2Proof.Machine.step run.engine with
    | .next t => .next (team.put k { run with engine := t })
    | .fault r => .fault r
    | .refused r => .refused r

/-- The framing: with every place filled, what R186 and R187 do after the last tile. -/
def ImageTeam.frame (job : Job) (team : ImageTeam) : ImageTeam :=
  if team.places.all Option.isSome then
    match job.finish with
    | .ok _ => { team with stage := .done }
    | .error e => team.stop e
  else team

/-- One move of the team. Nothing moves once the image is done or has failed, and a move of a worker that is not there
does nothing. -/
def ImageTeam.step (job : Job) (move : TeamMove) (team : ImageTeam) : Host.Outcome ImageTeam Fault Refusal :=
  if team.stage = .next then
    match move with
    | .give k i =>
      match team.workers[k]? with
      | some run => .next (team.give job k i run)
      | none => .next team
    | .work k =>
      match team.workers[k]? with
      | some run => team.work job k run
      | none => .next team
    | .frame => .next (team.frame job)
  else .next team

/-- The moves one after another. -/
def ImageTeam.run (job : Job) : List TeamMove → ImageTeam → Host.Outcome ImageTeam Fault Refusal
  | [], team => .next team
  | move :: rest, team =>
    match team.step job move with
    | .next team' => ImageTeam.run job rest team'
    | .fault r => .fault r
    | .refused r => .refused r

/-- The results that stand in order from place 0 on: as far as the framing can write (R188). -/
def framed : List (Option (List Byte)) → List (List Byte)
  | some result :: rest => result :: framed rest
  | none :: _ => []
  | [] => []

/-- The byte stream of an encode so far: the header, record `i` at position `i`, the footer last (R180, R186, R188). -/
def ImageTeam.stream (r : Raster) (team : ImageTeam) : List Byte :=
  headerBytes r.width r.height ++ (framed team.places).flatten ++ (if team.stage = .done then Config.footerSig else [])

/-- The raster of a decode so far: the tile of place `i` at the raster positions of tile `i` (R183, R187, R188). A tile
not yet decoded shows black (log entry 30). -/
def ImageTeam.raster (h : Header) (team : ImageTeam) : Raster :=
  assemble h.width h.height (team.places.map (fun place => place.getD []))

end Sys2Proof.Machine.Platform
end

