-- ==== Sys2Proof/WellFormed.lean ====
section
/-! DEFINITION. Which instructions and host actions are well formed. -/

namespace Sys2Proof

/-- Every command is well formed: a command carries no operand, no register number, no immediate and no mode bit
(R70), so there is nothing in one that could be out of range. -/
def Instr.wf : Instr → Bool
  | .nop => true
  | .enc => true
  | .dec => true
  | .srst => true

/-- A port access is one to the engine when its offset is 0x000 to 0x1FF (R50, R51, U7). -/
def HostAction.wf : HostAction → Bool
  | .read offset => offset < 0x200
  | .write offset _ => offset < 0x200
  | .wait => true
  | .hardReset => true

/-- A host script is well formed when every line of it is (R90). -/
def scriptWf (script : List HostAction) : Bool :=
  script.all HostAction.wf

end Sys2Proof
end

