-- ==== Sys2Proof/Safety.lean ====
section
/-! DEFINITION. The invariant of the machine: what the spec says is true of the state between any two events; what a safe step is; and the closed forms the claims about ENC and DEC are stated in. -/

namespace Sys2Proof.Machine

/-- STATUS has at most one bit set (R23, R173). -/
abbrev StatusLegal (s : State) : Prop :=
  s.status = .idle ∨ s.status = .running ∨ s.status = .finished ∨ s.status = .failed

/-- OP is ENC or DEC exactly while BUSY (R27). -/
abbrev OpLegal (s : State) : Prop :=
  s.status.busy = true ↔ s.op ≠ .none

/-- ERRCODE and ERRINFO are 0x00 while ERR = 0, and hold one of the errors of R200 with a detail of R75 while ERR = 1
(R25, R26). -/
abbrev ErrorLegal (s : State) : Prop :=
  if s.status.err then
    (s.errcode = 0x01 ∧ 7 ≤ s.errinfo.toNat ∧ s.errinfo.toNat ≤ 74)
    ∨ (s.errcode = 0x02 ∧ (s.errinfo = 0 ∨ s.errinfo = 2 ∨ s.errinfo = 4 ∨ s.errinfo = 6))
    ∨ (s.errcode = 0x03 ∧ 0x03 ≤ s.errinfo.toNat ∧ s.errinfo.toNat ≤ 0xFE)
  else s.errcode = 0x00 ∧ s.errinfo = 0x00

/-- PREV holds codes: 0 to 15 for Y, 0 to 5 for U and V (R28). -/
abbrev PrevLegal (s : State) : Prop :=
  (0 ≤ s.prev.y ∧ s.prev.y ≤ 15) ∧ (0 ≤ s.prev.u ∧ s.prev.u ≤ 5) ∧ (0 ≤ s.prev.v ∧ s.prev.v ≤ 5)

/-- What every reachable state is like. The last clause is about the model's own field. -/
structure Inv (s : State) : Prop where
  mem : s.mem.wf
  status : StatusLegal s
  op : OpLegal s
  error : ErrorLegal s
  prev : PrevLegal s
  delay : s.status.busy = false → s.delay = 0

/-- A step is safe when it answers a next state. -/
def SafeStep (s : State) : Prop :=
  ∃ t, step s = .next t

/-- The engine's own state is the same in both: every field the spec gives it. -/
def SameEngine (s t : State) : Prop :=
  t.mem = s.mem ∧ t.status = s.status ∧ t.level = s.level ∧ t.errcode = s.errcode ∧ t.errinfo = s.errinfo ∧
    t.op = s.op ∧ t.prev = s.prev

/-- What belongs to the host is the same in both. -/
def SameHost (s t : State) : Prop :=
  t.script = s.script ∧ t.replies = s.replies

/-- Every byte of TILE is the same in both, read one by one. -/
abbrev SameTile (s t : State) : Prop :=
  ∀ i < 192, t.tileByte i = s.tileByte i

/-- Every byte of REC is the same in both, read one by one. -/
abbrev SameRecord (s t : State) : Prop :=
  ∀ j < 75, t.recByte j = s.recByte j

/-- A computed sum that fits a byte. -/
abbrev FitsByte (n : Int) : Prop := 0 ≤ n ∧ n ≤ 255

/-! ### ENC and DEC in closed form

Written out from the rules, over the bytes, with none of the functions `exec` runs but the stats of a tile. -/

/-- The pixel of corner `k`, TL, TR, BL, BR (`00_scope.md` section 7). -/
def cornerPixel : Nat → Nat
  | 0 => 0
  | 1 => 7
  | 2 => 56
  | _ => 63

/-- The blend of four corner values at pixel `p`: weights (7-x)(7-y), x(7-y), (7-x)y, xy, over 49 (R145). -/
def blend (corner : Nat → Rat) (p : Nat) : Rat :=
  let x : Rat := ((p % 8 : Nat) : Rat)
  let y : Rat := ((p / 8 : Nat) : Rat)
  ((7 - x) * (7 - y) * corner 0 + x * (7 - y) * corner 1 + (7 - x) * y * corner 2 + x * y * corner 3) / 49

/-- The sample of pixel `p`: red at byte `3p`, green at `3p + 1`, blue at `3p + 2` (R20, R100). -/
def sourceSample (tile : Nat → Byte) (p : Nat) (c : Channel) : Rat :=
  let r : Rat := ((tile (3 * p)).toNat : Rat)
  let g : Rat := ((tile (3 * p + 1)).toNat : Rat)
  let b : Rat := ((tile (3 * p + 2)).toNat : Rat)
  match c with
  | .y => (299 * r + 587 * g + 114 * b) / 1000
  | .u => (-169 * r - 331 * g + 500 * b) / 1000 + 128
  | .v => (500 * r - 419 * g - 81 * b) / 1000 + 128

/-- The minimum and the maximum of a channel of a tile (R110, R111; the statement `StatsOfATile` says what they are). -/
def sourceMin (tile : Nat → Byte) (c : Channel) : Int := ((tileStats tile).get c).min

/-- The maximum. -/
def sourceMax (tile : Nat → Byte) (c : Channel) : Int := ((tileStats tile).get c).max

/-- Whether ENC flags a channel: the Y range below half the level, a U or V range below the level (R124). -/
def sourceFlag (tile : Nat → Byte) (level : Nat) (c : Channel) : Bool :=
  match c with
  | .y => decide (2 * (sourceMax tile .y - sourceMin tile .y) < level)
  | .u => decide (sourceMax tile .u - sourceMin tile .u < level)
  | .v => decide (sourceMax tile .v - sourceMin tile .v < level)

/-- The code of a value of a tile's channel: 0 when the range is 0, else the floor of the normalised value times 15.9
for Y, 3.9 for U and V (R120, R121, R122). -/
def sourceCodeOf (tile : Nat → Byte) (c : Channel) (value : Rat) : Int :=
  if sourceMax tile c = sourceMin tile c then 0
  else ((value - sourceMin tile c) / (sourceMax tile c - sourceMin tile c) *
    (match c with | .y => 159 / 10 | .u => 39 / 10 | .v => 39 / 10)).floor

/-- The code of channel `c` at pixel `p` (R150 step 4, R147): of the blend of the unquantised samples of the four corner
pixels in a flagged channel, of the pixel's own sample in an unflagged one. -/
def sourceCode (tile : Nat → Byte) (level p : Nat) (c : Channel) : Int :=
  sourceCodeOf tile c
    (if sourceFlag tile level c then blend (fun k => sourceSample tile (cornerPixel k) c) p else sourceSample tile p c)

/-- The codes of the three channels. -/
def sourceCodes (tile : Nat → Byte) (level p : Nat) : Triple Int :=
  .ofFn (sourceCode tile level p)

/-- The code of channel `c` in corner byte `k`: of the corner pixel's sample in a flagged channel, else 0 (R141). -/
def sourceCorner (tile : Nat → Byte) (level k : Nat) (c : Channel) : Int :=
  if sourceFlag tile level c then sourceCodeOf tile c (sourceSample tile (cornerPixel k) c) else 0

/-- The modulus of a channel's delta chain: 16 for Y, 4 for U and V (R130, R131). -/
def chainModulus : Channel → Int
  | .y => 16
  | .u => 4
  | .v => 4

/-- The delta of channel `c` at pixel `p`, against 0 at pixel 0 and else against the pixel before (R130, R134). -/
def sourceDelta (tile : Nat → Byte) (level p : Nat) (c : Channel) : Int :=
  let before := if p = 0 then 0 else sourceCode tile level (p - 1) c
  let code := sourceCode tile level p c
  if before ≤ code then code - before else chainModulus c + code - before

/-- The sum of packed byte `j` of the record, 7 to 74 (R142, R132): a corner's codes or a pixel's deltas. -/
def packedSum (tile : Nat → Byte) (level j : Nat) : Int :=
  let field := if j < 11 then sourceCorner tile level (j - 7) else sourceDelta tile level (j - 11)
  16 * field .y + 4 * field .u + field .v

/-- The field of channel `c` in a packed byte: bits 7 to 4, 3 to 2, 1 to 0 (R80, R81). -/
def packedField (b : Byte) (c : Channel) : Nat :=
  match c with
  | .y => b.toNat / 16
  | .u => b.toNat % 16 / 4
  | .v => b.toNat % 4

/-- Whether a record flags a channel: bit 2 of the flags byte for Y, bit 1 for U, bit 0 for V (R78). -/
def recordFlag (record : Nat → Byte) (c : Channel) : Bool :=
  match c with
  | .y => (record 6).toNat / 4 % 2 == 1
  | .u => (record 6).toNat / 2 % 2 == 1
  | .v => (record 6).toNat % 2 == 1

/-- The maximum of a channel in a record: bytes 0, 2, 4 (R77). -/
def recordMax (record : Nat → Byte) (c : Channel) : Nat :=
  match c with
  | .y => (record 0).toNat
  | .u => (record 2).toNat
  | .v => (record 4).toNat

/-- The minimum of a channel in a record: bytes 1, 3, 5 (R77). -/
def recordMin (record : Nat → Byte) (c : Channel) : Nat :=
  match c with
  | .y => (record 1).toNat
  | .u => (record 3).toNat
  | .v => (record 5).toNat

/-- The value of code `q` of channel `c`: `min + q * range / 15` for Y, `min + q * range / 3` for U and V (R123). -/
def recordValue (record : Nat → Byte) (c : Channel) (q : Int) : Rat :=
  recordMin record c + q * ((recordMax record c : Rat) - recordMin record c) /
    (match c with | .y => 15 | .u => 3 | .v => 3)

/-- The code DEC has for channel `c` at pixel `p`: the sum of the deltas so far, modulo 16 or 4 (R131, R134). -/
def decodedCode (record : Nat → Byte) (p : Nat) (c : Channel) : Int :=
  ((List.range (p + 1)).map (fun i => (packedField (record (11 + i)) c : Int))).sum % chainModulus c

/-- The codes of the three channels. -/
def decodedCodes (record : Nat → Byte) (p : Nat) : Triple Int :=
  .ofFn (decodedCode record p)

/-- The sample DEC reconstructs for channel `c` at pixel `p` (R151 steps 1 to 3, R144): the blend of the values of the
corner codes in record bytes 7 to 10, TL, TR, BL, BR, in a flagged channel; the value of the decoded code in an
unflagged one. -/
def decodedSample (record : Nat → Byte) (p : Nat) (c : Channel) : Rat :=
  if recordFlag record c then blend (fun k => recordValue record c (packedField (record (7 + k)) c)) p
  else recordValue record c (decodedCode record p c)

/-- DEC of the record in `t` has every code of channel `c` that ENC of the tile in `s` computed, and, where the channel
is unflagged and its range above 0, the value of that code within one quantisation step of the source sample. -/
def Recovered (s t : State) (c : Channel) : Prop :=
  ∀ p < 64, decodedCode t.recByte p c = sourceCode s.tileByte s.levelNat p c ∧
    (sourceFlag s.tileByte s.levelNat c = false → sourceMin s.tileByte c < sourceMax s.tileByte c →
      |recordValue t.recByte c (decodedCode t.recByte p c) - sourceSample s.tileByte p c|
        < (sourceMax s.tileByte c - sourceMin s.tileByte c) / (match c with | .y => 15 | .u => 3 | .v => 3))

/-- A record DEC accepts (R153, R154 (a)). -/
abbrev ValidRecord (record : Nat → Byte) : Prop :=
  (record 1).toNat ≤ (record 0).toNat ∧ (record 3).toNat ≤ (record 2).toNat ∧
    (record 5).toNat ≤ (record 4).toNat ∧ (record 6).toNat ≤ 7

/-- The actions that reset the engine: the hardware reset and a write of SRST's byte to CMD (R220). -/
abbrev IsReset (a : HostAction) : Prop :=
  a = .hardReset ∨ a = .write 0x110 0xFF

/-- Serve a list of actions one after another, with no engine step between them (R174: any number may be served). -/
def serveAll : List HostAction → State → Host.Outcome State Fault Refusal
  | [], s => .next s
  | a :: rest, s =>
    match serve a s with
    | .next t => serveAll rest t
    | .fault r => .fault r
    | .refused r => .refused r

/-- A code nominal for its channel: 0 to 15 for Y, 0 to 3 for U and V (R121, R122). -/
abbrev Nominal (q : Triple Int) : Prop :=
  (0 ≤ q.y ∧ q.y ≤ 15) ∧ (0 ≤ q.u ∧ q.u ≤ 3) ∧ (0 ≤ q.v ∧ q.v ≤ 3)

/-- A compressed image whose stream is well formed (R182, R185). -/
abbrev HostImage.WellFormedImage (img : HostImage.CompressedImage) : Prop :=
  (0 < img.width ∧ img.width % 8 = 0 ∧ img.width ≤ 32760) ∧ (0 < img.height ∧ img.height % 8 = 0 ∧ img.height ≤ 32760) ∧
    img.blocks.length = (img.width / 8) * (img.height / 8) ∧ ∀ b ∈ img.blocks, b.length = 75

end Sys2Proof.Machine
end

