-- ==== Sys2Proof/Certificates/Slice0/Obligations.lean ====
section
/-! DEFINITION. The statements about the engine, for the provers. Each is a def Obligations.<Name> : Prop. -/

open Sys2Proof Sys2Proof.Machine

/-! ### Commands and their encoding -/

/-- R70, R71: the four command bytes, written out bit by bit, decode to their commands; a byte is refused, by name and
with the byte, exactly when it is 0x03 to 0xFE, and every other byte decodes. -/
def Obligations.CommandBytesDecode : Prop :=
  (decodeByte 0b00000000 = .ok .nop ∧ decodeByte 0b00000001 = .ok .enc ∧
    decodeByte 0b00000010 = .ok .dec ∧ decodeByte 0b11111111 = .ok .srst) ∧
  ∀ v : Byte, (decodeByte v = .error (.reservedCommand v) ↔ 0x03 ≤ v.toNat ∧ v.toNat ≤ 0xFE) ∧
    (decodeByte v ≠ .error (.reservedCommand v) → ∃ i, decodeByte v = .ok i)

/-- Decoding what the encoder wrote gives the command back and leaves the rest, and the encoder's byte is the only
byte that decodes to the command (R70: a decoder compares the whole byte). -/
def Obligations.DecodeEncodeAgree : Prop :=
  ∀ i : Instr, i.wf = true ∧ (∀ rest, decode (encode i ++ rest) = .ok (i, rest)) ∧
    ∀ v, decodeByte v = .ok i → encode i = [v]

/-! ### A step -/

/-- A step runs the command. When the engine moves, the step is `exec` of the command in the OP latch, on the state
itself. When the host moves and writes a command byte to CMD, the step is `exec` of SRST in every state and of NOP in
IDLE and DONE, and the acceptance of ENC or DEC in IDLE and DONE, on the state with that action taken off the list.
Any other host action is served likewise. When the engine moves, and that ENC and DEC mean the engine's step, is the
model's form of R173 and R174 (log entries 4 and 10). -/
def Obligations.StepRunsTheDecodedCommand : Prop :=
  (∀ s : State, engineMoves s = true → s.op = .enc → step s = exec .enc s) ∧
  (∀ s : State, engineMoves s = true → s.op = .dec → step s = exec .dec s) ∧
  (∀ (s : State) (v : Byte) (rest : List HostAction), engineMoves s = false → s.script = .write 0x110 v :: rest →
    (decodeByte v = .ok .srst → step s = exec .srst (s.consume rest)) ∧
    (decodeByte v = .ok .nop → s.status.err = false → s.status.busy = false → step s = exec .nop (s.consume rest)) ∧
    (decodeByte v = .ok .enc → s.status.err = false → s.status.busy = false →
      step s = .next ((s.consume rest).accept .enc)) ∧
    (decodeByte v = .ok .dec → s.status.err = false → s.status.busy = false →
      step s = .next ((s.consume rest).accept .dec))) ∧
  (∀ (s : State) (a : HostAction) (rest : List HostAction), engineMoves s = false → s.script = a :: rest →
    step s = serve a (s.consume rest))

/-- The very next step after `withFetchWord` runs the command of the word (log entry 11). -/
def Obligations.FetchWordRunsNext : Prop :=
  ∀ s : State, (s.status.busy = false → s.delay = 0) →
    step (s.withFetchWord 8 0x01) = exec .enc (s.withFetchWord 8 0x01) ∧
    step (s.withFetchWord 8 0x02) = exec .dec (s.withFetchWord 8 0x02) ∧
    step (s.withFetchWord 8 0x00) = exec .nop s ∧
    step (s.withFetchWord 8 0xFF) = exec .srst s

/-- R173, the acceptance: a write of 0x01 or 0x02 to CMD in IDLE or DONE sets OP, BUSY and clears DONE, and changes
no buffer, no other register and nothing of the host's. The delay is free and is not stated. -/
def Obligations.EncAndDecAreAccepted : Prop :=
  ∀ s : State, s.status.busy = false → s.status.err = false →
    (∃ t, memWrite 0x110 0x01 s = .next t ∧ t.op = .enc ∧ t.status = ⟨true, false, false⟩ ∧ t.mem = s.mem ∧
      t.level = s.level ∧ t.errcode = s.errcode ∧ t.errinfo = s.errinfo ∧ t.prev = s.prev ∧ SameHost s t) ∧
    (∃ t, memWrite 0x110 0x02 s = .next t ∧ t.op = .dec ∧ t.status = ⟨true, false, false⟩ ∧ t.mem = s.mem ∧
      t.level = s.level ∧ t.errcode = s.errcode ∧ t.errinfo = s.errinfo ∧ t.prev = s.prev ∧ SameHost s t)

/-- R173, the refusal to accept: in BUSY and in ERROR a command byte other than 0xFF is ignored without trace. -/
def Obligations.CommandsIgnoredInBusyAndError : Prop :=
  ∀ (s : State) (v : Byte), (s.status.busy = true ∨ s.status.err = true) → v ≠ 0xFF → memWrite 0x110 v s = .next s

/-! ### NOP and SRST -/

/-- R170: NOP changes nothing, in every state, both as a command and as the CMD write. -/
def Obligations.NopChangesNothing : Prop :=
  ∀ s : State, exec .nop s = .next s ∧ memWrite 0x110 0x00 s = .next s

/-- R171, R33: SRST answers the reset state, in every state: STATUS 0x00, LEVEL 16, ERRCODE, ERRINFO 0x00, OP NONE,
PREV 0, 0, 0. Nothing is said of a byte of TILE or of REC: each is unspecified. The host keeps its list and its
replies (the model's own fields, log entry 20). -/
def Obligations.SrstResetsEverything : Prop :=
  ∀ s : State, ∃ t, exec .srst s = .next t ∧ memWrite 0x110 0xFF s = .next t ∧
    t.status = ⟨false, false, false⟩ ∧ t.level = 16 ∧ t.errcode = 0x00 ∧ t.errinfo = 0x00 ∧ t.op = .none ∧
    t.prev = ⟨0, 0, 0⟩ ∧ t.mem.wf ∧ SameHost s t

/-- The model's form of "unspecified" (log entries 2 and 6; the spec's U2 and U3 ask for a draw): after a reset each
byte of both buffers, and after a PackingOverflow each byte of REC, is the free byte of a draw not made before. -/
def Obligations.UnspecifiedBytesAreFreeDraws : Prop :=
  ∀ s : State, s.mem.wf →
    (∃ t, exec .srst s = .next t ∧ (∀ i < 192, t.tileByte i = Config.freeByte s.draws i) ∧
      (∀ j < 75, t.recByte j = Config.freeByte s.draws (0x0C0 + j)) ∧ t.draws = s.draws + 1) ∧
    (∀ t, exec .enc s = .next t → t.status.done = false →
      (∀ j < 75, t.recByte j = Config.freeByte s.draws (0x0C0 + j)) ∧ t.draws = s.draws + 1)

/-- R220: the hardware reset and SRST have the identical effect; and what they leave agrees with the state right after
reset in every register. -/
def Obligations.BothResetsAgree : Prop :=
  ∀ s : State, ∃ t, serve .hardReset s = .next t ∧ serve (.write 0x110 0xFF) s = .next t ∧
    t.status = State.reset.status ∧ t.level = State.reset.level ∧ t.errcode = State.reset.errcode ∧
    t.errinfo = State.reset.errinfo ∧ t.op = State.reset.op ∧ t.prev = State.reset.prev

/-! ### ENC -/

/-- R150 on success: when every packed sum fits a byte, ENC completes, and REC holds the stats, the flags, the corner
sums and the grid sums, each in closed form from the bytes of TILE: a flagged channel's code is that of the blend of the
unquantised samples of pixels 0, 7, 56 and 63, an unflagged channel's that of the pixel's own sample. TILE, LEVEL and the error registers are unchanged. (What PREV holds
afterwards is the model's, log entry 7.) -/
def Obligations.EncWritesTheRecord : Prop :=
  ∀ s : State, s.mem.wf → (∀ j, 7 ≤ j → j ≤ 74 → FitsByte (packedSum s.tileByte s.levelNat j)) →
    ∃ t, exec .enc s = .next t ∧
      t.status = ⟨false, true, s.status.err⟩ ∧ t.op = .none ∧
      (∀ c, (recordMax t.recByte c : Int) = sourceMax s.tileByte c ∧ (recordMin t.recByte c : Int) = sourceMin s.tileByte c) ∧
      (∀ c, recordFlag t.recByte c = sourceFlag s.tileByte s.levelNat c) ∧ (t.recByte 6).toNat ≤ 7 ∧
      (∀ j, 7 ≤ j → j ≤ 74 → ((t.recByte j).toNat : Int) = packedSum s.tileByte s.levelNat j) ∧
      t.prev = sourceCodes s.tileByte s.levelNat 63 ∧
      SameTile s t ∧ t.mem.wf ∧ t.level = s.level ∧ t.errcode = s.errcode ∧ t.errinfo = s.errinfo ∧
      t.draws = s.draws ∧ SameHost s t

/-- R152: when packed byte `j` is the first whose sum does not fit, ENC ends in the error state with PackingOverflow
and that index; TILE and LEVEL are unchanged. Nothing is said of a byte of REC: each is unspecified. -/
def Obligations.EncOverflowReportsTheFirstByte : Prop :=
  ∀ (s : State) (j : Nat), s.mem.wf → 7 ≤ j → j ≤ 74 → ¬ FitsByte (packedSum s.tileByte s.levelNat j) →
    (∀ i, 7 ≤ i → i < j → FitsByte (packedSum s.tileByte s.levelNat i)) →
    ∃ t, exec .enc s = .next t ∧ t.status = ⟨false, false, true⟩ ∧ t.op = .none ∧
      t.errcode = 0x01 ∧ t.errinfo.toNat = j ∧
      SameTile s t ∧ t.mem.wf ∧ t.level = s.level ∧ SameHost s t

/-- The frame and the outcomes of ENC in every state, canonical memory or not: it always answers a next state, BUSY
is clear, OP is NONE, and either DONE is set and the error registers are as before, or the error is PackingOverflow.
TILE, LEVEL and what is the host's never change. -/
def Obligations.EncAlwaysEnds : Prop :=
  ∀ s : State, ∃ t, exec .enc s = .next t ∧ t.status.busy = false ∧ t.op = .none ∧ SameTile s t ∧ t.level = s.level ∧
    SameHost s t ∧
    ((t.status.done = true ∧ t.status.err = s.status.err ∧ t.errcode = s.errcode ∧ t.errinfo = s.errinfo) ∨
      (t.status.done = false ∧ t.status.err = true ∧ t.errcode = 0x01 ∧ 7 ≤ t.errinfo.toNat ∧ t.errinfo.toNat ≤ 74))

/-- R150 (f): the outcome of ENC depends on TILE and LEVEL only. -/
def Obligations.EncDependsOnTileAndLevel : Prop :=
  ∀ s s' : State, s.mem.wf → s'.mem.wf → SameTile s s' → s'.level = s.level →
    ∃ t t', exec .enc s = .next t ∧ exec .enc s' = .next t' ∧ t'.status.done = t.status.done ∧
      (t.status.done = true → SameRecord t t') ∧
      (t.status.done = false → t'.errcode = t.errcode ∧ t'.errinfo = t.errinfo)

/-- R154 (b): LEVEL never changes the stat bytes. -/
def Obligations.LevelLeavesTheStatsAlone : Prop :=
  ∀ (tile : Nat → Byte) (level level' : Nat) (r r' : List Byte),
    (encodeBlock tile level).2 = .ok r → (encodeBlock tile level').2 = .ok r' →
    r.length = 75 ∧ r'.length = 75 ∧ r.take 6 = r'.take 6

/-- R24, R150 corner case (b): LEVEL values of 511 and above behave alike, and flag every channel. -/
def Obligations.LevelsFrom511BehaveAlike : Prop :=
  ∀ (tile : Nat → Byte) (level : Nat), 511 ≤ level →
    encodeBlock tile level = encodeBlock tile 511 ∧ tileFlags tile level = ⟨true, true, true⟩

/-- R201, R125, C6: PackingOverflow is reachable from legal pixels, through a grid byte, at both ends of the check:
ENC of some TILE and LEVEL raises it at a grid byte whose sum is above 255, and ENC of some other at one whose sum is
below 0. -/
def Obligations.GridOverflowIsReachable : Prop :=
  (∃ (s t : State) (j : Nat), s.mem.wf ∧ 11 ≤ j ∧ j ≤ 74 ∧ 255 < packedSum s.tileByte s.levelNat j ∧
    exec .enc s = .next t ∧ t.status = ⟨false, false, true⟩ ∧ t.errcode = 0x01 ∧ t.errinfo.toNat = j) ∧
  (∃ (s t : State) (j : Nat), s.mem.wf ∧ 11 ≤ j ∧ j ≤ 74 ∧ packedSum s.tileByte s.levelNat j < 0 ∧
    exec .enc s = .next t ∧ t.status = ⟨false, false, true⟩ ∧ t.errcode = 0x01 ∧ t.errinfo.toNat = j)

/-- R142, U14: the corner check never fires: for every tile and every level each of the four corner sums fits a byte. -/
def Obligations.CornerBytesNeverOverflow : Prop :=
  ∀ (tile : Nat → Byte) (level k : Nat), k < 4 → FitsByte (packedSum tile level (7 + k))

/-- R150 corner case (c): a flat grey tile encodes, at every LEVEL, to `n, n, 80, 80, 80, 80, f` and 68 zero bytes,
where `f` is 7 when LEVEL ≥ 1 and 0 when LEVEL is 0; and DEC of that record gives the tile back exactly. -/
def Obligations.FlatGreyTileIsExact : Prop :=
  ∀ (s : State) (n : Byte), s.mem.wf → (∀ i < 192, s.tileByte i = n) →
    ∃ t u, exec .enc s = .next t ∧ t.status.done = true ∧
      (∀ j < 75, t.recByte j = if j < 2 then n else if j < 6 then 0x80 else if j = 6 then (if s.level = 0 then 0 else 7) else 0) ∧
      exec .dec t = .next u ∧ u.status.done = true ∧ ∀ i < 192, u.tileByte i = n

/-! ### DEC -/

/-- R151 on success: when the record is valid, DEC completes, and each pixel of TILE is the clamped and floored RGB of
its sample, written out from the bytes of REC: the blend of the values of the four corner codes in flagged channels, the
value of the code the delta chain gives in the others. REC, LEVEL and the
error registers are unchanged. (What PREV holds afterwards is the model's, log entry 7.) -/
def Obligations.DecWritesTheTile : Prop :=
  ∀ s : State, s.mem.wf → ValidRecord s.recByte →
    ∃ t, exec .dec s = .next t ∧ t.status = ⟨false, true, s.status.err⟩ ∧ t.op = .none ∧
      (∀ p < 64,
        let rgb := yuvToRgb ⟨decodedSample s.recByte p .y, decodedSample s.recByte p .u, decodedSample s.recByte p .v⟩
        ((t.tileByte (3 * p)).toNat : Int) = toU8 rgb.r ∧ ((t.tileByte (3 * p + 1)).toNat : Int) = toU8 rgb.g ∧
          ((t.tileByte (3 * p + 2)).toNat : Int) = toU8 rgb.b) ∧
      t.prev = decodedCodes s.recByte 63 ∧
      SameRecord s t ∧ t.mem.wf ∧ t.level = s.level ∧ t.errcode = s.errcode ∧ t.errinfo = s.errinfo ∧
      t.draws = s.draws ∧ SameHost s t

/-- R153: the first failing check, in the order Y pair, U pair, V pair, flags byte, ends DEC in the error state with
FormatError and its index; TILE and REC are unchanged. -/
def Obligations.DecRejectsTheFirstBadField : Prop :=
  ∀ s : State, ¬ ValidRecord s.recByte →
    ∃ t, exec .dec s = .next t ∧ t.status = ⟨false, false, true⟩ ∧ t.op = .none ∧ t.errcode = 0x02 ∧
      t.errinfo =
        (if (s.recByte 0).toNat < (s.recByte 1).toNat then 0
        else if (s.recByte 2).toNat < (s.recByte 3).toNat then 2
        else if (s.recByte 4).toNat < (s.recByte 5).toNat then 4 else 6) ∧
      t.mem = s.mem ∧ t.level = s.level ∧ t.draws = s.draws ∧ SameHost s t

/-- R151 corner cases (b) and (e), D31: TILE does not depend on the corner fields of unflagged channels nor on the
grid fields of flagged channels: two valid records that agree on the stats, the flags byte, the corner fields of
flagged channels and the grid fields of unflagged channels decode to the same TILE. -/
def Obligations.DecIgnoresUnusedFields : Prop :=
  ∀ s s' : State, s.mem.wf → s'.mem.wf → ValidRecord s.recByte → (∀ j < 7, s'.recByte j = s.recByte j) →
    (∀ c, recordFlag s.recByte c = true → ∀ k < 4,
      packedField (s'.recByte (7 + k)) c = packedField (s.recByte (7 + k)) c) →
    (∀ c, recordFlag s.recByte c = false → ∀ p < 64,
      packedField (s'.recByte (11 + p)) c = packedField (s.recByte (11 + p)) c) →
    ∃ t t', exec .dec s = .next t ∧ exec .dec s' = .next t' ∧ t.status.done = true ∧ t'.status.done = true ∧ SameTile t t'

/-- R154 (a): every record ENC writes passes DEC's validation, so DEC right after a completed ENC completes. -/
def Obligations.EncRecordsAlwaysDecode : Prop :=
  ∀ s t : State, s.mem.wf → exec .enc s = .next t → t.status.done = true →
    ValidRecord t.recByte ∧ ∃ u, exec .dec t = .next u ∧ u.status.done = true ∧ SameRecord t u

/-- R154 (c): when the U and V codes of the tile are nominal at every position (Y codes always are), ENC completes, and
every code of every channel is recovered, within one quantisation step in the unflagged ones. A completed ENC whose V
codes alone are nominal still has every V code recovered: no carry reaches the lowest field. -/
def Obligations.NominalCodesAreRecovered : Prop :=
  ∀ s : State, s.mem.wf →
    ((∀ p < 64, ∀ c, c ≠ .y → 0 ≤ sourceCode s.tileByte s.levelNat p c ∧ sourceCode s.tileByte s.levelNat p c ≤ 3) →
      ∃ t, exec .enc s = .next t ∧ t.status.done = true ∧ ∀ c, Recovered s t c) ∧
    (∀ t, exec .enc s = .next t → t.status.done = true →
      (∀ p < 64, 0 ≤ sourceCode s.tileByte s.levelNat p .v ∧ sourceCode s.tileByte s.levelNat p .v ≤ 3) →
      Recovered s t .v)

/-! ### The invariant and the rules over every step -/

/-- The state right after reset meets the invariant (R33). -/
def Obligations.ResetMeetsTheInvariant : Prop :=
  Inv State.reset

/-- Every step keeps the invariant: the buffers in canonical form, STATUS one of four values, OP set exactly while
BUSY, the error registers zero or one of the errors of R200 with a detail of R75, PREV within the codes' bounds. -/
def Obligations.StepKeepsTheInvariant : Prop :=
  ∀ s t : State, Inv s → step s = .next t → Inv t

/-- R204, R206, R173: once ERR is set, a step either serves a reset, after which nothing of the error is left, or
keeps STATUS, ERRCODE, ERRINFO and OP as they are. -/
def Obligations.ErrorsAreStickyUntilReset : Prop :=
  ∀ s t : State, StatusLegal s → s.status.err = true → step s = .next t →
    (∃ a rest, s.script = a :: rest ∧ IsReset a ∧ t.status = ⟨false, false, false⟩ ∧ t.errcode = 0x00 ∧
      t.errinfo = 0x00 ∧ t.level = 16 ∧ t.op = .none) ∨
    (t.status = s.status ∧ t.errcode = s.errcode ∧ t.errinfo = s.errinfo ∧ t.op = s.op)

/-- R173's table of transitions: between two steps STATUS stays, or it goes to IDLE by a reset, from IDLE or DONE to
BUSY by a CMD write of 0x01 or 0x02, from IDLE or DONE to ERROR by a CMD write of 0x03 to 0xFE, or from BUSY to DONE
or ERROR by the engine's own step. -/
def Obligations.OnlyTheseStatusTransitions : Prop :=
  ∀ s t : State, StatusLegal s → step s = .next t →
    t.status = s.status ∨
    (t.status = .idle ∧ ∃ a rest, s.script = a :: rest ∧ IsReset a) ∨
    ((s.status = .idle ∨ s.status = .finished) ∧ t.status = .running ∧
      ∃ v rest, s.script = .write 0x110 v :: rest ∧ (v = 0x01 ∨ v = 0x02)) ∨
    ((s.status = .idle ∨ s.status = .finished) ∧ t.status = .failed ∧
      ∃ v rest, s.script = .write 0x110 v :: rest ∧ 0x03 ≤ v.toNat ∧ v.toNat ≤ 0xFE) ∨
    (s.status = .running ∧ engineMoves s = true ∧ (t.status = .finished ∨ t.status = .failed))

/-- R54, R59 (a) and (b), R224 (e): whatever the host does while a command is in flight, short of a reset, the command
sees TILE, REC and LEVEL as they were: any list of accesses served meanwhile leaves the buffers, LEVEL, STATUS, OP
and the error registers as they are. -/
def Obligations.CommandInFlightIsUndisturbed : Prop :=
  ∀ (acts : List HostAction) (s t : State), s.status.busy = true → (∀ a ∈ acts, ¬ IsReset a) →
    serveAll acts s = .next t → SameEngine s t

/-- R174: an accepted command ends. From every state of the invariant with BUSY set, whatever the host still has to
do, as long as its accesses are to the engine, some number of steps, at most one more than the free delay, leads to a
state with BUSY clear. (The delay as a count of host actions is the model's choice, log entry 4; the statement holds
for every value of it.) -/
def Obligations.BusyAlwaysEnds : Prop :=
  ∀ s : State, Inv s → s.status.busy = true → scriptWf s.script = true →
    ∃ n t, n ≤ s.delay + 1 ∧ Sys2Proof.core.run n s = .next t ∧ t.status.busy = false

/-- R223, R174: a `WAIT` that follows an accepted ENC or DEC ends, and the value it read last is 0x02 or 0x04. -/
def Obligations.WaitReturnsDoneOrError : Prop :=
  ∀ (s : State) (rest : List HostAction), Inv s → s.status.busy = true → s.script = .wait :: rest →
    ∃ n t v more, Sys2Proof.core.run n s = .next t ∧ t.script = rest ∧ t.replies = (0x111, v) :: more ∧
      (v = 0x02 ∨ v = 0x04)

/-- No step of the invariant's states stops unless the host's next access is to an offset the engine does not have. -/
def Obligations.StepsAreSafe : Prop :=
  ∀ s : State, Inv s → scriptWf s.script = true → ∃ t, step s = .next t

/-! ### The port -/

/-- R52: what a read of each offset returns, and that no read changes any state of the engine. (While BUSY the byte of
a buffer read is free and is not stated.) -/
def Obligations.ReadsReturnTheMap : Prop :=
  ∀ (s : State) (a : Nat), a < 0x200 → ∃ v t, memRead a s = .next (v, t) ∧ SameEngine s t ∧ SameHost s t ∧
    (∀ i < 192, a = i → s.status.busy = false → v = s.tileByte i) ∧
    (∀ j < 75, a = 0x0C0 + j → s.status.busy = false → v = s.recByte j) ∧
    (a = 0x110 → v = 0x00) ∧
    (a = 0x111 → v.toNat = 4 * s.status.err.toNat + 2 * s.status.done.toNat + s.status.busy.toNat) ∧
    (a = 0x112 → v.toNat = s.level.toNat / 256) ∧
    (a = 0x113 → v.toNat = s.level.toNat % 256) ∧
    (a = 0x114 → v = s.errcode) ∧
    (a = 0x115 → v = s.errinfo) ∧
    ((0x10B ≤ a ∧ a ≤ 0x10F) ∨ 0x116 ≤ a → v = 0x00)

/-- R53: what a write does at each offset, in both cases of BUSY. At CMD it is the command issue, in every state;
everywhere it completes. -/
def Obligations.WritesFollowTheMap : Prop :=
  (∀ (s : State) (v : Byte), memWrite 0x110 v s = issueCommand v s ∧ ∃ t, memWrite 0x110 v s = .next t) ∧
  ∀ (s : State) (a : Nat) (v : Byte), s.mem.wf → a < 0x200 → a ≠ 0x110 →
    ∃ t, memWrite a v s = .next t ∧
      (s.status.busy = true → t = s) ∧
      (s.status.busy = false → t.status = s.status ∧ t.errcode = s.errcode ∧ t.errinfo = s.errinfo ∧ t.op = s.op ∧
        t.prev = s.prev ∧ t.draws = s.draws ∧ SameHost s t ∧
        (∀ i < 192, t.tileByte i = if a = i then v else s.tileByte i) ∧
        (∀ j < 75, t.recByte j = if a = 0x0C0 + j then v else s.recByte j) ∧
        t.level.toNat = (if a = 0x112 then 256 * v.toNat + s.level.toNat % 256
          else if a = 0x113 then s.level.toNat / 256 * 256 + v.toNat else s.level.toNat))

/-- R58: reserved offsets read as 0x00 and ignore writes, in every state. -/
def Obligations.ReservedOffsetsReadZeroAndIgnoreWrites : Prop :=
  ∀ (s : State) (a : Nat) (v : Byte), (0x10B ≤ a ∧ a ≤ 0x10F) ∨ (0x116 ≤ a ∧ a ≤ 0x1FF) →
    memRead a s = .next (0x00, s) ∧ memWrite a v s = .next s

/-- R53, R52, R59 (c): a byte written to a buffer while not BUSY is the byte read next, as often as it is read. -/
def Obligations.WrittenBytesReadBack : Prop :=
  ∀ (s : State) (a : Nat) (v : Byte), s.mem.wf → s.status.busy = false → a < 267 →
    ∃ t, memWrite a v s = .next t ∧ memRead a t = .next (v, t)

/-- R55, R56, R73: LEVEL_HI and LEVEL_LO are two bytes written apart, the first the more significant; between the two
writes LEVEL is mixed. -/
def Obligations.LevelIsBigEndian : Prop :=
  ∀ (s : State) (hi lo : Byte), s.status.busy = false →
    ∃ t u, memWrite 0x112 hi s = .next t ∧ t.level.toNat = 256 * hi.toNat + s.level.toNat % 256 ∧
      memWrite 0x113 lo t = .next u ∧ u.level.toNat = 256 * hi.toNat + lo.toNat

/-- R51, U7 (log entry 8, the model's choice): an access at or above offset 0x200 is refused by name. -/
def Obligations.OffsetsOutsideAreRefused : Prop :=
  ∀ (s : State) (a : Nat) (v : Byte), 0x200 ≤ a →
    memRead a s = .refused (.offsetOutsideEngine a) ∧ memWrite a v s = .refused (.offsetOutsideEngine a)

/-- R23, R72: STATUS reads as one of 0x00, 0x01, 0x02, 0x04. -/
def Obligations.StatusReadsOneOfFour : Prop :=
  ∀ s : State, StatusLegal s →
    s.status.toByte = 0x00 ∨ s.status.toByte = 0x01 ∨ s.status.toByte = 0x02 ∨ s.status.toByte = 0x04

/-! ### Errors -/

/-- R71, R172, R203: a reserved command byte written in IDLE or DONE raises IllegalCommand within the write, with the
byte as its detail; written in BUSY or in ERROR it is ignored. -/
def Obligations.ReservedCommandRaisesIllegalCommand : Prop :=
  ∀ (s : State) (v : Byte), 0x03 ≤ v.toNat → v.toNat ≤ 0xFE →
    (s.status.busy = false → s.status.err = false →
      ∃ t, memWrite 0x110 v s = .next t ∧ t.status = ⟨false, false, true⟩ ∧ t.errcode = 0x03 ∧ t.errinfo = v ∧
        t.op = .none ∧ t.mem = s.mem ∧ t.level = s.level ∧ t.prev = s.prev ∧ t.draws = s.draws ∧ SameHost s t) ∧
    ((s.status.busy = true ∨ s.status.err = true) → memWrite 0x110 v s = .next s)

/-- R205: what raising an error does, for each of the three errors. PackingOverflow leaves REC unspecified: nothing is
said of its bytes. (That PREV is left alone is the model's choice, log entry 7: R152 calls it immaterial after
PackingOverflow.) -/
def Obligations.RaisingAnError : Prop :=
  ∀ (s : State) (e : EngineError),
    let t := s.raise e
    t.status = ⟨false, false, true⟩ ∧ t.op = .none ∧ t.level = s.level ∧ t.prev = s.prev ∧ SameTile s t ∧ SameHost s t ∧
    (∀ j, e = .packingOverflow j → j < 256 → t.errcode = 0x01 ∧ t.errinfo.toNat = j) ∧
    (∀ j, e = .formatError j → j < 256 → t.errcode = 0x02 ∧ t.errinfo.toNat = j ∧ SameRecord s t) ∧
    (∀ v, e = .illegalCommand v → t.errcode = 0x03 ∧ t.errinfo = v ∧ SameRecord s t)

/-! ### The function units -/

/-- R105: the bounds of the samples of every 8-bit colour, where they are met, and exactly which colours have U or V
above 255, with their values. -/
def Obligations.SampleBounds : Prop :=
  ((rgbToYuv 255 255 0).u = 1 / 2 ∧ (rgbToYuv 0 0 255).u = 511 / 2 ∧ (rgbToYuv 0 255 255).v = 1 / 2 ∧
    (rgbToYuv 255 0 0).v = 511 / 2) ∧
  ((rgbToYuv 1 0 255).u = 255331 / 1000 ∧ (rgbToYuv 0 1 255).u = 255169 / 1000 ∧ (rgbToYuv 2 0 255).u = 255162 / 1000) ∧
  ((rgbToYuv 255 0 1).v = 255419 / 1000 ∧ (rgbToYuv 255 0 2).v = 255338 / 1000 ∧ (rgbToYuv 255 0 3).v = 255257 / 1000 ∧
    (rgbToYuv 255 0 4).v = 255176 / 1000 ∧ (rgbToYuv 255 0 5).v = 255095 / 1000 ∧
    (rgbToYuv 255 0 6).v = 255014 / 1000 ∧ (rgbToYuv 255 1 0).v = 255081 / 1000) ∧
  ∀ r g b : Nat, r ≤ 255 → g ≤ 255 → b ≤ 255 →
    let s := rgbToYuv r g b
    (0 ≤ s.y ∧ s.y ≤ 255) ∧ (1 / 2 ≤ s.u ∧ s.u ≤ 511 / 2) ∧ (1 / 2 ≤ s.v ∧ s.v ≤ 511 / 2) ∧
    (s.y = 0 ↔ r = 0 ∧ g = 0 ∧ b = 0) ∧ (s.y = 255 ↔ r = 255 ∧ g = 255 ∧ b = 255) ∧
    (255 < s.u ↔ (r, g, b) ∈ [(0, 0, 255), (1, 0, 255), (0, 1, 255), (2, 0, 255)]) ∧
    (255 < s.v ↔ (r, g, b) ∈ [(255, 0, 0), (255, 0, 1), (255, 0, 2), (255, 0, 3), (255, 0, 4), (255, 0, 5),
      (255, 0, 6), (255, 1, 0)])

/-- R104: the integer forms of the transform, of the floor and the ceiling of a sample, and of `to_u8` of a fraction. -/
def Obligations.IntegerFormsOfTheTransform : Prop :=
  (∀ r g b : Nat, r ≤ 255 → g ≤ 255 → b ≤ 255 →
    ∃ y u v : Nat, (y : Int) = 299 * r + 587 * g + 114 * b ∧ (u : Int) = -169 * r - 331 * g + 500 * b + 128000 ∧
      (v : Int) = 500 * r - 419 * g - 81 * b + 128000 ∧ y < 2 ^ 18 ∧ u < 2 ^ 18 ∧ v < 2 ^ 18 ∧
      rgbToYuv r g b = ⟨y / 1000, u / 1000, v / 1000⟩ ∧
      (rgbToYuv r g b).y.floor = y / 1000 ∧ (rgbToYuv r g b).y.ceil = (y + 999) / 1000 ∧
      (rgbToYuv r g b).u.floor = u / 1000 ∧ (rgbToYuv r g b).u.ceil = (u + 999) / 1000 ∧
      (rgbToYuv r g b).v.floor = v / 1000 ∧ (rgbToYuv r g b).v.ceil = (v + 999) / 1000) ∧
  (∀ ny nu nv d : Int, 0 < d →
    yuvToRgb ⟨ny / d, nu / d, nv / d⟩ =
      ⟨(1000 * ny + 1402 * (nv - 128 * d)) / (1000 * d),
        (1000 * ny - 344 * (nu - 128 * d) - 714 * (nv - 128 * d)) / (1000 * d),
        (1000 * ny + 1772 * (nu - 128 * d)) / (1000 * d)⟩) ∧
  (∀ n m : Int, 0 < m →
    toU8 ((n : Rat) / m) = if n ≤ 0 then 0 else if 255 * m ≤ n then 255 else n / m)

/-- R102, R103: the clamp and the conversion to a byte: the result is 0 to 255, it is the floor where nothing is
clamped, and the clamp is at 0 and at 255. -/
def Obligations.OutputConversion : Prop :=
  ∀ v : Rat, (0 ≤ clamp255 v ∧ clamp255 v ≤ 255) ∧ (v < 0 → clamp255 v = 0 ∧ toU8 v = 0) ∧
    (255 < v → clamp255 v = 255 ∧ toU8 v = 255) ∧
    (0 ≤ v → v ≤ 255 → clamp255 v = v ∧ (toU8 v : Rat) ≤ v ∧ v < toU8 v + 1) ∧ 0 ≤ toU8 v ∧ toU8 v ≤ 255

/-- R110, R111, R112, R113: the stats of every tile: `min` is the floor of the least sample, `max` the ceiling of the
greatest with 256 clamped to 255; the range is 0 to 255; every sample is at least `min`, and at most `max` unless the
greatest sample is above 255. -/
def Obligations.StatsOfATile : Prop :=
  ∀ (tile : Nat → Byte) (c : Channel),
    let st := (tileStats tile).get c
    let sample := fun p => sourceSample tile p c
    (∃ p < 64, (∀ q < 64, sample p ≤ sample q) ∧ st.min = (sample p).floor) ∧
    (∃ p < 64, (∀ q < 64, sample q ≤ sample p) ∧ st.max = (if (sample p).ceil = 256 then 255 else (sample p).ceil) ∧
      (sample p ≤ 255 → ∀ q < 64, sample q ≤ st.max)) ∧
    (0 ≤ st.min ∧ st.min ≤ st.max ∧ st.max ≤ 255) ∧ (0 ≤ st.range ∧ st.range ≤ 255) ∧
    ∀ q < 64, (st.min : Rat) ≤ sample q ∧ sample q ≤ st.max + 1 / 2

/-- R112, a corner case the rule claims: the Y range of a tile is 255 exactly when the tile holds both black and
white. (The ceiling and the floor make it false: (1,0,0) has Y 0.299 and (255,255,254) has Y 254.886.) -/
def Obligations.RangeOf255NeedsBlackAndWhite : Prop :=
  ∀ tile : Nat → Byte, (tileRanges tile).y = 255 ↔
    (∃ p < 64, tile (3 * p) = 0 ∧ tile (3 * p + 1) = 0 ∧ tile (3 * p + 2) = 0) ∧
    (∃ p < 64, tile (3 * p) = 255 ∧ tile (3 * p + 1) = 255 ∧ tile (3 * p + 2) = 255)

/-- R124: each flag is decided by its own channel's range; with LEVEL 0 none is set, from 256 on U and V are, from 511
on all three are, for every range a tile has. -/
def Obligations.InterpFlagThresholds : Prop :=
  ∀ (level : Nat) (range : Triple Int),
    ((interpFlags level range).y = true ↔ 2 * range.y < level) ∧
    ((interpFlags level range).u = true ↔ range.u < level) ∧
    ((interpFlags level range).v = true ↔ range.v < level) ∧
    ((∀ c, 0 ≤ range.get c ∧ range.get c ≤ 255) →
      (level = 0 → interpFlags level range = ⟨false, false, false⟩) ∧
      (level = 1 → ∀ c, (interpFlags level range).get c = true ↔ range.get c = 0) ∧
      (256 ≤ level → (interpFlags level range).u = true ∧ (interpFlags level range).v = true) ∧
      (511 ≤ level → interpFlags level range = ⟨true, true, true⟩))

/-- R127: the integer form of `quant`. -/
def Obligations.IntegerFormOfQuant : Prop :=
  ∀ (n d : Int) (st : Stat), 0 < d → 0 < st.range → st.min * d ≤ n →
    quant .y (n / d) st = ((n - st.min * d) * 159) / (10 * d * st.range) ∧
    quant .u (n / d) st = ((n - st.min * d) * 39) / (10 * d * st.range) ∧
    quant .v (n / d) st = ((n - st.min * d) * 39) / (10 * d * st.range)

/-- R126: the laws (a) to (d) of the quantiser. -/
def Obligations.QuantiserLaws : Prop :=
  ∀ (c : Channel) (st : Stat), st.min ≤ st.max →
    (∀ v1 v2 : Rat, v1 ≤ v2 → quant c v1 st ≤ quant c v2 st) ∧
    (∀ v : Rat, st.min ≤ v → v ≤ st.max → 0 < st.range →
      |dequant c (quant c v st) st - v| < st.range / dequantDivisor c ∧
      -(st.range / quantScale c) < dequant c (quant c v st) st - v ∧
      dequant c (quant c v st) st - v ≤ quant c v st * st.range * (1 / dequantDivisor c - 1 / quantScale c) ∧
      dequant c (quant c v st) st - v ≤ 9 / 10 * st.range / quantScale c) ∧
    (∀ q1 q2 : Int, q1 ≤ q2 → dequant c q1 st ≤ dequant c q2 st) ∧
    dequant c 0 st = st.min ∧ (∀ q : Int, (q : Rat) = dequantDivisor c → dequant c q st = st.max) ∧
    (st.range = 0 → ∀ (v : Rat) (q : Int), quant c v st = 0 ∧ dequant c q st = st.min)

/-- R125, R121, R122: on encode a Y code is 0 to 15 and a U or V code 0 to 5, at every pixel, at every level; a U or V
code above 3 comes only with a sample above 255 and a minimum of 236 to 254. -/
def Obligations.EncodeCodeBounds : Prop :=
  ∀ (tile : Nat → Byte) (level p : Nat), p < 64 →
    let q := sourceCodes tile level p
    (0 ≤ q.y ∧ q.y ≤ 15) ∧ (0 ≤ q.u ∧ q.u ≤ 5) ∧ (0 ≤ q.v ∧ q.v ≤ 5) ∧
    (3 < q.u → (∃ i < 64, 255 < sourceSample tile i .u) ∧ 236 ≤ sourceMin tile .u ∧ sourceMin tile .u ≤ 254) ∧
    (3 < q.v → (∃ i < 64, 255 < sourceSample tile i .v) ∧ 236 ≤ sourceMin tile .v ∧ sourceMin tile .v ≤ 254)

/-- R135 (a), (b), R133: on nominal codes the delta coder is invertible: the deltas are nominal, they pack, the byte
unpacks to them, and decoding them gives the codes back. -/
def Obligations.DeltaCoderIsInvertible : Prop :=
  ∀ (p : Nat) (prev curr : Triple Int), Nominal prev → Nominal curr →
    Nominal (deltaEnc3 prev curr) ∧
    ∃ b, packGrid p (deltaEnc3 prev curr) = .ok b ∧ unpack3 b = deltaEnc3 prev curr ∧
      deltaDec3 prev (unpack3 b) = curr

/-- R132, R142: packing answers the byte of the arithmetic sum exactly when the sum is 0 to 255, and otherwise raises
PackingOverflow with the REC index of the byte. -/
def Obligations.PackingChecksBothEnds : Prop :=
  ∀ (d : Triple Int) (p k : Nat),
    (FitsByte ((d.y * 4 + d.u) * 4 + d.v) → ∃ b, packGrid p d = .ok b ∧ (b.toNat : Int) = 16 * d.y + 4 * d.u + d.v) ∧
    (¬ FitsByte ((d.y * 4 + d.u) * 4 + d.v) → packGrid p d = .error (.packingOverflow (11 + p))) ∧
    (FitsByte (d.y * 16 + d.u * 4 + d.v) → ∃ b, packCorner k d = .ok b ∧ (b.toNat : Int) = d.y * 16 + d.u * 4 + d.v) ∧
    (¬ FitsByte (d.y * 16 + d.u * 4 + d.v) → packCorner k d = .error (.packingOverflow (7 + k)))

/-- R146: the laws (a) to (c) of `bilerp`: exact at the corners; a convex combination, so between the least and the
greatest corner, and on encode between two source samples of the tile, normalising between them too; linear. -/
def Obligations.BilerpLaws : Prop :=
  (∀ (cs : Corners Rat) (x y : Nat), x ≤ 7 → y ≤ 7 →
    ∃ w0 w1 w2 w3 : Rat, w0 = (7 - x) * (7 - y) / 49 ∧ w1 = x * (7 - y) / 49 ∧ w2 = (7 - x) * y / 49 ∧
      w3 = x * y / 49 ∧ 0 ≤ w0 ∧ 0 ≤ w1 ∧ 0 ≤ w2 ∧ 0 ≤ w3 ∧ w0 + w1 + w2 + w3 = 1 ∧
      bilerp cs x y = w0 * cs.tl + w1 * cs.tr + w2 * cs.bl + w3 * cs.br) ∧
  (∀ (tile : Nat → Byte) (c : Channel) (p : Nat), p < 64 → ∃ i < 64, ∃ j < 64,
    (tileYuv tile i).get c ≤ interpolated (tileCorners tile) c p ∧
      interpolated (tileCorners tile) c p ≤ (tileYuv tile j).get c ∧
      ∀ st : Stat, st.min ≤ st.max → norm ((tileYuv tile i).get c) st ≤ norm (interpolated (tileCorners tile) c p) st ∧
        norm (interpolated (tileCorners tile) c p) st ≤ norm ((tileYuv tile j).get c) st) ∧
  (∀ cs : Corners Rat, bilerp cs 0 0 = cs.tl ∧ bilerp cs 7 0 = cs.tr ∧ bilerp cs 0 7 = cs.bl ∧ bilerp cs 7 7 = cs.br) ∧
  (∀ (cs : Corners Rat) (x y : Nat), x ≤ 7 → y ≤ 7 →
    min (min cs.tl cs.tr) (min cs.bl cs.br) ≤ bilerp cs x y ∧ bilerp cs x y ≤ max (max cs.tl cs.tr) (max cs.bl cs.br)) ∧
  (∀ (a b : Rat) (cs ds : Corners Rat) (x y : Nat),
    bilerp ⟨a * cs.tl + b * ds.tl, a * cs.tr + b * ds.tr, a * cs.bl + b * ds.bl, a * cs.br + b * ds.br⟩ x y
      = a * bilerp cs x y + b * bilerp ds x y)

/-! ### The host's contract, and several engines -/

/-- R185: parsing what serialising a well-formed compressed image produced gives the image back. -/
def Obligations.StreamRoundTrip : Prop :=
  ∀ img : HostImage.CompressedImage, HostImage.WellFormedImage img →
    HostImage.deserialize (HostImage.serialize img) = .ok img

/-- R181: a stream parses only if it begins with the header signature, byte for byte, and has the footer signature
right after its records; any other ends in FormatError. -/
def Obligations.SignaturesAreEnforced : Prop :=
  ∀ stream : List Byte,
    (∃ cause, HostImage.deserialize stream = .error (.formatError cause)) ∨
    (∃ img head extra, HostImage.deserialize stream = .ok img ∧
      stream = Config.headerSig ++ head ++ img.blocks.flatten ++ Config.footerSig ++ extra ∧ head.length = 8)

/-- R183: the tile origins are row-major, and pixel `p` of tile `i` and raster pixel `(x, y)` name each other. -/
def Obligations.TileOriginsAreRowMajor : Prop :=
  ∀ k i p : Nat, 0 < k → p < 64 →
    HostImage.originX (8 * k) i = i % k * 8 ∧ HostImage.originY (8 * k) i = i / k * 8 ∧
    HostImage.rasterElement (8 * k) i p = (i / k * 8 + p / 8) * (8 * k) + (i % k * 8 + p % 8) ∧
    HostImage.rasterElement (8 * k) i p % (8 * k) = i % k * 8 + p % 8 ∧
    HostImage.rasterElement (8 * k) i p / (8 * k) = i / k * 8 + p / 8 ∧
    HostImage.tileIndexAt (8 * k) (i % k * 8 + p % 8) (i / k * 8 + p / 8) = i ∧
    HostImage.placeInTile (i % k * 8 + p % 8) (i / k * 8 + p / 8) = p

/-- R184: padding goes up to the next multiple of 8 in each dimension, keeps every source pixel in its place, makes
every added pixel black, and leaves a raster of padded size alone. -/
def Obligations.PaddingIsBlackOnTheRightAndBottom : Prop :=
  ∀ r : HostImage.Raster, r.pixels.length = r.width * r.height →
    let q := HostImage.pad r
    (q.width % 8 = 0 ∧ r.width ≤ q.width ∧ q.width < r.width + 8) ∧
    (q.height % 8 = 0 ∧ r.height ≤ q.height ∧ q.height < r.height + 8) ∧
    q.pixels.length = q.width * q.height ∧
    (∀ x y, x < q.width → y < q.height → q.pixels[y * q.width + x]? =
      if x < r.width ∧ y < r.height then r.pixels[y * r.width + x]? else some ⟨0, 0, 0⟩) ∧
    (r.width % 8 = 0 → r.height % 8 = 0 → q = r)

/-- R186, R187: a host that drives one engine, not BUSY and not in ERROR, through an image ends after some number of
steps. An encode ends with the result of `encodeImage`: the whole stream, the last tile in TILE, the last record in REC,
STATUS DONE and LEVEL at `min(n, 65535)`. A decode ends with the result of `decodeImage`: the raster, the last record in
REC, the last tile in TILE, STATUS DONE and LEVEL as it was. Where that result is an error, the host has stopped with it,
and after an error of the engine the engine is reset. (What an encode answers for a raster that R182 gives no stream is
the model's choice, log entry 15; the form of the host's program is, log entry 29.) -/
def Obligations.ImageProgramsDriveTheEngine : Prop :=
  ∀ s : State, Inv s → s.status.busy = false → s.status.err = false → s.script = [] →
    (∀ (r : HostImage.Raster) (level : Nat), ∃ n run, HostImage.HostRun.run (.encode r level) n (.start s) = .next run ∧
      match HostImage.encodeImage r level with
      | .ok stream =>
        run.stage = .done ∧ run.stream r = stream ∧ run.engine.status = .finished ∧
        run.engine.levelNat = min level 65535 ∧ run.tile = HostImage.blockCount r.width r.height ∧
        (∀ j < 192, run.engine.tileByte j = (HostImage.tileOf r (run.tile - 1)).getD j 0) ∧
        ∃ record, run.output.getLast? = some record ∧ ∀ j < 75, run.engine.recByte j = record.getD j 0
      | .error e =>
        run.stage = .stopped e ∧ ∀ i e', e = .engine i e' → run.engine.status = .idle ∧ run.engine.levelNat = 16) ∧
    (∀ stream : List Byte, ∃ n run, HostImage.HostRun.run (.decode stream) n (.start s) = .next run ∧
      match HostImage.decodeImage stream with
      | .ok raster =>
        run.stage = .done ∧ run.engine.status = .finished ∧ run.engine.level = s.level ∧
        (∃ h record, HostImage.parseHeader stream = .ok h ∧ run.raster h = raster ∧ run.tile = h.count ∧
          h.record (run.tile - 1) = .ok record ∧ ∀ j < 75, run.engine.recByte j = record.getD j 0) ∧
        ∃ tile, run.output.getLast? = some tile ∧ ∀ j < 192, run.engine.tileByte j = tile.getD j 0
      | .error e =>
        run.stage = .stopped e ∧ ∀ i e', e = .engine i e' → run.engine.status = .idle ∧ run.engine.levelNat = 16)

/-- R209: a step of one engine leaves every other engine as it is. -/
def Obligations.EnginesAreIndependent : Prop :=
  ∀ (engines after : Platform.Engines) (k : Nat), Platform.step k engines = .next after →
    after.length = engines.length ∧ (∀ j, j ≠ k → after[j]? = engines[j]?) ∧
    ∀ s, engines[k]? = some s → ∃ t, step s = .next t ∧ after[k]? = some t

/-- R188: an image over several engines, none BUSY or in ERROR. Whatever the moves are (which tile goes to which engine,
in what order the engines step, which ends first), a filled place `i` holds what one engine makes of tile `i`; an image
that is done has the stream of `encodeImage`, or the raster of `decodeImage`; an image that has failed is one whose result
is an error. And whichever engine each tile is meant for, some moves that give each tile to its engine bring the image to
its end. (The form of the moves is the model's choice, log entry 30.) -/
def Obligations.ImageOverSeveralEngines : Prop :=
  ∀ (job : HostImage.Job) (engines : Platform.Engines),
    (∀ s ∈ engines, Inv s ∧ s.status.busy = false ∧ s.status.err = false ∧ s.script = []) →
    (∀ moves team, Platform.ImageTeam.run job moves (.start job engines) = .next team →
      (∀ r level, job = .encode r level →
        (∀ i record, team.places[i]? = some (some record) →
          HostImage.encodeTileAt r (min level 65535) i = .ok record) ∧
        (team.stage = .done → HostImage.encodeImage r level = .ok (team.stream r)) ∧
        (∀ e, team.stage = .stopped e → ∃ e', HostImage.encodeImage r level = .error e')) ∧
      (∀ stream, job = .decode stream →
        (∀ h i tile, HostImage.parseHeader stream = .ok h → team.places[i]? = some (some tile) →
          HostImage.decodeBlockAt h i = .ok tile) ∧
        (team.stage = .done →
          ∃ h, HostImage.parseHeader stream = .ok h ∧ HostImage.decodeImage stream = .ok (team.raster h)) ∧
        (∀ e, team.stage = .stopped e → ∃ e', HostImage.decodeImage stream = .error e'))) ∧
    (∀ owner : Nat → Nat, (∀ i < job.count, owner i < engines.length) →
      ∃ moves team, Platform.ImageTeam.run job moves (.start job engines) = .next team ∧
        (∀ k i, .give k i ∈ moves → k = owner i) ∧ (team.stage = .done ∨ ∃ e, team.stage = .stopped e))
end

