-- ==== Sys2Proof/Laws/ClosedForm.lean ====
section
/-! SUPPORT. The closed forms of Safety.lean and the functions of the machine, one equation for each pair. -/

namespace Sys2Proof.Machine

@[simp] theorem Triple.get_ofFn {α : Type} (f : Channel → α) (c : Channel) : (Triple.ofFn f).get c = f c := by
  cases c <;> rfl

/-- Two triples with the same components are the same. -/
theorem Triple.ext_get {α : Type} {s t : Triple α} (h : ∀ c, s.get c = t.get c) : s = t := by
  obtain ⟨a, b, c⟩ := s
  obtain ⟨d, e, f⟩ := t
  have hy := h .y; have hu := h .u; have hv := h .v
  simp only [Triple.get] at hy hu hv
  rw [hy, hu, hv]

theorem tileYuv_get (tile : Nat → Byte) (p : Nat) (c : Channel) :
    (tileYuv tile p).get c = sourceSample tile p c := by
  cases c <;> rfl

theorem tileFlags_get (tile : Nat → Byte) (level : Nat) (c : Channel) :
    (tileFlags tile level).get c = sourceFlag tile level c := by
  cases c <;> rfl

theorem quant_tileStats (tile : Nat → Byte) (c : Channel) (v : Rat) :
    quant c v ((tileStats tile).get c) = sourceCodeOf tile c v := by
  unfold quant norm sourceCodeOf sourceMax sourceMin Stat.range
  by_cases h : ((tileStats tile).get c).max = ((tileStats tile).get c).min
  · rw [if_pos (by omega), if_pos h, zero_mul]; rfl
  · rw [if_neg (by omega), if_neg h]
    cases c <;> simp only [quantScale, Int.cast_sub]

/-- The interpolation of R145 is the blend with its four weights. -/
theorem bilerp_eq_blend (f : Nat → Rat) (p : Nat) :
    bilerp ⟨f 0, f 1, f 2, f 3⟩ (pixelX p) (pixelY p) = blend f p := by
  unfold bilerp blend pixelX pixelY
  ring

theorem interpolated_tileCorners (tile : Nat → Byte) (c : Channel) (p : Nat) :
    interpolated (tileCorners tile) c p = blend (fun k => sourceSample tile (cornerPixel k) c) p := by
  rw [← bilerp_eq_blend]
  simp only [interpolated, tileCorners, cornerSamples, Corners.map, tileYuv_get, cornerPixel]

theorem gridCode_get (tile : Nat → Byte) (level p : Nat) (c : Channel) :
    (gridCode tile level p).get c = sourceCode tile level p c := by
  simp only [gridCode, Triple.get_ofFn, tileFlags_get, interpolated_tileCorners, tileYuv_get, quant_tileStats, sourceCode]

theorem gridCode_eq (tile : Nat → Byte) (level p : Nat) : gridCode tile level p = sourceCodes tile level p :=
  Triple.ext_get fun c => by rw [gridCode_get, sourceCodes, Triple.get_ofFn]

theorem cornerCodes_get (tile : Nat → Byte) (level k : Nat) (c : Channel) :
    (cornerCodes (tileYuv tile (cornerPixel k)) (tileStats tile) (tileFlags tile level)).get c =
      sourceCorner tile level k c := by
  simp only [cornerCodes, Triple.get_ofFn, tileFlags_get, tileYuv_get, quant_tileStats, sourceCorner]

theorem unpack3_get (b : Byte) (c : Channel) : (unpack3 b).get c = (packedField b c : Int) := by
  cases c <;> rfl

theorem unpackFlags_get (record : Nat → Byte) (c : Channel) :
    (unpackFlags (record flagsIndex)).get c = recordFlag record c := by
  cases c <;>
    simp [unpackFlags, recordFlag, Triple.get, flagsIndex, BitVec.getLsbD, Nat.testBit, Nat.shiftRight_eq_div_pow,
      Nat.one_and_eq_mod_two]

theorem dequant_recordStats (record : Nat → Byte) (c : Channel) (q : Int) :
    dequant c q ((recordStats record).get c) = recordValue record c q := by
  cases c <;> simp [dequant, recordStats, recordValue, recordMax, recordMin, dequantDivisor, statMinIndex, statMaxIndex,
    channelIndex] <;> ring

theorem interpolated_recordCorners (record : Nat → Byte) (c : Channel) (p : Nat) :
    interpolated (recordCorners record) c p =
      blend (fun k => recordValue record c (packedField (record (7 + k)) c)) p := by
  rw [← bilerp_eq_blend]
  simp only [interpolated, recordCorners, Corners.map, cornerValue, Triple.get_ofFn, unpackCorner, unpack3_get,
    dequant_recordStats, cornerIndex]

/-- The sample of R151, from codes that are the decoded ones. -/
theorem decodeSample_get (record : Nat → Byte) (p : Nat) (c : Channel) :
    (decodeSample record p (decodedCodes record p)).get c = decodedSample record p c := by
  simp only [decodeSample, Triple.get_ofFn, unpackFlags_get, interpolated_recordCorners, dequant_recordStats,
    decodedCodes, decodedSample]

end Sys2Proof.Machine
end

