-- ==== Sys2Proof/Laws/Memory.lean ====
section
/-! SUPPORT. The laws of the buffers: every operation keeps the canonical form; a byte read after a write is the byte written, and every other byte is as before. -/

namespace Sys2Proof.Machine

/-- A replacement that keeps every key keeps the list of keys. -/
theorem Memory.map_keys {f : Host.Cell → Host.Cell} (h : ∀ c, (f c).1 = c.1) (m : Memory) :
    (List.map f m).map Prod.fst = m.map Prod.fst := by
  simp [Function.comp_def, h]

theorem Memory.write_keys (m : Memory) (a : Nat) (v : Byte) :
    (m.write a v).map Prod.fst = m.map Prod.fst :=
  Memory.map_keys (fun c => by split <;> rfl) m

theorem Memory.writeBlock_keys (m : Memory) (base : Nat) (bytes : List Byte) :
    (m.writeBlock base bytes).map Prod.fst = m.map Prod.fst :=
  Memory.map_keys (fun c => by split <;> [split; skip] <;> rfl) m

/-- One write keeps the canonical form. -/
theorem Memory.write_wf {m : Memory} (h : m.wf) (a : Nat) (v : Byte) : (m.write a v).wf :=
  (Memory.write_keys m a v).trans h

/-- A block write keeps the canonical form. -/
theorem Memory.writeBlock_wf {m : Memory} (h : m.wf) (base : Nat) (bytes : List Byte) :
    (m.writeBlock base bytes).wf :=
  (Memory.writeBlock_keys m base bytes).trans h

/-- Freely drawn buffers are in canonical form. -/
theorem Memory.drawn_wf (draw : Nat) : (Memory.drawn draw).wf := by
  simp [Memory.wf, Memory.drawn, Function.comp_def]

/-- The memory of the reset state is in canonical form. -/
theorem State.reset_mem_wf : State.reset.mem.wf := Memory.drawn_wf 0

/-- In canonical form the addresses rise strictly. -/
theorem Memory.wf_rising {m : Memory} (h : m.wf) : (m.map Prod.fst).Pairwise (· < ·) := by
  rw [h]; exact List.pairwise_lt_range

/-- What a lookup finds after every value at a key is replaced by a function of key and value. -/
theorem Memory.lookup_map (f : Host.Cell → Host.Cell) (h : ∀ c, (f c).1 = c.1) (m : Memory) (a : Nat) :
    List.lookup a (List.map f m) = (List.lookup a m).map (fun v => (f (a, v)).2) := by
  induction m with
  | nil => rfl
  | cons c m ih =>
    obtain ⟨k, v⟩ := c
    have hk : f (k, v) = (k, (f (k, v)).2) := Prod.ext (h (k, v)) rfl
    rw [List.map_cons, hk, List.lookup_cons, List.lookup_cons]
    by_cases e : a = k
    · subst e; simp
    · have : (a == k) = false := by simp [e]
      rw [this, ih]

theorem Memory.read_eq_lookup (m : Memory) (a : Nat) : m.read a = List.lookup a m := by
  unfold Memory.read Memory.unlisted
  cases List.lookup a m <;> rfl

/-- An offset is listed exactly when a lookup finds a byte. -/
theorem Memory.lookup_isSome (m : Memory) (a : Nat) :
    (List.lookup a m).isSome = true ↔ a ∈ m.map Prod.fst := by
  induction m with
  | nil => simp
  | cons c m ih =>
    obtain ⟨k, v⟩ := c
    by_cases e : a = k
    · subst e; simp
    · have hb : (a == k) = false := by simp [e]
      rw [List.lookup_cons, hb]
      simp [e, ih]

/-- In canonical form every offset of TILE and of REC has a byte. -/
theorem Memory.read_listed {m : Memory} (h : m.wf) {a : Nat} (ha : a < Memory.size) :
    ∃ v, m.read a = some v := by
  rw [Memory.read_eq_lookup, ← Option.isSome_iff_exists, Memory.lookup_isSome, h]
  exact List.mem_range.mpr ha

/-- In canonical form no other offset has one. -/
theorem Memory.read_unlisted {m : Memory} (h : m.wf) {a : Nat} (ha : Memory.size ≤ a) : m.read a = none := by
  rw [Memory.read_eq_lookup]
  by_contra hc
  have := (Memory.lookup_isSome m a).mp (Option.isSome_iff_ne_none.mpr hc)
  rw [h, List.mem_range] at this
  omega

theorem Memory.read_write (m : Memory) (a b : Nat) (v : Byte) :
    (m.write a v).read b = (m.read b).map (fun w => if b = a then v else w) := by
  rw [Memory.read_eq_lookup, Memory.read_eq_lookup]
  unfold Memory.write
  rw [Memory.lookup_map _ (fun c => by split <;> rfl)]
  congr 1; funext w; dsimp only; split <;> rfl

/-- The byte written is the byte read. -/
theorem Memory.byte_write_same {m : Memory} (h : m.wf) {a : Nat} (ha : a < Memory.size) (v : Byte) :
    (m.write a v).byte a = v := by
  obtain ⟨w, hw⟩ := Memory.read_listed h ha
  simp [Memory.byte, Memory.read_write, hw]

/-- A write leaves every other byte alone. -/
theorem Memory.byte_write_other (m : Memory) {a b : Nat} (hab : b ≠ a) (v : Byte) :
    (m.write a v).byte b = m.byte b := by
  simp [Memory.byte, Memory.read_write, hab]

theorem Memory.read_writeBlock (m : Memory) (base : Nat) (bytes : List Byte) (a : Nat) :
    (m.writeBlock base bytes).read a
      = (m.read a).map (fun w => if base ≤ a then (bytes[a - base]?).getD w else w) := by
  rw [Memory.read_eq_lookup, Memory.read_eq_lookup]
  unfold Memory.writeBlock
  rw [Memory.lookup_map _ (fun c => by split <;> [split; skip] <;> rfl)]
  congr 1; funext w; dsimp only
  split
  · cases bytes[a - base]? <;> rfl
  · rfl

/-- A byte of a block write is the byte of the block. -/
theorem Memory.byte_writeBlock_in {m : Memory} (h : m.wf) {base : Nat} {bytes : List Byte} {i : Nat}
    (hi : i < bytes.length) (ha : base + i < Memory.size) :
    (m.writeBlock base bytes).byte (base + i) = bytes[i] := by
  obtain ⟨w, hw⟩ := Memory.read_listed h ha
  simp [Memory.byte, Memory.read_writeBlock, hw, hi]

/-- A block write leaves every byte outside the block alone. -/
theorem Memory.byte_writeBlock_out (m : Memory) {base : Nat} {bytes : List Byte} {a : Nat}
    (ha : a < base ∨ base + bytes.length ≤ a) : (m.writeBlock base bytes).byte a = m.byte a := by
  have key : (m.writeBlock base bytes).read a = m.read a := by
    rw [Memory.read_writeBlock]
    cases m.read a with
    | none => rfl
    | some w =>
      by_cases hb : base ≤ a
      · have : bytes[a - base]? = none := by rw [List.getElem?_eq_none_iff]; omega
        simp [this]
      · simp [hb]
  simp [Memory.byte, key]

/-- Every byte of freely drawn buffers is the free byte of that draw. -/
theorem Memory.byte_drawn (draw : Nat) {a : Nat} (ha : a < Memory.size) :
    (Memory.drawn draw).byte a = Config.freeByte draw a := by
  have key : ∀ (l : List Nat), a ∈ l →
      List.lookup a (l.map (fun a => (a, Config.freeByte draw a))) = some (Config.freeByte draw a) := by
    intro l hl
    induction l with
    | nil => simp at hl
    | cons k l ih =>
      rw [List.map_cons, List.lookup_cons]
      by_cases e : a = k
      · subst e; simp
      · have : (a == k) = false := by simp [e]
        rw [this]
        exact ih (by simpa [e] using hl)
  unfold Memory.byte
  rw [Memory.read_eq_lookup, Memory.drawn, key _ (List.mem_range.mpr ha), Option.getD_some]

@[simp] theorem drawnRecord_length (draw : Nat) : (drawnRecord draw).length = 75 := by
  simp [drawnRecord]

end Sys2Proof.Machine
end

