-- ==== Sys2Proof/Laws/State.lean ====
section
/-! SUPPORT. One lemma per field per named update of the state, so that no proof unfolds a record update. -/

namespace Sys2Proof.Machine

@[simp] theorem State.drawRecord_mem (s : State) : (s.drawRecord).mem = s.mem.writeBlock 0xC0 (drawnRecord s.draws) := rfl
@[simp] theorem State.drawRecord_status (s : State) : (s.drawRecord).status = s.status := rfl
@[simp] theorem State.drawRecord_level (s : State) : (s.drawRecord).level = s.level := rfl
@[simp] theorem State.drawRecord_errcode (s : State) : (s.drawRecord).errcode = s.errcode := rfl
@[simp] theorem State.drawRecord_errinfo (s : State) : (s.drawRecord).errinfo = s.errinfo := rfl
@[simp] theorem State.drawRecord_op (s : State) : (s.drawRecord).op = s.op := rfl
@[simp] theorem State.drawRecord_prev (s : State) : (s.drawRecord).prev = s.prev := rfl
@[simp] theorem State.drawRecord_draws (s : State) : (s.drawRecord).draws = s.draws + 1 := rfl
@[simp] theorem State.drawRecord_delay (s : State) : (s.drawRecord).delay = s.delay := rfl
@[simp] theorem State.drawRecord_script (s : State) : (s.drawRecord).script = s.script := rfl
@[simp] theorem State.drawRecord_replies (s : State) : (s.drawRecord).replies = s.replies := rfl

@[simp] theorem State.raise_mem (e : EngineError) (s : State) : (s.raise e).mem = (e.bufferEffect s).mem := rfl
@[simp] theorem State.raise_status (e : EngineError) (s : State) : (s.raise e).status = .failed := rfl
@[simp] theorem State.raise_level (e : EngineError) (s : State) : (s.raise e).level = s.level := by cases e <;> rfl
@[simp] theorem State.raise_errcode (e : EngineError) (s : State) : (s.raise e).errcode = e.code := rfl
@[simp] theorem State.raise_errinfo (e : EngineError) (s : State) : (s.raise e).errinfo = e.info := rfl
@[simp] theorem State.raise_op (e : EngineError) (s : State) : (s.raise e).op = .none := rfl
@[simp] theorem State.raise_prev (e : EngineError) (s : State) : (s.raise e).prev = s.prev := by cases e <;> rfl
@[simp] theorem State.raise_draws (e : EngineError) (s : State) : (s.raise e).draws = (e.bufferEffect s).draws := rfl
@[simp] theorem State.raise_delay (e : EngineError) (s : State) : (s.raise e).delay = 0 := rfl
@[simp] theorem State.raise_script (e : EngineError) (s : State) : (s.raise e).script = s.script := by cases e <;> rfl
@[simp] theorem State.raise_replies (e : EngineError) (s : State) : (s.raise e).replies = s.replies := by cases e <;> rfl

@[simp] theorem State.resetEngine_mem (s : State) : (s.resetEngine).mem = Memory.drawn s.draws := rfl
@[simp] theorem State.resetEngine_status (s : State) : (s.resetEngine).status = .idle := rfl
@[simp] theorem State.resetEngine_level (s : State) : (s.resetEngine).level = 16 := rfl
@[simp] theorem State.resetEngine_errcode (s : State) : (s.resetEngine).errcode = 0x00 := rfl
@[simp] theorem State.resetEngine_errinfo (s : State) : (s.resetEngine).errinfo = 0x00 := rfl
@[simp] theorem State.resetEngine_op (s : State) : (s.resetEngine).op = .none := rfl
@[simp] theorem State.resetEngine_prev (s : State) : (s.resetEngine).prev = ⟨0, 0, 0⟩ := rfl
@[simp] theorem State.resetEngine_draws (s : State) : (s.resetEngine).draws = s.draws + 1 := rfl
@[simp] theorem State.resetEngine_delay (s : State) : (s.resetEngine).delay = 0 := rfl
@[simp] theorem State.resetEngine_script (s : State) : (s.resetEngine).script = s.script := rfl
@[simp] theorem State.resetEngine_replies (s : State) : (s.resetEngine).replies = s.replies := rfl

@[simp] theorem State.writeTile_mem (s : State) (out : List Byte) : (s.writeTile out).mem = s.mem.writeBlock (tileOffset 0) out := rfl
@[simp] theorem State.writeTile_status (s : State) (out : List Byte) : (s.writeTile out).status = s.status := rfl
@[simp] theorem State.writeTile_level (s : State) (out : List Byte) : (s.writeTile out).level = s.level := rfl
@[simp] theorem State.writeTile_errcode (s : State) (out : List Byte) : (s.writeTile out).errcode = s.errcode := rfl
@[simp] theorem State.writeTile_errinfo (s : State) (out : List Byte) : (s.writeTile out).errinfo = s.errinfo := rfl
@[simp] theorem State.writeTile_op (s : State) (out : List Byte) : (s.writeTile out).op = s.op := rfl
@[simp] theorem State.writeTile_prev (s : State) (out : List Byte) : (s.writeTile out).prev = s.prev := rfl
@[simp] theorem State.writeTile_draws (s : State) (out : List Byte) : (s.writeTile out).draws = s.draws := rfl
@[simp] theorem State.writeTile_delay (s : State) (out : List Byte) : (s.writeTile out).delay = s.delay := rfl
@[simp] theorem State.writeTile_script (s : State) (out : List Byte) : (s.writeTile out).script = s.script := rfl
@[simp] theorem State.writeTile_replies (s : State) (out : List Byte) : (s.writeTile out).replies = s.replies := rfl

@[simp] theorem State.writeRec_mem (s : State) (out : List Byte) : (s.writeRec out).mem = s.mem.writeBlock (recOffset 0) out := rfl
@[simp] theorem State.writeRec_status (s : State) (out : List Byte) : (s.writeRec out).status = s.status := rfl
@[simp] theorem State.writeRec_level (s : State) (out : List Byte) : (s.writeRec out).level = s.level := rfl
@[simp] theorem State.writeRec_errcode (s : State) (out : List Byte) : (s.writeRec out).errcode = s.errcode := rfl
@[simp] theorem State.writeRec_errinfo (s : State) (out : List Byte) : (s.writeRec out).errinfo = s.errinfo := rfl
@[simp] theorem State.writeRec_op (s : State) (out : List Byte) : (s.writeRec out).op = s.op := rfl
@[simp] theorem State.writeRec_prev (s : State) (out : List Byte) : (s.writeRec out).prev = s.prev := rfl
@[simp] theorem State.writeRec_draws (s : State) (out : List Byte) : (s.writeRec out).draws = s.draws := rfl
@[simp] theorem State.writeRec_delay (s : State) (out : List Byte) : (s.writeRec out).delay = s.delay := rfl
@[simp] theorem State.writeRec_script (s : State) (out : List Byte) : (s.writeRec out).script = s.script := rfl
@[simp] theorem State.writeRec_replies (s : State) (out : List Byte) : (s.writeRec out).replies = s.replies := rfl

@[simp] theorem State.accept_mem (op : Op) (s : State) : (s.accept op).mem = s.mem := rfl
@[simp] theorem State.accept_status (op : Op) (s : State) : (s.accept op).status = ⟨true, false, s.status.err⟩ := rfl
@[simp] theorem State.accept_level (op : Op) (s : State) : (s.accept op).level = s.level := rfl
@[simp] theorem State.accept_errcode (op : Op) (s : State) : (s.accept op).errcode = s.errcode := rfl
@[simp] theorem State.accept_errinfo (op : Op) (s : State) : (s.accept op).errinfo = s.errinfo := rfl
@[simp] theorem State.accept_op (op : Op) (s : State) : (s.accept op).op = op := rfl
@[simp] theorem State.accept_prev (op : Op) (s : State) : (s.accept op).prev = s.prev := rfl
@[simp] theorem State.accept_draws (op : Op) (s : State) : (s.accept op).draws = s.draws + 1 := rfl
@[simp] theorem State.accept_delay (op : Op) (s : State) : (s.accept op).delay = Config.freeDelay s.draws := rfl
@[simp] theorem State.accept_script (op : Op) (s : State) : (s.accept op).script = s.script := rfl
@[simp] theorem State.accept_replies (op : Op) (s : State) : (s.accept op).replies = s.replies := rfl

@[simp] theorem State.complete_mem (s : State) : (s.complete).mem = s.mem := rfl
@[simp] theorem State.complete_status (s : State) : (s.complete).status = ⟨false, true, s.status.err⟩ := rfl
@[simp] theorem State.complete_level (s : State) : (s.complete).level = s.level := rfl
@[simp] theorem State.complete_errcode (s : State) : (s.complete).errcode = s.errcode := rfl
@[simp] theorem State.complete_errinfo (s : State) : (s.complete).errinfo = s.errinfo := rfl
@[simp] theorem State.complete_op (s : State) : (s.complete).op = .none := rfl
@[simp] theorem State.complete_prev (s : State) : (s.complete).prev = s.prev := rfl
@[simp] theorem State.complete_draws (s : State) : (s.complete).draws = s.draws := rfl
@[simp] theorem State.complete_delay (s : State) : (s.complete).delay = 0 := rfl
@[simp] theorem State.complete_script (s : State) : (s.complete).script = s.script := rfl
@[simp] theorem State.complete_replies (s : State) : (s.complete).replies = s.replies := rfl

@[simp] theorem State.reply_mem (s : State) (offset : Nat) (v : Byte) : (s.reply offset v).mem = s.mem := rfl
@[simp] theorem State.reply_status (s : State) (offset : Nat) (v : Byte) : (s.reply offset v).status = s.status := rfl
@[simp] theorem State.reply_level (s : State) (offset : Nat) (v : Byte) : (s.reply offset v).level = s.level := rfl
@[simp] theorem State.reply_errcode (s : State) (offset : Nat) (v : Byte) : (s.reply offset v).errcode = s.errcode := rfl
@[simp] theorem State.reply_errinfo (s : State) (offset : Nat) (v : Byte) : (s.reply offset v).errinfo = s.errinfo := rfl
@[simp] theorem State.reply_op (s : State) (offset : Nat) (v : Byte) : (s.reply offset v).op = s.op := rfl
@[simp] theorem State.reply_prev (s : State) (offset : Nat) (v : Byte) : (s.reply offset v).prev = s.prev := rfl
@[simp] theorem State.reply_draws (s : State) (offset : Nat) (v : Byte) : (s.reply offset v).draws = s.draws := rfl
@[simp] theorem State.reply_delay (s : State) (offset : Nat) (v : Byte) : (s.reply offset v).delay = s.delay := rfl
@[simp] theorem State.reply_script (s : State) (offset : Nat) (v : Byte) : (s.reply offset v).script = s.script := rfl
@[simp] theorem State.reply_replies (s : State) (offset : Nat) (v : Byte) : (s.reply offset v).replies = (offset, v) :: s.replies := rfl

@[simp] theorem State.consume_mem (s : State) (rest : List HostAction) : (s.consume rest).mem = s.mem := rfl
@[simp] theorem State.consume_status (s : State) (rest : List HostAction) : (s.consume rest).status = s.status := rfl
@[simp] theorem State.consume_level (s : State) (rest : List HostAction) : (s.consume rest).level = s.level := rfl
@[simp] theorem State.consume_errcode (s : State) (rest : List HostAction) : (s.consume rest).errcode = s.errcode := rfl
@[simp] theorem State.consume_errinfo (s : State) (rest : List HostAction) : (s.consume rest).errinfo = s.errinfo := rfl
@[simp] theorem State.consume_op (s : State) (rest : List HostAction) : (s.consume rest).op = s.op := rfl
@[simp] theorem State.consume_prev (s : State) (rest : List HostAction) : (s.consume rest).prev = s.prev := rfl
@[simp] theorem State.consume_draws (s : State) (rest : List HostAction) : (s.consume rest).draws = s.draws := rfl
@[simp] theorem State.consume_delay (s : State) (rest : List HostAction) : (s.consume rest).delay = s.delay - 1 := rfl
@[simp] theorem State.consume_script (s : State) (rest : List HostAction) : (s.consume rest).script = rest := rfl
@[simp] theorem State.consume_replies (s : State) (rest : List HostAction) : (s.consume rest).replies = s.replies := rfl

@[simp] theorem waitRound_mem (s : State) : (waitRound s).mem = s.mem := by
  unfold waitRound; dsimp only; split <;> rfl
@[simp] theorem waitRound_status (s : State) : (waitRound s).status = s.status := by
  unfold waitRound; dsimp only; split <;> rfl
@[simp] theorem waitRound_level (s : State) : (waitRound s).level = s.level := by
  unfold waitRound; dsimp only; split <;> rfl
@[simp] theorem waitRound_errcode (s : State) : (waitRound s).errcode = s.errcode := by
  unfold waitRound; dsimp only; split <;> rfl
@[simp] theorem waitRound_errinfo (s : State) : (waitRound s).errinfo = s.errinfo := by
  unfold waitRound; dsimp only; split <;> rfl
@[simp] theorem waitRound_op (s : State) : (waitRound s).op = s.op := by
  unfold waitRound; dsimp only; split <;> rfl
@[simp] theorem waitRound_prev (s : State) : (waitRound s).prev = s.prev := by
  unfold waitRound; dsimp only; split <;> rfl
@[simp] theorem waitRound_draws (s : State) : (waitRound s).draws = s.draws := by
  unfold waitRound; dsimp only; split <;> rfl
@[simp] theorem waitRound_delay (s : State) : (waitRound s).delay = s.delay := by
  unfold waitRound; dsimp only; split <;> rfl
@[simp] theorem waitRound_replies (s : State) :
    (waitRound s).replies = (statusOffset, s.status.toByte) :: s.replies := by
  unfold waitRound; dsimp only; split <;> rfl

/-- `WAIT` stays on the list exactly while the value it read has BUSY set (R91). -/
theorem waitRound_script (s : State) :
    (waitRound s).script = if s.status.toByte.getLsbD 0 then .wait :: s.script else s.script := by
  unfold waitRound; dsimp only; split <;> rfl

/-- The buffer effect of an error: PackingOverflow draws REC anew, the others change nothing (R201 to R203). -/
@[simp] theorem EngineError.bufferEffect_packingOverflow (j : Nat) (s : State) :
    (EngineError.packingOverflow j).bufferEffect s = s.drawRecord := rfl
@[simp] theorem EngineError.bufferEffect_formatError (j : Nat) (s : State) :
    (EngineError.formatError j).bufferEffect s = s := rfl
@[simp] theorem EngineError.bufferEffect_illegalCommand (v : Byte) (s : State) :
    (EngineError.illegalCommand v).bufferEffect s = s := rfl

@[simp] theorem State.reset_mem : State.reset.mem = Memory.drawn 0 := rfl
@[simp] theorem State.reset_status : State.reset.status = .idle := rfl
@[simp] theorem State.reset_level : State.reset.level = 16 := rfl
@[simp] theorem State.reset_op : State.reset.op = .none := rfl

/-- BUSY is bit 0 of the byte the host reads (R72). -/
@[simp] theorem Status.toByte_busy (st : Status) : st.toByte.getLsbD 0 = st.busy := by
  rcases st with ⟨_ | _, _ | _, _ | _⟩ <;> rfl

end Sys2Proof.Machine
end

