-- ==== Sys2Proof/Laws/Codec.lean ====
section
/-! SUPPORT. What ENC and DEC can answer: the shapes of the record and of the tile, and one case analysis of each command. -/

namespace Sys2Proof.Machine

/-- Packing succeeds exactly on a sum 0 to 255, with that byte (R132). -/
theorem packByte_ok_iff (j : Nat) (sum : Int) (b : Byte) :
    packByte j sum = .ok b ↔ (0 ≤ sum ∧ sum ≤ 255) ∧ b = byteOfInt sum := by
  unfold packByte
  split
  · simp; omega
  · constructor
    · intro h; injection h with h; exact ⟨by omega, h.symm⟩
    · rintro ⟨-, rfl⟩; rfl

/-- Packing fails exactly on a sum outside 0 to 255, with the index of the byte (R132). -/
theorem packByte_error_iff (j : Nat) (sum : Int) (e : EngineError) :
    packByte j sum = .error e ↔ (sum < 0 ∨ 255 < sum) ∧ e = .packingOverflow j := by
  unfold packByte
  split
  · constructor
    · intro h; injection h with h; exact ⟨by assumption, h.symm⟩
    · rintro ⟨-, rfl⟩; rfl
  · simp; omega

/-- A byte made from an integer 0 to 255 is that integer. -/
theorem byteOfInt_toNat {n : Int} (h0 : 0 ≤ n) (h1 : n ≤ 255) : ((byteOfInt n).toNat : Int) = n := by
  unfold byteOfInt
  rw [BitVec.toNat_ofInt]
  omega

/-- The first corner that does not pack, in the order TL, TR, BL, BR, or all four bytes (R152). -/
theorem encodeCorners_cases (tile : Nat → Byte) (level : Nat) :
    let q := (tileCorners tile).map (fun cs => cornerCodes cs (tileStats tile) (tileFlags tile level))
    (∃ tl tr bl br, encodeCorners tile level = .ok [tl, tr, bl, br] ∧ packCorner 0 q.tl = .ok tl ∧
      packCorner 1 q.tr = .ok tr ∧ packCorner 2 q.bl = .ok bl ∧ packCorner 3 q.br = .ok br) ∨
    (∃ j e, encodeCorners tile level = .error e ∧ e = .packingOverflow j ∧ 7 ≤ j ∧ j ≤ 10) := by
  intro q
  have hpack : ∀ k c, (∃ b, packCorner k c = .ok b) ∨ packCorner k c = .error (.packingOverflow (cornerIndex k)) := by
    intro k c
    cases h : packCorner k c with
    | ok b => exact .inl ⟨b, rfl⟩
    | error e => exact .inr (by rw [((packByte_error_iff _ _ _).mp h).2])
  have hunf : encodeCorners tile level = (do
      let tl ← packCorner 0 q.tl
      let tr ← packCorner 1 q.tr
      let bl ← packCorner 2 q.bl
      let br ← packCorner 3 q.br
      return [tl, tr, bl, br]) := rfl
  rw [hunf]
  obtain ⟨tl, h0⟩ | h0 := hpack 0 q.tl
  · obtain ⟨tr, h1⟩ | h1 := hpack 1 q.tr
    · obtain ⟨bl, h2⟩ | h2 := hpack 2 q.bl
      · obtain ⟨br, h3⟩ | h3 := hpack 3 q.br
        · exact .inl ⟨tl, tr, bl, br, by rw [h0, h1, h2, h3]; rfl, h0, h1, h2, h3⟩
        · exact .inr ⟨10, _, by rw [h0, h1, h2, h3]; rfl, rfl, by decide, by decide⟩
      · exact .inr ⟨9, _, by rw [h0, h1, h2]; rfl, rfl, by decide, by decide⟩
    · exact .inr ⟨8, _, by rw [h0, h1]; rfl, rfl, by decide, by decide⟩
  · exact .inr ⟨7, _, by rw [h0]; rfl, rfl, by decide, by decide⟩

/-- One round of the grid loop whose byte packs. -/
theorem encodeGrid_cons_ok {code : Nat → Triple Int} {p : Nat} {ps : List Nat} {prev : Triple Int} {b : Byte}
    (h : packGrid p (deltaEnc3 prev (code p)) = .ok b) :
    encodeGrid code (p :: ps) prev =
      ((encodeGrid code ps (code p)).1, (encodeGrid code ps (code p)).2.map (fun bs => b :: bs)) := by
  simp only [encodeGrid, h]

/-- One round of the grid loop whose byte does not pack. -/
theorem encodeGrid_cons_error {code : Nat → Triple Int} {p : Nat} {ps : List Nat} {prev : Triple Int} {e : EngineError}
    (h : packGrid p (deltaEnc3 prev (code p)) = .error e) :
    encodeGrid code (p :: ps) prev = (code p, .error e) := by
  simp only [encodeGrid, h]

/-- The grid loop yields one byte per position, or the first PackingOverflow, at the grid byte of a position of the
list (R150 step 4, R152). -/
theorem encodeGrid_cases (code : Nat → Triple Int) (ps : List Nat) (prev : Triple Int) :
    (∃ bs, (encodeGrid code ps prev).2 = .ok bs ∧ bs.length = ps.length) ∨
    (∃ p ∈ ps, (encodeGrid code ps prev).2 = .error (.packingOverflow (gridIndex p))) := by
  induction ps generalizing prev with
  | nil => exact .inl ⟨[], rfl, rfl⟩
  | cons p ps ih =>
    cases h : packGrid p (deltaEnc3 prev (code p)) with
    | error e =>
      refine .inr ⟨p, by simp, ?_⟩
      rw [encodeGrid_cons_error h, ((packByte_error_iff _ _ _).mp h).2]
    | ok b =>
      rw [encodeGrid_cons_ok h]
      obtain ⟨bs, hb, hl⟩ | ⟨p', hp, he⟩ := ih (code p)
      · exact .inl ⟨b :: bs, by simp [hb, Except.map], by simp [hl]⟩
      · exact .inr ⟨p', by simp [hp], by simp [he, Except.map]⟩

theorem encodeHeader_length (tile : Nat → Byte) (level : Nat) : (encodeHeader tile level).length = 7 := rfl

/-- ENC yields exactly 75 bytes or a PackingOverflow at an index 7 to 74 (R150, R152). -/
theorem encodeBlock_cases (tile : Nat → Byte) (level : Nat) :
    (∃ bs, (encodeBlock tile level).2 = .ok bs ∧ bs.length = 75) ∨
    (∃ j, (encodeBlock tile level).2 = .error (.packingOverflow j) ∧ 7 ≤ j ∧ j ≤ 74) := by
  unfold encodeBlock
  obtain ⟨tl, tr, bl, br, hc, -⟩ | ⟨j, e, hc, rfl, h7, h10⟩ := encodeCorners_cases tile level
  · rw [hc]
    obtain ⟨bs, hb, hl⟩ | ⟨p, hp, he⟩ := encodeGrid_cases (gridCode tile level) pixels startPrev
    · exact .inl ⟨_, by simp only [hb]; rfl, by simp [hl, encodeHeader_length, pixels]⟩
    · refine .inr ⟨gridIndex p, by simp only [he]; rfl, ?_, ?_⟩
      · unfold gridIndex; omega
      · have := List.mem_range.mp hp; unfold gridIndex; omega
  · rw [hc]; exact .inr ⟨j, rfl, h7, by omega⟩

/-- The position loop of DEC yields three bytes per position. -/
theorem decodeGrid_length (record : Nat → Byte) (ps : List Nat) (prev : Triple Int) :
    (decodeGrid record ps prev).2.length = 3 * ps.length := by
  induction ps generalizing prev with
  | nil => rfl
  | cons p ps ih =>
    unfold decodeGrid
    simp only [List.length_append, ih, List.length_cons]
    have : (pixelBytes (decodeSample record p (deltaDec3 prev (unpack3 (record (gridIndex p)))))).length = 3 := rfl
    omega

/-- The first check of DEC that fails is one of four (R153). -/
theorem validateRecord_cases (record : Nat → Byte) :
    validateRecord record = .ok () ∨
    (∃ j, validateRecord record = .error (.formatError j) ∧ (j = 0 ∨ j = 2 ∨ j = 4 ∨ j = 6)) := by
  unfold validateRecord
  repeat' split
  · exact .inr ⟨0, rfl, by simp⟩
  · exact .inr ⟨2, rfl, by simp⟩
  · exact .inr ⟨4, rfl, by simp⟩
  · exact .inr ⟨6, rfl, by simp⟩
  · exact .inl rfl

/-- Everything ENC can do: it answers a next state, with the record or with a PackingOverflow (R150, R152). -/
theorem execEnc_cases (s : State) :
    (∃ record, (encodeBlock s.tileByte s.levelNat).2 = .ok record ∧ record.length = 75 ∧
      execEnc s = .next ({ s with prev := (encodeBlock s.tileByte s.levelNat).1 }.writeRec record).complete) ∨
    (∃ j, (encodeBlock s.tileByte s.levelNat).2 = .error (.packingOverflow j) ∧ 7 ≤ j ∧ j ≤ 74 ∧
      execEnc s = .next ({ s with prev := (encodeBlock s.tileByte s.levelNat).1 }.raise (.packingOverflow j))) := by
  obtain ⟨bs, hb, hl⟩ | ⟨j, hj, h7, h74⟩ := encodeBlock_cases s.tileByte s.levelNat
  · exact .inl ⟨bs, hb, hl, by unfold execEnc; simp only [hb]⟩
  · exact .inr ⟨j, hj, h7, h74, by unfold execEnc; simp only [hj]⟩

/-- Everything DEC can do: it answers a next state, with the tile or with a FormatError (R151, R153). -/
theorem execDec_cases (s : State) :
    (validateRecord s.recByte = .ok () ∧
      execDec s = .next
        ({ s with prev := (decodeGrid s.recByte pixels startPrev).1 }.writeTile
          (decodeGrid s.recByte pixels startPrev).2).complete) ∨
    (∃ j, validateRecord s.recByte = .error (.formatError j) ∧ (j = 0 ∨ j = 2 ∨ j = 4 ∨ j = 6) ∧
      execDec s = .next (s.raise (.formatError j))) := by
  obtain h | ⟨j, h, hj⟩ := validateRecord_cases s.recByte
  · exact .inl ⟨h, by unfold execDec decodeBlock; rw [h]; rfl⟩
  · exact .inr ⟨j, h, hj, by unfold execDec decodeBlock; rw [h]; rfl⟩

end Sys2Proof.Machine
end

