-- ==== Sys2Proof/Laws/HostRun.lean ====
section
/-! SUPPORT. What a step of a host with its engine can be, how runs compose, and the small lemmas of the host's moves. -/

namespace Sys2Proof.Machine.HostImage

@[simp] theorem HostRun.accesses_engine (run : HostRun) (script : List HostAction) (stage : Stage) :
    (run.accesses script stage).engine = { run.engine with script := script } := rfl
@[simp] theorem HostRun.accesses_tile (run : HostRun) (script : List HostAction) (stage : Stage) :
    (run.accesses script stage).tile = run.tile := rfl
@[simp] theorem HostRun.accesses_output (run : HostRun) (script : List HostAction) (stage : Stage) :
    (run.accesses script stage).output = run.output := rfl
@[simp] theorem HostRun.accesses_stage (run : HostRun) (script : List HostAction) (stage : Stage) :
    (run.accesses script stage).stage = stage := rfl

@[simp] theorem HostRun.orStop_ok {α : Type} (run : HostRun) (a : α) (go : α → HostRun) :
    run.orStop (.ok a) go = go a := rfl
@[simp] theorem HostRun.orStop_error {α : Type} (run : HostRun) (e : HostError) (go : α → HostRun) :
    run.orStop (.error e) go = { run with stage := .stopped e } := rfl

/-- With its accesses served the host moves. -/
theorem HostRun.step_advance (job : Job) {run : HostRun} (h : run.engine.script = []) :
    run.step job = .next (run.advance job) := by
  unfold HostRun.step; rw [h]; rfl

/-- With accesses left the engine steps, and only the engine changes. -/
theorem HostRun.step_engine (job : Job) {run : HostRun} {t : State} (h : run.engine.script ≠ [])
    (ht : Machine.step run.engine = .next t) : run.step job = .next { run with engine := t } := by
  unfold HostRun.step
  rw [if_neg (by simpa using h), ht]

/-- Everything a step can do, when it answers. -/
theorem HostRun.step_cases {job : Job} {run run' : HostRun} (h : run.step job = .next run') :
    (run.engine.script = [] ∧ run' = run.advance job) ∨
    (run.engine.script ≠ [] ∧ ∃ t, Machine.step run.engine = .next t ∧ run' = { run with engine := t }) := by
  by_cases hs : run.engine.script = []
  · rw [HostRun.step_advance job hs] at h; injection h with h; exact .inl ⟨hs, h.symm⟩
  · cases ht : Machine.step run.engine with
    | next t => rw [HostRun.step_engine job hs ht] at h; injection h with h; exact .inr ⟨hs, t, rfl, h.symm⟩
    | fault r => unfold HostRun.step at h; rw [if_neg (by simpa using hs), ht] at h; cases h
    | refused r => unfold HostRun.step at h; rw [if_neg (by simpa using hs), ht] at h; cases h

/-- A run of `m + n` steps is a run of `m`, then one of `n`. -/
theorem HostRun.run_add {job : Job} {m n : Nat} {a b : HostRun} (h : HostRun.run job m a = .next b) :
    HostRun.run job (m + n) a = HostRun.run job n b := by
  induction m generalizing a with
  | zero => injection h with h; rw [h, Nat.zero_add]
  | succ m ih =>
    rw [Nat.succ_add]
    simp only [HostRun.run] at h ⊢
    cases hs : a.step job with
    | next c => rw [hs] at h; exact ih h
    | fault r => rw [hs] at h; cases h
    | refused r => rw [hs] at h; cases h

/-- A job that has ended stays as it is. -/
theorem HostRun.advance_done (job : Job) {run : HostRun} (h : run.stage = .done) : run.advance job = run := by
  unfold HostRun.advance; rw [h]

theorem HostRun.advance_stopped (job : Job) {run : HostRun} {e : HostError} (h : run.stage = .stopped e) :
    run.advance job = run := by
  unfold HostRun.advance; rw [h]

/-- The two error bytes name the error that wrote them (R74, R75). -/
theorem errorOf_code_info (e : EngineError) (h : ∀ j, e = .packingOverflow j ∨ e = .formatError j → j < 256) :
    errorOf e.code e.info = e := by
  cases e with
  | packingOverflow j =>
    have := h j (.inl rfl)
    simp [errorOf, EngineError.code, EngineError.info, Nat.mod_eq_of_lt this]
  | formatError j =>
    have := h j (.inr rfl)
    simp [errorOf, EngineError.code, EngineError.info, Nat.mod_eq_of_lt this]
  | illegalCommand v => rfl

/-- Every tile of a loop that ends has its result, in order. -/
theorem forTiles_length {α : Type} {f : Nat → Except HostError α} {l : List Nat} {as : List α}
    (h : forTiles f l = .ok as) : as.length = l.length := by
  induction l generalizing as with
  | nil => injection h with h; rw [← h]; rfl
  | cons i rest ih =>
    unfold forTiles at h
    cases ha : f i with
    | error e => rw [ha] at h; cases h
    | ok a =>
      cases hr : forTiles f rest with
      | error e => rw [ha, hr] at h; cases h
      | ok bs => rw [ha, hr] at h; injection h with h; rw [← h, List.length_cons, ih hr, List.length_cons]

end Sys2Proof.Machine.HostImage
end

