-- ==== Sys2Proof/Laws/ImageTeam.lean ====
section
/-! SUPPORT. What a move of a team of engines can do, that it is the platform's own step where an engine steps, and how runs compose. -/

namespace Sys2Proof.Machine.Platform

open HostImage

@[simp] theorem ImageTeam.put_workers (team : ImageTeam) (k : Nat) (run : HostRun) :
    (team.put k run).workers = team.workers.set k run := rfl
@[simp] theorem ImageTeam.put_places (team : ImageTeam) (k : Nat) (run : HostRun) :
    (team.put k run).places = team.places := rfl
@[simp] theorem ImageTeam.put_stage (team : ImageTeam) (k : Nat) (run : HostRun) :
    (team.put k run).stage = team.stage := rfl
@[simp] theorem ImageTeam.stop_workers (team : ImageTeam) (e : HostError) : (team.stop e).workers = team.workers := rfl
@[simp] theorem ImageTeam.stop_places (team : ImageTeam) (e : HostError) : (team.stop e).places = team.places := rfl
@[simp] theorem ImageTeam.stop_stage (team : ImageTeam) (e : HostError) : (team.stop e).stage = .stopped e := rfl

/-- Putting one worker leaves every other engine as it is (R209). -/
theorem ImageTeam.put_other (team : ImageTeam) {j k : Nat} (run : HostRun) (h : j ≠ k) :
    (team.put k run).engines[j]? = team.engines[j]? := by
  simp only [ImageTeam.engines, ImageTeam.put_workers, List.getElem?_map, List.getElem?_set_ne (Ne.symm h)]

/-- A worker going on, or the whole image failing with its error. -/
theorem ImageTeam.putOrStop_cases (team : ImageTeam) (k : Nat) (run : HostRun) :
    (∃ e, run.stage = .stopped e ∧ team.putOrStop k run = team.stop e) ∨
    ((∀ e, run.stage ≠ .stopped e) ∧ team.putOrStop k run = team.put k run) := by
  unfold ImageTeam.putOrStop
  split
  next e h => exact .inl ⟨e, h, rfl⟩
  next h => exact .inr ⟨h, rfl⟩

/-- While worker `k` has accesses left its work is the platform's step of engine `k`. -/
theorem ImageTeam.work_engines {job : Job} {k : Nat} {run : HostRun} {team team' : ImageTeam}
    (hk : team.workers[k]? = some run) (hs : run.engine.script ≠ []) (h : team.work job k run = .next team') :
    Platform.step k team.engines = .next team'.engines := by
  have he : (team.workers.map HostRun.engine)[k]? = some run.engine := by simp [hk]
  unfold ImageTeam.work at h
  rw [if_neg (by simpa using hs)] at h
  unfold Platform.step ImageTeam.engines
  cases ht : Sys2Proof.Machine.step run.engine with
  | next t =>
    rw [ht] at h
    injection h with h
    rw [← h]
    simp only [he, ht, ImageTeam.put_workers, List.map_set]
  | fault r => rw [ht] at h; cases h
  | refused r => rw [ht] at h; cases h

/-- Everything a move can do, when it answers. -/
theorem ImageTeam.step_cases {job : Job} {move : TeamMove} {team team' : ImageTeam}
    (h : team.step job move = .next team') :
    team' = team ∨
    (team.stage = .next ∧ ∃ k i run, move = .give k i ∧ team.workers[k]? = some run ∧ team' = team.give job k i run) ∨
    (team.stage = .next ∧ ∃ k run, move = .work k ∧ team.workers[k]? = some run ∧ team.work job k run = .next team') ∨
    (team.stage = .next ∧ move = .frame ∧ team' = team.frame job) := by
  unfold ImageTeam.step at h
  by_cases hs : team.stage = .next
  · rw [if_pos hs] at h
    cases move with
    | give k i =>
      cases hk : team.workers[k]? with
      | none => simp only [hk] at h; injection h with h; exact .inl h.symm
      | some run => simp only [hk] at h; injection h with h; exact .inr (.inl ⟨hs, k, i, run, rfl, hk, h.symm⟩)
    | work k =>
      cases hk : team.workers[k]? with
      | none => simp only [hk] at h; injection h with h; exact .inl h.symm
      | some run => simp only [hk] at h; exact .inr (.inr (.inl ⟨hs, k, run, rfl, hk, h⟩))
    | frame => injection h with h; exact .inr (.inr (.inr ⟨hs, rfl, h.symm⟩))
  · rw [if_neg hs] at h; injection h with h; exact .inl h.symm

/-- A run of two lists of moves is a run of the first, then one of the second. -/
theorem ImageTeam.run_append {job : Job} {first second : List TeamMove} {a b : ImageTeam}
    (h : ImageTeam.run job first a = .next b) :
    ImageTeam.run job (first ++ second) a = ImageTeam.run job second b := by
  induction first generalizing a with
  | nil => injection h with h; rw [h, List.nil_append]
  | cons move rest ih =>
    rw [List.cons_append]
    simp only [ImageTeam.run] at h ⊢
    cases hs : a.step job move with
    | next c => rw [hs] at h; exact ih h
    | fault r => rw [hs] at h; cases h
    | refused r => rw [hs] at h; cases h

/-- With every place filled the framing writes them all, in order. -/
theorem framed_of_all {places : List (Option (List Byte))} (h : places.all Option.isSome = true) :
    framed places = places.map (fun place => place.getD []) := by
  induction places with
  | nil => rfl
  | cons place rest ih =>
    rw [List.all_cons, Bool.and_eq_true] at h
    cases place with
    | none => cases h.1
    | some result => rw [framed, ih h.2]; rfl

end Sys2Proof.Machine.Platform
end

