-- ==== Sys2Proof/Laws/PerInstr.lean ====
section
/-! SUPPORT. Statements about every instruction as syntax, one lemma per constructor. -/

namespace Sys2Proof.Laws.SingleByte

/-- A command is well formed and is exactly one byte long (R70). -/
def Statement (i : Instr) : Prop :=
  i.wf = true ∧ (encode i).length = 1

theorem nop : Statement .nop := ⟨rfl, rfl⟩

theorem enc : Statement .enc := ⟨rfl, rfl⟩

theorem dec : Statement .dec := ⟨rfl, rfl⟩

theorem srst : Statement .srst := ⟨rfl, rfl⟩

end Sys2Proof.Laws.SingleByte
end

