-- ==== Sys2Proof/Laws/Step.lean ====
section
/-! SUPPORT. What the decoder, the port, a host action and a step can do: one case analysis of each. -/

namespace Sys2Proof.Machine

/-- What each command byte means (R70, R71). -/
theorem decodeByte_eq (v : Byte) :
    decodeByte v = if v = 0x00 then .ok .nop else if v = 0x01 then .ok .enc else if v = 0x02 then .ok .dec
      else if v = 0xFF then .ok .srst else .error (.reservedCommand v) := by
  have hm : ∀ p : Byte, (v &&& 0xFF#8 == p) = decide (v = p) := by
    intro p
    have : v &&& 0xFF#8 = v := by
      have : (0xFF#8 : Byte) = BitVec.allOnes 8 := rfl
      rw [this, BitVec.and_allOnes]
    rw [this]; rfl
  unfold decodeByte opcodeTable
  simp only [List.find?_cons, OpcodeRow.hit]
  rw [show (0xFF : Byte) = 0xFF#8 from rfl, hm, hm, hm, hm]
  by_cases h0 : v = 0x00 <;> by_cases h1 : v = 0x01 <;> by_cases h2 : v = 0x02 <;> by_cases h3 : v = 0xFF#8 <;>
    simp_all

@[simp] theorem exec_nop (s : State) : exec .nop s = .next s := rfl
@[simp] theorem exec_srst (s : State) : exec .srst s = .next s.resetEngine := rfl
theorem exec_enc (s : State) : exec .enc s = execEnc s := rfl
theorem exec_dec (s : State) : exec .dec s = execDec s := rfl

/-- The offsets of TILE (R51). -/
theorem locate_tile {a : Nat} (h : a ≤ 0x0BF) : locate a = .tile a := by
  simp [locate, h]

/-- The offsets of REC (R51). -/
theorem locate_record {a : Nat} (h0 : 0x0C0 ≤ a) (h1 : a ≤ 0x10A) : locate a = .record (a - 0x0C0) := by
  unfold locate; rw [if_neg (by omega), if_pos h1]

/-- The offsets at and above 0x200 (R51, U7). -/
theorem locate_outside {a : Nat} (h : 0x200 ≤ a) : locate a = .outside := by
  unfold locate; repeat rw [if_neg (by omega)]

/-- An offset below 0x200 is one of the engine's (R51). -/
theorem locate_inside {a : Nat} (h : a < 0x200) : locate a ≠ .outside := by
  unfold locate; repeat' split
  all_goals first | (intro h'; cases h'; done) | omega

/-- A read answers a byte and changes nothing but, on a buffer while BUSY, the count of free draws (R52). -/
theorem memRead_cases (a : Nat) (s : State) :
    (∃ v, memRead a s = .next (v, s)) ∨
    (s.status.busy = true ∧ ∃ v, memRead a s = .next (v, { s with draws := s.draws + 1 })) ∨
    (locate a = .outside ∧ memRead a s = .refused (.offsetOutsideEngine a)) := by
  unfold memRead
  cases h : locate a with
  | tile i => by_cases hb : s.status.busy = true <;> simp [hb]
  | record i => by_cases hb : s.status.busy = true <;> simp [hb]
  | outside => exact .inr (.inr ⟨rfl, rfl⟩)
  | _ => exact .inl ⟨_, rfl⟩

/-- What a command issue does in each state (R173). -/
theorem issueCommand_cases (v : Byte) (s : State) :
    (v = 0xFF ∧ issueCommand v s = .next s.resetEngine) ∨
    (v ≠ 0xFF ∧ (s.status.err = true ∨ s.status.busy = true ∨ v = 0x00) ∧ issueCommand v s = .next s) ∨
    (s.status.err = false ∧ s.status.busy = false ∧ v = 0x01 ∧ issueCommand v s = .next (s.accept .enc)) ∨
    (s.status.err = false ∧ s.status.busy = false ∧ v = 0x02 ∧ issueCommand v s = .next (s.accept .dec)) ∨
    (s.status.err = false ∧ s.status.busy = false ∧ 0x03 ≤ v.toNat ∧ v.toNat ≤ 0xFE ∧
      issueCommand v s = .next (s.raise (.illegalCommand v))) := by
  by_cases hF : v = 0xFF
  · subst hF; exact .inl ⟨rfl, rfl⟩
  have hsrst : decodeByte v ≠ .ok .srst := by
    rw [decodeByte_eq]; split_ifs <;> simp
  unfold issueCommand
  rw [if_neg hsrst]
  cases he : s.status.err with
  | true => exact .inr (.inl ⟨hF, .inl rfl, rfl⟩)
  | false =>
  cases hb : s.status.busy with
  | true => exact .inr (.inl ⟨hF, .inr (.inl rfl), rfl⟩)
  | false =>
  by_cases h0 : v = 0x00
  · subst h0; exact .inr (.inl ⟨hF, .inr (.inr rfl), rfl⟩)
  by_cases h1 : v = 0x01
  · subst h1; exact .inr (.inr (.inl ⟨rfl, rfl, rfl, rfl⟩))
  by_cases h2 : v = 0x02
  · subst h2; exact .inr (.inr (.inr (.inl ⟨rfl, rfl, rfl, rfl⟩)))
  have hd : decodeByte v = .error (.reservedCommand v) := by
    rw [decodeByte_eq, if_neg h0, if_neg h1, if_neg h2, if_neg hF]
  refine .inr (.inr (.inr (.inr ⟨rfl, rfl, ?_, ?_, by simp [acceptCommand, hd]⟩)))
  · have e0 : v.toNat ≠ 0 := fun h => h0 (BitVec.eq_of_toNat_eq h)
    have e1 : v.toNat ≠ 1 := fun h => h1 (BitVec.eq_of_toNat_eq h)
    have e2 : v.toNat ≠ 2 := fun h => h2 (BitVec.eq_of_toNat_eq h)
    omega
  · have e : v.toNat ≠ 255 := fun h => hF (BitVec.eq_of_toNat_eq h)
    have := v.isLt
    omega

/-- What a write does (R53): a command issue, a buffer byte, a byte of LEVEL, or nothing. -/
theorem memWrite_cases (a : Nat) (v : Byte) (s : State) :
    (locate a = .cmd ∧ memWrite a v s = issueCommand v s) ∨
    memWrite a v s = .next s ∨
    (s.status.busy = false ∧ a < Memory.size ∧ memWrite a v s = .next { s with mem := s.mem.write a v }) ∨
    (s.status.busy = false ∧ ∃ level, memWrite a v s = .next { s with level := level }) ∨
    (locate a = .outside ∧ memWrite a v s = .refused (.offsetOutsideEngine a)) := by
  have hsize : (∃ i, locate a = .tile i) ∨ (∃ i, locate a = .record i) → a < Memory.size := by
    intro h
    by_contra hc
    unfold locate at h
    rw [if_neg (by unfold Memory.size at hc; omega), if_neg (by unfold Memory.size at hc; omega)] at h
    rcases h with ⟨i, h⟩ | ⟨i, h⟩ <;> split_ifs at h
  unfold memWrite
  cases h : locate a with
  | tile i =>
    by_cases hb : s.status.busy = true
    · simp [hb]
    · exact .inr (.inr (.inl ⟨by simpa using hb, hsize (.inl ⟨i, h⟩), by simp [hb]⟩))
  | record i =>
    by_cases hb : s.status.busy = true
    · simp [hb]
    · exact .inr (.inr (.inl ⟨by simpa using hb, hsize (.inr ⟨i, h⟩), by simp [hb]⟩))
  | levelHi =>
    by_cases hb : s.status.busy = true
    · simp [hb]
    · exact .inr (.inr (.inr (.inl ⟨by simpa using hb, _, by simp [hb]; rfl⟩)))
  | levelLo =>
    by_cases hb : s.status.busy = true
    · simp [hb]
    · exact .inr (.inr (.inr (.inl ⟨by simpa using hb, _, by simp [hb]; rfl⟩)))
  | cmd => exact .inl ⟨rfl, rfl⟩
  | outside => exact .inr (.inr (.inr (.inr ⟨rfl, rfl⟩)))
  | _ => exact .inr (.inl rfl)

/-- What serving a host action can answer as a next state, said once. -/
theorem serve_next {a : HostAction} {s t : State} (h : serve a s = .next t) :
    (∃ offset v u, a = .read offset ∧ memRead offset s = .next (v, u) ∧ t = u.reply offset v) ∨
    (∃ offset v, a = .write offset v ∧ memWrite offset v s = .next t) ∨
    (a = .wait ∧ t = waitRound s) ∨
    (a = .hardReset ∧ t = s.resetEngine) := by
  cases a with
  | read offset =>
    simp only [serve, readAccess] at h
    cases hr : memRead offset s with
    | next r => obtain ⟨v, u⟩ := r; rw [hr] at h; injection h with h; exact .inl ⟨offset, v, u, rfl, hr, h.symm⟩
    | fault r => rw [hr] at h; cases h
    | refused r => rw [hr] at h; cases h
  | write offset v => exact .inr (.inl ⟨offset, v, rfl, h⟩)
  | wait => injection h with h; exact .inr (.inr (.inl ⟨rfl, h.symm⟩))
  | hardReset => injection h with h; exact .inr (.inr (.inr ⟨rfl, h.symm⟩))

/-- What a step can be: the engine's own, a host action, or nothing. -/
theorem step_cases (s : State) :
    (s.status.busy = true ∧ (s.delay = 0 ∨ s.script = []) ∧ step s = engineStep s) ∨
    (s.script = [] ∧ s.status.busy = false ∧ step s = .next s) ∨
    (∃ a rest, s.script = a :: rest ∧ (s.status.busy = false ∨ s.delay ≠ 0) ∧ step s = serve a (s.consume rest)) := by
  unfold step engineMoves hostStep
  cases hb : s.status.busy <;> cases hs : s.script <;> by_cases hd : s.delay = 0 <;> simp [hd]

end Sys2Proof.Machine
end

