-- ==== Sys2Proof/Tests/Slice0.lean ====
section
/-! SUPPORT. The model's own tests: decoding from words written out from R70, the smoke test of well-formedness, a few values of 95_test_vectors.md, and for every statement with hypotheses a named witness that meets them. -/

namespace Sys2Proof.Tests

open Sys2Proof.Machine

/-! ### Builders -/

/-- Buffers in canonical form, from the bytes of TILE and of REC. -/
def buffers (tile record : Nat → Byte) : Memory :=
  (List.range 267).map (fun a => (a, if a < 192 then tile a else record (a - 192)))

/-- An IDLE engine with these buffers and this level. -/
def idle (tile record : Nat → Byte) (level : Nat) : State :=
  { State.reset with mem := buffers tile record, level := BitVec.ofNat 16 level }

/-- The same with a command in flight. -/
def running (op : Op) (tile record : Nat → Byte) (level : Nat) : State :=
  { idle tile record level with op := op, status := .running }

/-- A tile from the colour of each pixel. -/
def paint (colour : Nat → Nat × Nat × Nat) (i : Nat) : Byte :=
  let c := colour (i / 3)
  BitVec.ofNat 8 (if i % 3 = 0 then c.1 else if i % 3 = 1 then c.2.1 else c.2.2)

/-- The tile of E1 (and S6): 64 times (200, 100, 50). -/
def flatTile : Nat → Byte := paint (fun _ => (200, 100, 50))

/-- The tile of E3: 64 times (100, 100, 100). -/
def greyTile : Nat → Byte := fun _ => 100

/-- The tile of E4 (and S7): the checkerboard. -/
def checkerboard : Nat → Byte :=
  paint (fun p => if (p % 8 + p / 8) % 2 = 0 then (0, 0, 0) else (255, 255, 255))

/-- The tile of O1. -/
def overflowTile : Nat → Byte := paint (fun p => if p = 1 then (0, 0, 255) else (1, 0, 253))

/-- The tile of O3. -/
def silentTile : Nat → Byte := paint (fun p => if p = 0 then (0, 0, 255) else (1, 0, 253))

/-- The tile of O4. -/
def negativeTile : Nat → Byte :=
  paint (fun p => if p = 0 then (1, 0, 255) else if p = 1 then (0, 1, 253) else if p = 2 then (0, 3, 254) else (0, 0, 252))

/-- A record from its first bytes, the rest one value. -/
def recordOf (front : List Byte) (rest : Byte) (j : Nat) : Byte := front.getD j rest

/-- The record of E1. -/
def flatRecord : Nat → Byte :=
  recordOf [0x7D, 0x7C, 0x57, 0x56, 0xB7, 0xB6, 0x07, 0x30, 0x30, 0x30, 0x30, 0x30] 0x00

/-- The ERROR state of vector O1: ERRCODE 0x01, ERRINFO 0x0C. -/
def failed : State :=
  { idle flatTile flatRecord 16 with status := .failed, errcode := 0x01, errinfo := 0x0C }

/-- The state a step answers, or `d`. -/
def after (o : Host.Outcome State Fault Refusal) (d : State) : State :=
  match o with
  | .next t => t
  | .fault _ => d
  | .refused _ => d

/-- The TILE of a state, as numbers, its first `n` bytes. -/
def tileFront (s : State) (n : Nat) : List Nat := (List.range n).map (fun i => (s.tileByte i).toNat)

/-- The REC of a state, as numbers, its first `n` bytes. -/
def recFront (s : State) (n : Nat) : List Nat := (List.range n).map (fun j => (s.recByte j).toNat)

theorem buffers_wf (tile record : Nat → Byte) : (buffers tile record).wf := by
  simp [Memory.wf, buffers, Function.comp_def]

/-! ### Decoding, from words written out from R70 -/

theorem test_decode_nop : decodeByte 0b00000000 = .ok .nop := by decide
theorem test_decode_enc : decodeByte 0b00000001 = .ok .enc := by decide
theorem test_decode_dec : decodeByte 0b00000010 = .ok .dec := by decide
theorem test_decode_srst : decodeByte 0b11111111 = .ok .srst := by decide
theorem test_decode_reserved_low : decodeByte 0x03 = .error (.reservedCommand 0x03) := by decide
theorem test_decode_reserved_high : decodeByte 0xFE = .error (.reservedCommand 0xFE) := by decide
theorem test_decode_nothing : decode [] = .error .noByte := by decide
theorem test_table_word : decodeTableWord 8 0xFF = some .srst := by decide
theorem test_table_rows_disjoint :
    opcodeTable.Pairwise (fun r r' => r.pattern &&& r'.mask ≠ r'.pattern &&& r.mask) := by decide

/-! ### The smoke test of well-formedness: each check refuses an ill-formed term -/

theorem test_wf_read_refused : HostAction.wf (.read 0x200) = false := by decide
theorem test_wf_write_refused : HostAction.wf (.write 0x200 0) = false := by decide
theorem test_wf_script_refused : scriptWf [.read 0x1FF, .write 0x3FF 1] = false := by decide
theorem test_wf_script_accepted : scriptWf (.hardReset :: Script.setLevel 600 ++ Script.wait) = true := by decide
theorem test_wf_memory_refused : ¬ Memory.wf [(1, 0), (0, 0)] := by decide

/-! ### The commands (95_test_vectors.md) -/

/-- T8 line 2: NOP in DONE leaves STATUS 0x02. -/
theorem test_nop_done :
    (after (memWrite 0x110 0x00 { idle flatTile flatRecord 16 with status := .finished }) failed).status = .finished := by
  decide

/-- E1: the record of a flat tile at LEVEL 16. -/
theorem test_enc_flat :
    recFront (after (exec .enc (running .enc flatTile (fun _ => 0xAA) 16)) failed) 13
      = [0x7D, 0x7C, 0x57, 0x56, 0xB7, 0xB6, 0x07, 0x30, 0x30, 0x30, 0x30, 0x30, 0x00] := by decide +kernel

/-- O1: PackingOverflow, ERRINFO 0x0C. -/
theorem test_enc_overflow :
    let t := after (exec .enc (running .enc overflowTile (fun _ => 0xAA) 0)) failed
    (t.status, t.errcode, t.errinfo) = (.failed, 0x01, 0x0C) := by decide +kernel

/-- E1 decoded: (199, 100, 49) at the first and the last pixel. -/
theorem test_dec_flat :
    let t := after (exec .dec (running .dec (fun _ => 0xAA) flatRecord 16)) failed
    (t.status, tileFront t 3, (t.tileByte 189).toNat) = (.finished, [0xC7, 0x64, 0x31], 0xC7) := by decide +kernel

/-- X1: the first two pixels, the first of them clamped. -/
theorem test_dec_deltas :
    tileFront (after (exec .dec (running .dec (fun _ => 0) (recordOf [0xFF, 0, 0xFF, 0, 0xFF, 0, 0, 0, 0, 0, 0] 0xFF) 16)) failed) 6
      = [255, 120, 255, 255, 193, 255] := by decide +kernel

/-- T8 line 14: SRST leaves ERROR. -/
theorem test_srst_error :
    let t := after (memWrite 0x110 0xFF failed) failed
    (t.status, t.level, t.errcode, t.errinfo) = (.idle, 16, 0x00, 0x00) := by decide

/-- T8 lines 8 and 9: in BUSY other bytes are ignored. -/
theorem test_busy_ignores :
    (after (memWrite 0x110 0x03 (running .enc flatTile flatRecord 16)) failed).status = .running := by decide

/-! ### The function units (95_test_vectors.md T2 to T4) -/

theorem test_rgb_to_yuv : rgbToYuv 200 100 50 = ⟨1242 / 10, 861 / 10, 18205 / 100⟩ := by decide +kernel
theorem test_yuv_to_rgb : yuvToRgb ⟨255, 255, 255⟩ = ⟨433054 / 1000, 120634 / 1000, 480044 / 1000⟩ := by decide +kernel
theorem test_to_u8_truncates : toU8 (1999781 / 10000) = 199 := by decide +kernel
theorem test_stat_clamped : statOf [254331 / 1000, 511 / 2] = ⟨254, 255⟩ := by decide +kernel
theorem test_quant_y : quant .y (1242 / 10) ⟨124, 125⟩ = 3 := by decide +kernel
theorem test_quant_beyond : quant .u (511 / 2) ⟨254, 255⟩ = 5 := by decide +kernel
theorem test_dequant : dequant .y 7 ⟨100, 107⟩ = 1549 / 15 := by decide +kernel
theorem test_interp_odd_level : interpFlags 17 ⟨8, 16, 16⟩ = ⟨true, true, true⟩ := by decide
theorem test_delta_negative : deltaEnc .u 5 0 = -1 := by decide
theorem test_bilerp : bilerp ⟨0, 255, 255, 0⟩ 1 1 = 3060 / 49 := by decide +kernel
theorem test_host_tile_origin : (HostImage.originX 24 4, HostImage.originY 24 4) = (8, 8) := by decide
theorem test_host_be32 : HostImage.be32 16769025 = [0x00, 0xFF, 0xE0, 0x01] := by decide

/-! ### Witnesses: a concrete state and operands that meet the hypotheses of each statement -/

theorem witness_StepRunsTheDecodedCommand :
    engineMoves (running .enc flatTile flatRecord 16) = true ∧ (running .enc flatTile flatRecord 16).op = .enc ∧
    engineMoves (running .dec flatTile flatRecord 16) = true ∧ (running .dec flatTile flatRecord 16).op = .dec ∧
    (∀ v ∈ [0x00, 0x01, 0x02, 0xFF],
      let s := { idle flatTile flatRecord 16 with script := [.write 0x110 v] }
      engineMoves s = false ∧ s.script = .write 0x110 v :: [] ∧ s.status.err = false ∧ s.status.busy = false) := by decide

theorem witness_FetchWordRunsNext : State.reset.status.busy = false → State.reset.delay = 0 := by decide

theorem witness_EncAndDecAreAccepted : State.reset.status.busy = false ∧ State.reset.status.err = false := by decide

theorem witness_CommandsIgnoredInBusyAndError :
    (running .enc flatTile flatRecord 16).status.busy = true ∧ failed.status.err = true ∧ (0xFE : Byte) ≠ 0xFF := by decide

theorem witness_EncWritesTheRecord :
    (idle flatTile flatRecord 16).mem.wf ∧
      ∀ j, 7 ≤ j → j ≤ 74 → FitsByte (packedSum (idle flatTile flatRecord 16).tileByte 16 j) := by
  refine ⟨buffers_wf _ _, ?_⟩
  have h : ∀ j < 75, 7 ≤ j → FitsByte (packedSum (idle flatTile flatRecord 16).tileByte 16 j) := by decide +kernel
  exact fun j h7 h74 => h j (by omega) h7

theorem witness_EncOverflowReportsTheFirstByte :
    let s := idle overflowTile flatRecord 0
    s.mem.wf ∧ ¬ FitsByte (packedSum s.tileByte s.levelNat 12) ∧
      ∀ i, 7 ≤ i → i < 12 → FitsByte (packedSum s.tileByte s.levelNat i) := by
  refine ⟨buffers_wf _ _, by decide +kernel, ?_⟩
  have h : ∀ i < 12, 7 ≤ i →
      FitsByte (packedSum (idle overflowTile flatRecord 0).tileByte (idle overflowTile flatRecord 0).levelNat i) := by
    decide +kernel
  exact fun i h7 h12 => h i h12 h7

theorem witness_EncDependsOnTileAndLevel :
    let s := idle greyTile flatRecord 16
    let s' := { running .dec greyTile greyTile 16 with draws := 9 }
    s.mem.wf ∧ s'.mem.wf ∧ SameTile s s' ∧ s'.level = s.level :=
  ⟨buffers_wf _ _, buffers_wf _ _, by decide +kernel, rfl⟩

theorem witness_LevelLeavesTheStatsAlone :
    (encodeBlock flatTile 0).2.isOk = true ∧ (encodeBlock flatTile 65535).2.isOk = true := by decide +kernel

theorem witness_LevelsFrom511BehaveAlike : 511 ≤ 511 := by decide

/-- At LEVEL 0, where no channel is flagged, and at LEVEL 1, the least that flags a range of 0. -/
theorem witness_FlatGreyTileIsExact :
    ((idle greyTile flatRecord 0).mem.wf ∧ ∀ i < 192, (idle greyTile flatRecord 0).tileByte i = 100) ∧
    ((idle greyTile flatRecord 1).mem.wf ∧ (∀ i < 192, (idle greyTile flatRecord 1).tileByte i = 100) ∧
      (after (exec .enc (idle greyTile flatRecord 1)) failed).recByte 6 = 7) :=
  ⟨⟨buffers_wf _ _, by decide +kernel⟩, buffers_wf _ _, by decide +kernel, by decide +kernel⟩

theorem witness_DecWritesTheTile :
    (idle flatTile flatRecord 16).mem.wf ∧ ValidRecord (idle flatTile flatRecord 16).recByte :=
  ⟨buffers_wf _ _, by decide +kernel⟩

/-- The records of X5, one per check, and the boundary of the flags check. -/
theorem witness_DecRejectsTheFirstBadField :
    ¬ ValidRecord (idle flatTile (recordOf [0x10, 0x11, 0, 1, 0, 1, 8] 0) 16).recByte ∧
    ¬ ValidRecord (idle flatTile (recordOf [0x11, 0x11, 0, 1, 0, 1, 8] 0) 16).recByte ∧
    ¬ ValidRecord (idle flatTile (recordOf [0x11, 0x11, 1, 1, 0, 1, 0xFF] 0) 16).recByte ∧
    ¬ ValidRecord (idle flatTile (recordOf [0x11, 0x11, 1, 1, 1, 1, 8] 0) 16).recByte ∧
    ValidRecord (idle flatTile (recordOf [0x11, 0x11, 1, 1, 1, 1, 7] 0) 16).recByte := by decide +kernel

/-- X3: Y flagged, U and V not; the Y grid fields and the U and V corner fields differ. -/
theorem witness_DecIgnoresUnusedFields :
    let s := idle flatTile (recordOf [0xC8, 0x64, 0x80, 0x80, 0x80, 0x80, 4, 0x00, 0xF0, 0xF0, 0x00] 0x00) 16
    let s' := idle flatTile (recordOf [0xC8, 0x64, 0x80, 0x80, 0x80, 0x80, 4, 0x0F, 0xFF, 0xFF, 0x0F] 0xF0) 16
    s.mem.wf ∧ s'.mem.wf ∧ ValidRecord s.recByte ∧ (∀ j < 7, s'.recByte j = s.recByte j) ∧
    (∀ k < 4, packedField (s'.recByte (7 + k)) .y = packedField (s.recByte (7 + k)) .y) ∧
    (∀ p < 64, packedField (s'.recByte (11 + p)) .u = packedField (s.recByte (11 + p)) .u ∧
      packedField (s'.recByte (11 + p)) .v = packedField (s.recByte (11 + p)) .v) ∧
    (recordFlag s.recByte .y = true ∧ recordFlag s.recByte .u = false ∧ recordFlag s.recByte .v = false) :=
  ⟨buffers_wf _ _, buffers_wf _ _, by decide +kernel, by decide +kernel, by decide +kernel, by decide +kernel,
    by decide +kernel⟩

theorem witness_EncRecordsAlwaysDecode :
    (idle flatTile flatRecord 16).mem.wf ∧
      (after (exec .enc (idle flatTile flatRecord 16)) failed).status.done = true :=
  ⟨buffers_wf _ _, by decide +kernel⟩

/-- The checkerboard at LEVEL 16: every U and V code nominal, Y unflagged with range 255. -/
theorem witness_NominalCodesAreRecovered :
    (idle checkerboard flatRecord 16).mem.wf ∧
    (∀ p < 64, ∀ c ∈ [Channel.u, .v], 0 ≤ sourceCode checkerboard 16 p c ∧ sourceCode checkerboard 16 p c ≤ 3) ∧
    sourceFlag checkerboard 16 .y = false ∧ sourceMin checkerboard .y < sourceMax checkerboard .y :=
  ⟨buffers_wf _ _, by decide +kernel, by decide +kernel, by decide +kernel⟩

/-- The tile of O3 at LEVEL 0: ENC completes, every V code is nominal, and the U code of pixel 0 is 5. -/
theorem witness_NominalCodesAreRecovered_v :
    let s := idle silentTile flatRecord 0
    s.mem.wf ∧ (after (exec .enc s) failed).status.done = true ∧
    (∀ p < 64, 0 ≤ sourceCode silentTile 0 p .v ∧ sourceCode silentTile 0 p .v ≤ 3) ∧ sourceCode silentTile 0 0 .u = 5 :=
  ⟨buffers_wf _ _, by decide +kernel, by decide +kernel, by decide +kernel⟩

/-- A state of the invariant with BUSY set, and one with ERR set. -/
theorem inv_running (op : Op) (h : op ≠ .none) (script : List HostAction) :
    Inv { running op flatTile flatRecord 16 with script := script } where
  mem := buffers_wf _ _
  status := .inr (.inl rfl)
  op := ⟨fun _ => h, fun _ => rfl⟩
  error := ⟨rfl, rfl⟩
  prev := by show PrevLegal State.reset; decide
  delay := fun h => nomatch h

theorem inv_failed (script : List HostAction) : Inv { failed with script := script } where
  mem := buffers_wf _ _
  status := .inr (.inr (.inr rfl))
  op := by simp [OpLegal, failed, idle, Status.failed, State.reset]
  error := by simp [ErrorLegal, failed, Status.failed]
  prev := by show PrevLegal State.reset; decide
  delay := fun _ => rfl

theorem witness_StepKeepsTheInvariant :
    Inv { running .enc flatTile flatRecord 16 with script := [.wait] } ∧
      ∃ t, step { running .enc flatTile flatRecord 16 with script := [.wait] } = .next t :=
  ⟨inv_running .enc (by decide) _, _, rfl⟩

theorem witness_ErrorsAreStickyUntilReset :
    (∃ t, step { failed with script := [.write 0x110 0xFF] } = .next t) ∧
    (∃ t, step { failed with script := [.write 0x110 0x01] } = .next t) ∧ StatusLegal failed ∧ failed.status.err = true :=
  ⟨⟨_, rfl⟩, ⟨_, rfl⟩, .inr (.inr (.inr rfl)), rfl⟩

theorem witness_OnlyTheseStatusTransitions :
    StatusLegal State.reset ∧ (∃ t, step { State.reset with script := [.write 0x110 0x01] } = .next t ∧ t.status = .running) ∧
    (∃ t, step { State.reset with script := [.write 0x110 0x03] } = .next t ∧ t.status = .failed) ∧
    (∃ t, step { State.reset with script := [.hardReset] } = .next t ∧ t.status = .idle) ∧
    (∃ t, step (running .dec flatTile flatRecord 16) = .next t ∧ t.status = .finished) :=
  ⟨.inl rfl, ⟨_, rfl, rfl⟩, ⟨_, rfl, rfl⟩, ⟨_, rfl, rfl⟩,
    ⟨after (exec .dec (running .dec flatTile flatRecord 16)) failed, rfl, by decide +kernel⟩⟩

theorem witness_CommandInFlightIsUndisturbed :
    (running .enc flatTile flatRecord 16).status.busy = true ∧
    (∀ a ∈ [HostAction.write 0x000 0xAA, .write 0x113 0x00, .write 0x110 0x02, .wait, .read 0x005], ¬ IsReset a) ∧
    ∃ t, serveAll [.write 0x000 0xAA, .write 0x113 0x00, .write 0x110 0x02, .wait, .read 0x005]
      (running .enc flatTile flatRecord 16) = .next t :=
  ⟨rfl, by decide, _, rfl⟩

theorem witness_BusyAlwaysEnds :
    Inv { running .enc flatTile flatRecord 16 with script := [.read 0x1FF, .wait] } ∧
      (running .enc flatTile flatRecord 16).status.busy = true ∧ scriptWf [.read 0x1FF, .wait] = true :=
  ⟨inv_running .enc (by decide) _, rfl, by decide⟩

theorem witness_WaitReturnsDoneOrError :
    Inv { running .dec flatTile flatRecord 16 with script := .wait :: Script.rdTile } ∧
      (running .dec flatTile flatRecord 16).status.busy = true :=
  ⟨inv_running .dec (by decide) _, rfl⟩

theorem witness_StepsAreSafe : Inv { failed with script := [.write 0x1FF 0x55] } ∧ scriptWf [.write 0x1FF 0x55] = true :=
  ⟨inv_failed _, by decide⟩

/-- The map at the boundaries of its ranges (T8): where each clause of the port's statements begins and ends. -/
theorem witness_ReadsReturnTheMap :
    [0x000, 0x0BF, 0x0C0, 0x10A, 0x10B, 0x10F, 0x110, 0x111, 0x112, 0x113, 0x114, 0x115, 0x116, 0x1FF, 0x200].map locate
      = [.tile 0, .tile 191, .record 0, .record 74, .reserved, .reserved, .cmd, .status, .levelHi, .levelLo, .errcode,
        .errinfo, .reserved, .reserved, .outside] := by decide

theorem witness_WritesFollowTheMap :
    (idle flatTile flatRecord 16).mem.wf ∧ (idle flatTile flatRecord 16).status.busy = false ∧
      (running .enc flatTile flatRecord 16).status.busy = true := ⟨buffers_wf _ _, rfl, rfl⟩

/-- T8 lines 26 and 27: LEVEL 16, LEVEL_HI 0x02 gives 528, then LEVEL_LO 0x58 gives 600. -/
theorem witness_LevelIsBigEndian :
    let t := after (memWrite 0x112 0x02 (idle flatTile flatRecord 16)) failed
    t.level = 528 ∧ (after (memWrite 0x113 0x58 t) failed).level = 600 := by decide

theorem witness_OffsetsOutsideAreRefused :
    memRead 0x200 State.reset = .refused (.offsetOutsideEngine 0x200) := rfl

theorem witness_ReservedCommandRaisesIllegalCommand :
    (∀ v ∈ [(0x03 : Byte), 0xFE],
      0x03 ≤ v.toNat ∧ v.toNat ≤ 0xFE ∧ (after (memWrite 0x110 v State.reset) State.reset).errinfo = v) := by decide

/-- The same bytes with BUSY set and with ERR set: nothing changes. -/
theorem witness_ReservedCommandRaisesIllegalCommand_ignored :
    (running .enc flatTile flatRecord 16).status.busy = true ∧ failed.status.err = true ∧
    ∀ v ∈ [(0x03 : Byte), 0xFE],
      memWrite 0x110 v (running .enc flatTile flatRecord 16) = .next (running .enc flatTile flatRecord 16) ∧
      memWrite 0x110 v failed = .next failed := by
  refine ⟨rfl, rfl, ?_⟩
  intro v hv
  simp only [List.mem_cons, List.not_mem_nil, or_false] at hv
  rcases hv with rfl | rfl <;> exact ⟨rfl, rfl⟩

/-- A state whose ENC ends without DONE (O1). -/
theorem witness_UnspecifiedBytesAreFreeDraws :
    (idle overflowTile flatRecord 0).mem.wf ∧
      (after (exec .enc (idle overflowTile flatRecord 0)) State.reset).status = .failed :=
  ⟨buffers_wf _ _, by decide +kernel⟩

theorem witness_SampleBounds :
    (rgbToYuv 0 0 255).u = 511 / 2 ∧ (rgbToYuv 255 255 0).u = 1 / 2 ∧ (rgbToYuv 255 1 1).v = 255 := by decide +kernel

theorem witness_IntegerFormOfQuant :
    (0 : Int) < 1000 ∧ 0 < (Stat.mk 124 125).range ∧ (Stat.mk 124 125).min * 1000 ≤ 124200 := by decide

theorem witness_QuantiserLaws :
    (Stat.mk 100 100).min ≤ (Stat.mk 100 100).max ∧ 0 < (Stat.mk 100 107).range ∧ (100 : Rat) ≤ (107 : Rat) := by
  decide +kernel

/-- T6: the U code of pixel 1 of the tile of O1 is 5. -/
theorem witness_EncodeCodeBounds : (sourceCodes overflowTile 0 1).u = 5 := by decide +kernel

theorem witness_DeltaCoderIsInvertible : Nominal ⟨15, 3, 3⟩ ∧ Nominal ⟨0, 0, 0⟩ := by decide

theorem witness_PackingChecksBothEnds :
    FitsByte ((15 * 4 + 3) * 4 + 3) ∧ ¬ FitsByte ((15 * 4 + 3) * 4 + 4) ∧ ¬ FitsByte ((0 * 4 - 1) * 4 + 3) := by decide

theorem witness_StreamRoundTrip : HostImage.WellFormedImage ⟨8, 16, List.replicate 2 (List.replicate 75 0)⟩ := by decide

theorem witness_TileOriginsAreRowMajor : 0 < 2 ∧ 10 < 64 ∧ HostImage.rasterElement 16 3 10 = 154 := by decide

theorem witness_PaddingIsBlackOnTheRightAndBottom :
    (List.replicate 100 HostImage.black).length = 10 * 10 ∧ HostImage.padUp 10 = 16 := by decide

theorem witness_EnginesAreIndependent :
    ∃ t, Platform.step 1 [State.reset, failed] = .next t := ⟨_, rfl⟩

theorem witness_StatusReadsOneOfFour : StatusLegal failed := .inr (.inr (.inr rfl))

theorem witness_CornerBytesNeverOverflow : (0 : Nat) < 4 := by decide

/-- The ends of the two reserved ranges. -/
theorem witness_ReservedOffsetsReadZeroAndIgnoreWrites :
    ∀ a ∈ [0x10B, 0x10F, 0x116, 0x1FF], (0x10B ≤ a ∧ a ≤ 0x10F) ∨ (0x116 ≤ a ∧ a ≤ 0x1FF) := by decide

theorem witness_WrittenBytesReadBack :
    (idle flatTile flatRecord 16).mem.wf ∧ (idle flatTile flatRecord 16).status.busy = false ∧ 266 < 267 :=
  ⟨buffers_wf _ _, rfl, by decide⟩

/-- One state after each of the three errors (R74, R75). -/
theorem witness_RaisingAnError :
    let s := running .enc flatTile flatRecord 16
    ((s.raise (.packingOverflow 74)).errcode = 0x01 ∧ (s.raise (.packingOverflow 74)).errinfo = 74) ∧
    ((s.raise (.formatError 6)).errcode = 0x02 ∧ (s.raise (.formatError 6)).errinfo = 6) ∧
    ((s.raise (.illegalCommand 0xFE)).errcode = 0x03 ∧ (s.raise (.illegalCommand 0xFE)).errinfo = 0xFE) := by decide

theorem witness_IntegerFormsOfTheTransform :
    (255 ≤ 255 ∧ (0 : Int) < 1) ∧ toU8 ((510 : Int) / (2 : Int)) = 255 ∧ toU8 ((509 : Int) / (2 : Int)) = 254 := by
  decide +kernel

/-- R102, R103, their corner cases: below 0, at the two ends, and above 255. -/
theorem witness_OutputConversion :
    ((-3 : Rat) < 0 ∧ toU8 (-3) = 0) ∧ (255 < (300 : Rat) ∧ toU8 300 = 255) ∧ clamp255 0 = 0 ∧ clamp255 255 = 255 := by
  decide +kernel

/-- A tile with a U sample above 255 (O1), where 256 is clamped, and one without (E1). -/
theorem witness_StatsOfATile :
    (255 < sourceSample overflowTile 1 .u ∧ (tileStats overflowTile).u = ⟨254, 255⟩) ∧
      (sourceSample flatTile 0 .u ≤ 255 ∧ (tileStats flatTile).u = ⟨86, 87⟩) := by decide +kernel

/-- The thresholds at the ends of the range and of the three level clauses. -/
theorem witness_InterpFlagThresholds :
    (∀ c, 0 ≤ (Triple.mk 255 0 255 : Triple Int).get c ∧ (Triple.mk 255 0 255 : Triple Int).get c ≤ 255) ∧
      interpFlags 1 ⟨255, 0, 255⟩ = ⟨false, true, false⟩ ∧ interpFlags 256 ⟨255, 255, 255⟩ = ⟨false, true, true⟩ ∧
      interpFlags 511 ⟨255, 255, 255⟩ = ⟨true, true, true⟩ :=
  ⟨fun c => by cases c <;> decide, by decide, by decide, by decide⟩

theorem witness_BilerpLaws : 7 ≤ 7 ∧ 63 < 64 ∧ bilerp ⟨100, 114, 107, 121⟩ 3 2 = 108 := by decide +kernel

/-- R223: a host whose `WAIT` read 0x04 reads the error and resets; R90: it can assert the code it read. -/
theorem test_host_after_wait :
    Script.afterWait 0x04 Script.rdRec = [.read 0x114, .read 0x115, .write 0x110 0xFF] ∧
      Script.expect (after (readAccess 0x114 failed) failed) 0 0x01 = true := by decide

/-- O4: a sum of -1 at pixel 1 ends ENC with PackingOverflow and REC index 12. -/
theorem test_enc_negative_sum :
    packedSum negativeTile 0 12 = -1 ∧
      (after (exec .enc (idle negativeTile flatRecord 0)) State.reset).errcode = 0x01 ∧
      (after (exec .enc (idle negativeTile flatRecord 0)) State.reset).errinfo = 0x0C := by decide +kernel

/-- One 8 by 8 raster. -/
def blackRaster : HostImage.Raster := ⟨8, 8, List.replicate 64 HostImage.black⟩

/-- R186: an encode first sets LEVEL, once, to 65535 for a greater level, and goes to its first tile. -/
theorem test_host_sets_level :
    let run := (HostImage.HostRun.start State.reset).advance (.encode blackRaster 70000)
    run.engine.script = [.write 0x112 0xFF, .write 0x113 0xFF] ∧ run.stage = .next ∧ run.tile = 0 := by decide

/-- R186: after a `WAIT` that read 0x04 the host reads ERRCODE and ERRINFO, issues SRST, and stops with the error. -/
theorem test_host_stops :
    let run : HostImage.HostRun := ⟨{ failed with replies := [(0x111, 0x04)] }, 3, [], .awaited⟩
    let read : HostImage.HostRun := ⟨{ failed with replies := [(0x115, 0x0C), (0x114, 0x01)] }, 3, [], .errorRead⟩
    (run.advance (.encode blackRaster 0)).engine.script = [.read 0x114, .read 0x115, .write 0x110 0xFF] ∧
      (read.advance (.encode blackRaster 0)).stage = .stopped (.engine 3 (.packingOverflow 12)) := by decide

theorem inv_idle : Inv (idle flatTile flatRecord 16) where
  mem := buffers_wf _ _
  status := .inl rfl
  op := by simp [OpLegal, idle, State.reset]
  error := ⟨rfl, rfl⟩
  prev := by show PrevLegal State.reset; decide
  delay := fun _ => rfl

theorem witness_ImageProgramsDriveTheEngine :
    Inv (idle flatTile flatRecord 16) ∧ (idle flatTile flatRecord 16).status.busy = false ∧
      (idle flatTile flatRecord 16).status.err = false ∧ (idle flatTile flatRecord 16).script = [] ∧
      HostImage.encodable blackRaster = true :=
  ⟨inv_idle, rfl, rfl, rfl, by decide⟩

/-- A raster of two tiles. -/
def wideRaster : HostImage.Raster := ⟨16, 8, List.replicate 128 HostImage.black⟩

/-- R188: engine 0 has just read back tile 1, and tile 0 is still with engine 1: the record goes to place 1, and no record
can be written to the stream yet; with place 0 filled as well, both are written in order. -/
theorem test_team_places :
    let job : HostImage.Job := .encode wideRaster 16
    let team : Platform.ImageTeam :=
      ⟨[⟨{ failed with replies := List.replicate 75 (0x0C0, 7) }, 1, [], .read⟩, ⟨running .enc flatTile flatRecord 16, 0, [], .awaited⟩],
        [none, none], .next⟩
    ∃ after, team.step job (.work 0) = .next after ∧ after.places = [none, some (List.replicate 75 7)] ∧
      Platform.framed after.places = [] ∧ Platform.framed [some [5], some [6], none, some [8]] = [[5], [6]] :=
  ⟨_, rfl, by decide, by decide, by decide⟩

/-- R188: a free engine is given any tile, and then works on that one; the other engine is as it was. -/
theorem test_team_gives :
    let job : HostImage.Job := .encode wideRaster 16
    let free : HostImage.HostRun := ⟨idle flatTile flatRecord 16, 0, [], .next⟩
    ∃ after given, Platform.ImageTeam.step job (.give 1 1) ⟨[free, free], [none, none], .next⟩ = .next after ∧
      after.workers = [free, given] ∧ given.tile = 1 ∧ given.stage = .awaited :=
  ⟨_, _, rfl, rfl, rfl, rfl⟩

/-- Two engines, an image with a stream, and an owner for each of its tiles. -/
theorem witness_ImageOverSeveralEngines :
    (∀ s ∈ [idle flatTile flatRecord 16, idle flatTile flatRecord 16],
      Inv s ∧ s.status.busy = false ∧ s.status.err = false ∧ s.script = []) ∧
    (HostImage.Job.encode wideRaster 16).count = 2 ∧ (∀ i < 2, 1 - i < 2) ∧
    (Platform.ImageTeam.start (.encode wideRaster 16) [idle flatTile flatRecord 16]).stage = .next := by
  refine ⟨?_, by decide, by decide, by decide⟩
  intro s hs
  have : s = idle flatTile flatRecord 16 := by simpa using hs
  subst this
  exact ⟨inv_idle, rfl, rfl, rfl⟩

end Sys2Proof.Tests
end

section
/-! The samples, the stats and the codes of a tile: their bounds (R105, R110 to R113, R125). -/

namespace Sys2Proof.Machine

/-- How far a sample can exceed 255: not at all for Y, by at most 1/2 for U and V (R105). -/
def overshoot : Channel → Rat
  | .y => 0
  | .u => 1 / 2
  | .v => 1 / 2

/-- The greatest code of a channel: 15 for Y, 5 for U and V (R125). -/
def codeTop : Channel → Int
  | .y => 15
  | .u => 5
  | .v => 5

/-- Every component is a code its channel can have (R125). -/
def CodesLegal (q : Triple Int) : Prop :=
  ∀ c, 0 ≤ q.get c ∧ q.get c ≤ codeTop c

theorem overshoot_nonneg (c : Channel) : 0 ≤ overshoot c := by
  cases c <;> norm_num [overshoot]

theorem overshoot_le_half (c : Channel) : overshoot c ≤ 1 / 2 := by
  cases c <;> norm_num [overshoot]

theorem prevLegal_iff (s : State) : PrevLegal s ↔ CodesLegal s.prev := by
  constructor
  · rintro ⟨hy, hu, hv⟩ c
    cases c
    · exact hy
    · exact hu
    · exact hv
  · exact fun h => ⟨h .y, h .u, h .v⟩

theorem codesLegal_startPrev : CodesLegal startPrev := by
  intro c; cases c <;> decide

/-! ### Samples -/

/-- Every sample is 0 to 255, or to 255.5 for U and V (R105). -/
theorem sourceSample_bounds (tile : Nat → Byte) (p : Nat) (c : Channel) :
    0 ≤ sourceSample tile p c ∧ sourceSample tile p c ≤ 255 + overshoot c := by
  have bound : ∀ b : Byte, (0 : Rat) ≤ (b.toNat : Rat) ∧ (b.toNat : Rat) ≤ 255 := fun b =>
    ⟨Nat.cast_nonneg _, by exact_mod_cast Nat.le_of_lt_succ b.isLt⟩
  obtain ⟨r0, r1⟩ := bound (tile (3 * p))
  obtain ⟨g0, g1⟩ := bound (tile (3 * p + 1))
  obtain ⟨b0, b1⟩ := bound (tile (3 * p + 2))
  cases c <;> simp only [sourceSample, overshoot] <;> constructor <;> linarith

/-- The least of a nonempty list of samples is one of them and exceeds none. -/
theorem leastSample_spec {l : List Rat} (hl : l ≠ []) : leastSample l ∈ l ∧ ∀ s ∈ l, leastSample l ≤ s := by
  cases l with
  | nil => exact absurd rfl hl
  | cons x xs => exact List.min?_eq_some_iff.mp List.min?_cons'

/-- The greatest of a nonempty list of samples is one of them and none exceeds it. -/
theorem greatestSample_spec {l : List Rat} (hl : l ≠ []) : greatestSample l ∈ l ∧ ∀ s ∈ l, s ≤ greatestSample l := by
  cases l with
  | nil => exact absurd rfl hl
  | cons x xs => exact List.max?_eq_some_iff.mp List.max?_cons'

/-! ### Stats -/

/-- The samples of a channel of a tile, pixel by pixel. -/
def channelSamples (tile : Nat → Byte) (c : Channel) : List Rat :=
  pixels.map (fun p => sourceSample tile p c)

theorem tileStats_get (tile : Nat → Byte) (c : Channel) :
    (tileStats tile).get c = statOf (channelSamples tile c) := by
  simp only [tileStats, Triple.get_ofFn, tileYuv_get, channelSamples]

theorem mem_channelSamples (tile : Nat → Byte) (c : Channel) {p : Nat} (hp : p < 64) :
    sourceSample tile p c ∈ channelSamples tile c :=
  List.mem_map_of_mem (List.mem_range.mpr hp)

theorem channelSamples_ne_nil (tile : Nat → Byte) (c : Channel) : channelSamples tile c ≠ [] :=
  List.ne_nil_of_mem (mem_channelSamples tile c (p := 0) (by decide))

theorem channelSamples_bounds {tile : Nat → Byte} {c : Channel} {s : Rat} (h : s ∈ channelSamples tile c) :
    0 ≤ s ∧ s ≤ 255 + overshoot c := by
  obtain ⟨p, -, rfl⟩ := List.mem_map.mp h
  exact sourceSample_bounds tile p c

/-- The minimum of a channel is the floor of its least sample (R110). -/
theorem sourceMin_eq (tile : Nat → Byte) (c : Channel) :
    sourceMin tile c = (leastSample (channelSamples tile c)).floor := by
  rw [sourceMin, tileStats_get]; rfl

/-- The maximum of a channel is the ceiling of its greatest sample, or 255 where that is above (R111). -/
theorem sourceMax_eq (tile : Nat → Byte) (c : Channel) :
    sourceMax tile c = min (greatestSample (channelSamples tile c)).ceil 255 := by
  have hmem := (greatestSample_spec (channelSamples_ne_nil tile c)).1
  have hceil : (greatestSample (channelSamples tile c)).ceil ≤ 256 := by
    rw [Rat.ceil_le_iff]
    have := (channelSamples_bounds hmem).2
    have := overshoot_le_half c
    push_cast
    linarith
  rw [sourceMax, tileStats_get]
  show (if (greatestSample (channelSamples tile c)).ceil = 256 then 255 else _) = _
  split <;> omega

theorem sourceMin_nonneg (tile : Nat → Byte) (c : Channel) : 0 ≤ sourceMin tile c := by
  rw [sourceMin_eq, Rat.le_floor_iff]
  exact_mod_cast (channelSamples_bounds (leastSample_spec (channelSamples_ne_nil tile c)).1).1

theorem sourceMax_le (tile : Nat → Byte) (c : Channel) : sourceMax tile c ≤ 255 := by
  rw [sourceMax_eq]; exact min_le_right _ _

/-- No sample is below the minimum (R113). -/
theorem sourceMin_le_sourceSample (tile : Nat → Byte) (c : Channel) {p : Nat} (hp : p < 64) :
    (sourceMin tile c : Rat) ≤ sourceSample tile p c := by
  rw [sourceMin_eq]
  exact (Rat.floor_le _).trans ((leastSample_spec (channelSamples_ne_nil tile c)).2 _ (mem_channelSamples tile c hp))

/-- No sample is above the maximum by more than the clamp of R111 hides (R113). -/
theorem sourceSample_le_sourceMax (tile : Nat → Byte) (c : Channel) {p : Nat} (hp : p < 64) :
    sourceSample tile p c ≤ sourceMax tile c + overshoot c := by
  have hle := (greatestSample_spec (channelSamples_ne_nil tile c)).2 _ (mem_channelSamples tile c hp)
  have hceil : greatestSample (channelSamples tile c) ≤ _ := Rat.le_ceil
  have htop := (sourceSample_bounds tile p c).2
  have := overshoot_nonneg c
  rw [sourceMax_eq, Int.cast_min, min_add]
  exact le_min (by linarith) (by exact_mod_cast htop)

theorem sourceMin_le_sourceMax (tile : Nat → Byte) (c : Channel) : sourceMin tile c ≤ sourceMax tile c := by
  have hmin := sourceMin_le_sourceSample tile c (p := 0) (by decide)
  have hmax := sourceSample_le_sourceMax tile c (p := 0) (by decide)
  have := overshoot_le_half c
  have : (sourceMin tile c : Rat) < sourceMax tile c + 1 := by linarith
  exact Int.lt_add_one_iff.mp (by exact_mod_cast this)

/-! ### Codes -/

/-- A blend of four values within bounds is within them: the weights are not negative and add up to 49 (R145). -/
theorem blend_bounds {corner : Nat → Rat} {lo hi : Rat} (h : ∀ k, lo ≤ corner k ∧ corner k ≤ hi) {p : Nat} (hp : p < 64) :
    lo ≤ blend corner p ∧ blend corner p ≤ hi := by
  have hx : ((p % 8 : Nat) : Rat) ≤ 7 := by exact_mod_cast (by omega : p % 8 ≤ 7)
  have hy : ((p / 8 : Nat) : Rat) ≤ 7 := by exact_mod_cast (by omega : p / 8 ≤ 7)
  have hx0 : (0 : Rat) ≤ ((p % 8 : Nat) : Rat) := Nat.cast_nonneg _
  have hy0 : (0 : Rat) ≤ ((p / 8 : Nat) : Rat) := Nat.cast_nonneg _
  unfold blend
  generalize ((p % 8 : Nat) : Rat) = x at *
  generalize ((p / 8 : Nat) : Rat) = y at *
  have w0 : 0 ≤ (7 - x) * (7 - y) := mul_nonneg (by linarith) (by linarith)
  have w1 : 0 ≤ x * (7 - y) := mul_nonneg hx0 (by linarith)
  have w2 : 0 ≤ (7 - x) * y := mul_nonneg (by linarith) hy0
  have w3 : 0 ≤ x * y := mul_nonneg hx0 hy0
  constructor
  · rw [le_div_iff₀ (by norm_num)]
    linarith [mul_le_mul_of_nonneg_left (h 0).1 w0, mul_le_mul_of_nonneg_left (h 1).1 w1,
      mul_le_mul_of_nonneg_left (h 2).1 w2, mul_le_mul_of_nonneg_left (h 3).1 w3]
  · rw [div_le_iff₀ (by norm_num)]
    linarith [mul_le_mul_of_nonneg_left (h 0).2 w0, mul_le_mul_of_nonneg_left (h 1).2 w1,
      mul_le_mul_of_nonneg_left (h 2).2 w2, mul_le_mul_of_nonneg_left (h 3).2 w3]

theorem cornerPixel_lt (k : Nat) : cornerPixel k < 64 := by
  unfold cornerPixel; split <;> decide

/-- The normalised value is at most 1 for Y and 3/2 for U and V (R113). -/
theorem norm_bounds {c : Channel} {v : Rat} {st : Stat} (hst : st.min ≤ st.max) (hlo : (st.min : Rat) ≤ v)
    (hhi : v ≤ st.max + overshoot c) : 0 ≤ norm v st ∧ norm v st ≤ 1 + overshoot c := by
  have hover := overshoot_nonneg c
  unfold norm
  split
  · exact ⟨le_refl 0, by linarith⟩
  · next hne =>
    have hrange : (1 : Rat) ≤ st.range := by exact_mod_cast (by unfold Stat.range at *; omega : 1 ≤ st.range)
    have hcast : (st.range : Rat) = st.max - st.min := Int.cast_sub _ _
    refine ⟨div_nonneg (by linarith) (by linarith), ?_⟩
    rw [div_le_iff₀ (by linarith)]
    linarith [mul_le_mul_of_nonneg_left hrange hover]

theorem quantScale_nonneg (c : Channel) : 0 ≤ quantScale c := by
  cases c <;> norm_num [quantScale]

/-- The greatest normalised value times the scale is still below the code after the greatest: 15.9 for Y, 5.85 for U
and V (R125). -/
theorem quantScale_lt_codeTop (c : Channel) : (1 + overshoot c) * quantScale c < ((codeTop c + 1 : Int) : Rat) := by
  cases c <;> norm_num [quantScale, overshoot, codeTop]

/-- A value no further out than a sample of the channel has a legal code (R125). -/
theorem quant_bounds {c : Channel} {v : Rat} {st : Stat} (hst : st.min ≤ st.max) (hlo : (st.min : Rat) ≤ v)
    (hhi : v ≤ st.max + overshoot c) : 0 ≤ quant c v st ∧ quant c v st ≤ codeTop c := by
  obtain ⟨h0, h1⟩ := norm_bounds hst hlo hhi
  have hscale := quantScale_nonneg c
  constructor
  · rw [quant, Rat.le_floor_iff]
    exact_mod_cast mul_nonneg h0 hscale
  · rw [quant, ← Int.lt_add_one_iff, Rat.floor_lt_iff]
    exact (mul_le_mul_of_nonneg_right h1 hscale).trans_lt (quantScale_lt_codeTop c)

theorem sourceCodeOf_bounds {tile : Nat → Byte} {c : Channel} {v : Rat} (hlo : (sourceMin tile c : Rat) ≤ v)
    (hhi : v ≤ sourceMax tile c + overshoot c) :
    0 ≤ sourceCodeOf tile c v ∧ sourceCodeOf tile c v ≤ codeTop c := by
  rw [← quant_tileStats]
  exact quant_bounds (sourceMin_le_sourceMax tile c) hlo hhi

/-- Every code ENC forms at a pixel is legal (R125). -/
theorem sourceCodes_legal (tile : Nat → Byte) (level : Nat) {p : Nat} (hp : p < 64) :
    CodesLegal (sourceCodes tile level p) := by
  intro c
  have hsample : ∀ p < 64, (sourceMin tile c : Rat) ≤ sourceSample tile p c ∧
      sourceSample tile p c ≤ sourceMax tile c + overshoot c := fun p hp =>
    ⟨sourceMin_le_sourceSample tile c hp, sourceSample_le_sourceMax tile c hp⟩
  rw [sourceCodes, Triple.get_ofFn, sourceCode]
  split
  · obtain ⟨hlo, hhi⟩ := blend_bounds (fun k => hsample (cornerPixel k) (cornerPixel_lt k)) hp
    exact sourceCodeOf_bounds hlo hhi
  · exact sourceCodeOf_bounds (hsample p hp).1 (hsample p hp).2

end Sys2Proof.Machine
end

section
/-! LEVEL values of 511 and above (R24), and the invariant of the machine: reset meets it and every step keeps it. -/

namespace Sys2Proof.Machine

/-! ### LEVEL -/

/-- No channel of a tile ranges over more than 255 (R112). -/
theorem sourceRange_le (tile : Nat → Byte) (c : Channel) : sourceMax tile c - sourceMin tile c ≤ 255 := by
  have := sourceMax_le tile c
  have := sourceMin_nonneg tile c
  omega

/-- From 511 on a level exceeds every U and V range and twice every Y range (R124). -/
theorem sourceFlag_of_le {level : Nat} (h : 511 ≤ level) (tile : Nat → Byte) (c : Channel) :
    sourceFlag tile level c = true := by
  have := sourceRange_le tile c
  cases c <;> simp only [sourceFlag, decide_eq_true_eq] <;> omega

theorem tileFlags_of_le {level : Nat} (h : 511 ≤ level) (tile : Nat → Byte) :
    tileFlags tile level = ⟨true, true, true⟩ :=
  Triple.ext_get fun c => by
    rw [tileFlags_get, sourceFlag_of_le h]
    cases c <;> rfl

/-- ENC reads LEVEL for the flags only (R150). -/
theorem encodeBlock_congr_flags {tile : Nat → Byte} {level level' : Nat}
    (h : tileFlags tile level = tileFlags tile level') : encodeBlock tile level = encodeBlock tile level' := by
  have hcorners : encodeCorners tile level = encodeCorners tile level' := by simp only [encodeCorners, h]
  have hgrid : gridCode tile level = gridCode tile level' := by funext p; simp only [gridCode, h]
  have hheader : encodeHeader tile level = encodeHeader tile level' := by simp only [encodeHeader, h]
  unfold encodeBlock
  rw [hcorners, hgrid, hheader]

/-- Settles O16: a range is at most 255, so from level 511 on every flag is set, and ENC reads nothing else of LEVEL. -/
theorem levelsFrom511BehaveAlike : Obligations.LevelsFrom511BehaveAlike := by
  intro tile level h
  have hflags := tileFlags_of_le h tile
  exact ⟨encodeBlock_congr_flags (hflags.trans (tileFlags_of_le (le_refl 511) tile).symm), hflags⟩

/-! ### The accumulators after a command -/

/-- The grid loop ends with the codes of one of its positions, or where it began when it has none. -/
theorem encodeGrid_prev (code : Nat → Triple Int) (ps : List Nat) (prev : Triple Int) :
    (encodeGrid code ps prev).1 = prev ∨ ∃ p ∈ ps, (encodeGrid code ps prev).1 = code p := by
  induction ps generalizing prev with
  | nil => exact .inl rfl
  | cons p ps ih =>
    refine .inr ?_
    cases h : packGrid p (deltaEnc3 prev (code p)) with
    | error e => exact ⟨p, by simp, by rw [encodeGrid_cons_error h]⟩
    | ok b =>
      rw [encodeGrid_cons_ok h]
      obtain hstay | ⟨p', hp', hcode⟩ := ih (code p)
      · exact ⟨p, by simp, hstay⟩
      · exact ⟨p', by simp [hp'], hcode⟩

/-- ENC leaves legal codes in the accumulators, also where it fails (R28, R125). -/
theorem encodeBlock_prev_legal (tile : Nat → Byte) (level : Nat) : CodesLegal (encodeBlock tile level).1 := by
  unfold encodeBlock
  split
  · exact codesLegal_startPrev
  · obtain h | ⟨p, hp, h⟩ := encodeGrid_prev (gridCode tile level) pixels startPrev
    · simp only [h]; exact codesLegal_startPrev
    · simp only [h, gridCode_eq]
      exact sourceCodes_legal tile level (List.mem_range.mp hp)

/-- A decoded code is a remainder, so it is legal whatever the delta (R131). -/
theorem deltaDec3_legal (prev delta : Triple Int) : CodesLegal (deltaDec3 prev delta) := by
  intro c
  rw [deltaDec3, Triple.get_ofFn, deltaDec]
  cases c <;> simp only [deltaModulus, codeTop] <;> omega

/-- DEC leaves legal codes in the accumulators (R28, R131). -/
theorem decodeGrid_prev_legal (record : Nat → Byte) (ps : List Nat) {prev : Triple Int} (h : CodesLegal prev) :
    CodesLegal (decodeGrid record ps prev).1 := by
  induction ps generalizing prev with
  | nil => exact h
  | cons p ps ih => exact ih (deltaDec3_legal _ _)

/-! ### The invariant, one rule per update of the state -/

/-- The details an error can have: a packed byte's index, the first byte of a field DEC checks, a reserved command byte
(R75, R200). -/
def EngineError.Legal : EngineError → Prop
  | .packingOverflow j => 7 ≤ j ∧ j ≤ 74
  | .formatError j => j = 0 ∨ j = 2 ∨ j = 4 ∨ j = 6
  | .illegalCommand v => 0x03 ≤ v.toNat ∧ v.toNat ≤ 0xFE

/-- While ERR is clear the error registers are zero (R25, R26). -/
theorem Inv.noError {s : State} (h : Inv s) (herr : s.status.err = false) : s.errcode = 0x00 ∧ s.errinfo = 0x00 := by
  have := h.error
  rwa [ErrorLegal, herr] at this

/-- BUSY and ERR are never both set (R23). -/
theorem StatusLegal.err_of_busy {s : State} (h : StatusLegal s) (hbusy : s.status.busy = true) :
    s.status.err = false := by
  obtain h | h | h | h := h <;> rw [h] at hbusy ⊢
  · rfl
  · rfl
  · rfl
  · cases hbusy

/-- A change that keeps STATUS, OP, the error registers and PREV keeps the invariant: LEVEL, the bytes of the buffers
and the host's fields are free. -/
theorem Inv.congr {s t : State} (h : Inv s) (mem : t.mem.wf) (status : t.status = s.status) (op : t.op = s.op)
    (errcode : t.errcode = s.errcode) (errinfo : t.errinfo = s.errinfo) (prev : t.prev = s.prev)
    (delay : s.status.busy = false → t.delay = 0) : Inv t where
  mem := mem
  status := by rw [StatusLegal, status]; exact h.status
  op := by rw [OpLegal, status, op]; exact h.op
  error := by rw [ErrorLegal, status, errcode, errinfo]; exact h.error
  prev := by rw [PrevLegal, prev]; exact h.prev
  delay := by rw [status]; exact delay

/-- After reset both buffers are freely drawn and every register is at its reset value (R33). -/
theorem Inv.reset : Inv State.reset where
  mem := State.reset_mem_wf
  status := .inl rfl
  op := by simp [OpLegal, Status.idle]
  error := ⟨rfl, rfl⟩
  prev := by rw [prevLegal_iff]; exact codesLegal_startPrev
  delay := fun _ => rfl

/-- Settles O25, by the values of the registers after reset. -/
theorem resetMeetsTheInvariant : Obligations.ResetMeetsTheInvariant :=
  Inv.reset

/-- A reset of the running engine differs from the reset state in what the invariant leaves free. -/
theorem Inv.resetEngine (s : State) : Inv s.resetEngine :=
  Inv.reset.congr (Memory.drawn_wf s.draws) rfl rfl rfl rfl rfl fun _ => rfl

theorem Inv.reply {s : State} (h : Inv s) (offset : Nat) (v : Byte) : Inv (s.reply offset v) :=
  h.congr h.mem rfl rfl rfl rfl rfl h.delay

theorem Inv.consume {s : State} (h : Inv s) (rest : List HostAction) : Inv (s.consume rest) :=
  h.congr h.mem rfl rfl rfl rfl rfl fun hbusy => by rw [State.consume_delay, h.delay hbusy]

theorem Inv.waitRound {s : State} (h : Inv s) : Inv (waitRound s) :=
  h.congr (by simpa using h.mem) (by simp) (by simp) (by simp) (by simp) (by simp) (by simpa using h.delay)

/-- Every buffer effect of an error keeps the canonical form (R201 to R203). -/
theorem EngineError.bufferEffect_wf (e : EngineError) {s : State} (h : s.mem.wf) : (e.bufferEffect s).mem.wf := by
  cases e with
  | packingOverflow j =>
    rw [EngineError.bufferEffect_packingOverflow, State.drawRecord_mem]
    exact Memory.writeBlock_wf h _ _
  | formatError j => exact h
  | illegalCommand v => exact h

/-- What ERRCODE and ERRINFO hold of a legal error is one of the pairs of R200 and R75. -/
theorem EngineError.Legal.errorLegal_raise {e : EngineError} (he : e.Legal) (s : State) : ErrorLegal (s.raise e) := by
  rw [ErrorLegal, State.raise_status, if_pos (by rfl), State.raise_errcode, State.raise_errinfo]
  cases e with
  | packingOverflow j =>
    obtain ⟨h7, h74⟩ := he
    have : (EngineError.packingOverflow j).info.toNat = j := Nat.mod_eq_of_lt (by omega)
    exact .inl ⟨rfl, by omega, by omega⟩
  | formatError j =>
    refine .inr (.inl ⟨rfl, ?_⟩)
    obtain rfl | rfl | rfl | rfl := he <;> decide
  | illegalCommand v => exact .inr (.inr ⟨rfl, he⟩)

/-- Raising an error needs nothing of STATUS, OP and the error registers: it sets them all (R205). -/
theorem Inv.raise {s : State} {e : EngineError} (he : e.Legal) (mem : s.mem.wf) (prev : CodesLegal s.prev) :
    Inv (s.raise e) where
  mem := e.bufferEffect_wf mem
  status := .inr (.inr (.inr rfl))
  op := by simp [OpLegal, Status.failed]
  error := he.errorLegal_raise s
  prev := by rw [prevLegal_iff, State.raise_prev]; exact prev
  delay := fun _ => rfl

/-- A command completes only where no error is (R173). -/
theorem Inv.complete {s : State} (mem : s.mem.wf) (prev : CodesLegal s.prev) (err : s.status.err = false)
    (errors : s.errcode = 0x00 ∧ s.errinfo = 0x00) : Inv s.complete where
  mem := mem
  status := by rw [StatusLegal, State.complete_status, err]; exact .inr (.inr (.inl rfl))
  op := by simp [OpLegal]
  error := by rw [ErrorLegal, State.complete_status, err]; exact errors
  prev := by rw [prevLegal_iff]; exact prev
  delay := fun _ => rfl

/-- A command is accepted only where no error is (R173). -/
theorem Inv.accept {s : State} (h : Inv s) (err : s.status.err = false) {op : Op} (hop : op ≠ .none) :
    Inv (s.accept op) where
  mem := h.mem
  status := by rw [StatusLegal, State.accept_status, err]; exact .inr (.inl rfl)
  op := by simpa [OpLegal] using hop
  error := by rw [ErrorLegal, State.accept_status, err]; exact h.noError err
  prev := h.prev
  delay := fun hbusy => nomatch hbusy

/-! ### The invariant over a step -/

/-- The engine's step of ENC keeps the invariant (R150, R152). -/
theorem Inv.execEnc {s t : State} (h : Inv s) (hbusy : s.status.busy = true) (hstep : execEnc s = .next t) : Inv t := by
  have hprev := encodeBlock_prev_legal s.tileByte s.levelNat
  have herr := h.status.err_of_busy hbusy
  obtain ⟨record, -, -, hexec⟩ | ⟨j, -, h7, h74, hexec⟩ := execEnc_cases s
  · cases hexec.symm.trans hstep
    exact Inv.complete (Memory.writeBlock_wf h.mem _ _) hprev herr (h.noError herr)
  · cases hexec.symm.trans hstep
    exact Inv.raise ⟨h7, h74⟩ h.mem hprev

/-- The engine's step of DEC keeps the invariant (R151, R153). -/
theorem Inv.execDec {s t : State} (h : Inv s) (hbusy : s.status.busy = true) (hstep : execDec s = .next t) : Inv t := by
  have hprev := decodeGrid_prev_legal s.recByte pixels codesLegal_startPrev
  have herr := h.status.err_of_busy hbusy
  obtain ⟨-, hexec⟩ | ⟨j, -, hj, hexec⟩ := execDec_cases s
  · cases hexec.symm.trans hstep
    exact Inv.complete (Memory.writeBlock_wf h.mem _ _) hprev herr (h.noError herr)
  · cases hexec.symm.trans hstep
    exact Inv.raise hj h.mem ((prevLegal_iff s).mp h.prev)

theorem Inv.engineStep {s t : State} (h : Inv s) (hbusy : s.status.busy = true) (hstep : engineStep s = .next t) :
    Inv t := by
  unfold Machine.engineStep at hstep
  split at hstep
  · exact h.execEnc hbusy hstep
  · exact h.execDec hbusy hstep
  · cases hstep

theorem Inv.memRead {s u : State} {offset : Nat} {v : Byte} (h : Inv s) (hread : memRead offset s = .next (v, u)) :
    Inv u := by
  obtain ⟨w, hcase⟩ | ⟨-, w, hcase⟩ | ⟨-, hcase⟩ := memRead_cases offset s
  · cases hcase.symm.trans hread
    exact h
  · cases hcase.symm.trans hread
    exact h.congr h.mem rfl rfl rfl rfl rfl h.delay
  · cases hcase.symm.trans hread

theorem Inv.issueCommand {s t : State} {v : Byte} (h : Inv s) (hissue : issueCommand v s = .next t) : Inv t := by
  obtain ⟨-, hcase⟩ | ⟨-, -, hcase⟩ | ⟨herr, -, -, hcase⟩ | ⟨herr, -, -, hcase⟩ | ⟨-, -, h3, hFE, hcase⟩ :=
    issueCommand_cases v s <;> cases hcase.symm.trans hissue
  · exact Inv.resetEngine s
  · exact h
  · exact h.accept herr (by decide)
  · exact h.accept herr (by decide)
  · exact Inv.raise ⟨h3, hFE⟩ h.mem ((prevLegal_iff s).mp h.prev)

theorem Inv.memWrite {s t : State} {offset : Nat} {v : Byte} (h : Inv s) (hwrite : memWrite offset v s = .next t) :
    Inv t := by
  obtain ⟨-, hcase⟩ | hcase | ⟨-, -, hcase⟩ | ⟨-, level, hcase⟩ | ⟨-, hcase⟩ := memWrite_cases offset v s
  · exact h.issueCommand (hcase.symm.trans hwrite)
  · cases hcase.symm.trans hwrite
    exact h
  · cases hcase.symm.trans hwrite
    exact h.congr (Memory.write_wf h.mem _ _) rfl rfl rfl rfl rfl h.delay
  · cases hcase.symm.trans hwrite
    exact h.congr h.mem rfl rfl rfl rfl rfl h.delay
  · cases hcase.symm.trans hwrite

theorem Inv.serve {s t : State} {a : HostAction} (h : Inv s) (hserve : serve a s = .next t) : Inv t := by
  obtain ⟨offset, v, u, -, hread, rfl⟩ | ⟨offset, v, -, hwrite⟩ | ⟨-, rfl⟩ | ⟨-, rfl⟩ := serve_next hserve
  · exact (h.memRead hread).reply offset v
  · exact h.memWrite hwrite
  · exact h.waitRound
  · exact Inv.resetEngine s

/-- Settles O26: the engine's step, the host's action and the idle step each keep the invariant. -/
theorem stepKeepsTheInvariant : Obligations.StepKeepsTheInvariant := by
  intro s t h hstep
  obtain ⟨hbusy, -, hcase⟩ | ⟨-, -, hcase⟩ | ⟨a, rest, -, -, hcase⟩ := step_cases s
  · exact h.engineStep hbusy (hcase.symm.trans hstep)
  · cases hcase.symm.trans hstep
    exact h
  · exact (h.consume rest).serve (hcase.symm.trans hstep)

end Sys2Proof.Machine
end

section
/-! The host port, one rule per range of the map: what a read returns and what a write stores, in each case of BUSY (R51 to R54, R58). -/

namespace Sys2Proof.Machine

/-! ### The bytes of the registers -/

/-- LEVEL_HI is LEVEL divided by 256 (R24, R55). -/
theorem levelHi_toNat (level : BitVec Config.levelBits) : (levelHi level).toNat = level.toNat / 256 := by
  have : level.toNat < 65536 := level.isLt
  rw [levelHi, BitVec.extractLsb'_toNat, Nat.shiftRight_eq_div_pow]
  omega

/-- LEVEL_LO is the remainder of LEVEL by 256 (R24, R55). -/
theorem levelLo_toNat (level : BitVec Config.levelBits) : (levelLo level).toNat = level.toNat % 256 := by
  rw [levelLo, BitVec.extractLsb'_toNat, Nat.shiftRight_zero]

/-- LEVEL_HI is the more significant of the two bytes (R55, R73). -/
theorem levelOfBytes_toNat (hi lo : Byte) : (levelOfBytes hi lo).toNat = 256 * hi.toNat + lo.toNat := by
  have hfits : hi.toNat * 2 ^ 8 + lo.toNat < 2 ^ 16 := by omega
  rw [levelOfBytes, BitVec.toNat_setWidth, BitVec.toNat_append, ← Nat.shiftLeft_add_eq_or_of_lt lo.isLt,
    Nat.shiftLeft_eq, Nat.mod_eq_of_lt hfits]
  omega

/-- STATUS reads as `{00000, ERR, DONE, BUSY}` (R52, R72). -/
theorem Status.toByte_toNat (st : Status) :
    st.toByte.toNat = 4 * st.err.toNat + 2 * st.done.toNat + st.busy.toNat := by
  rcases st with ⟨_ | _, _ | _, _ | _⟩ <;> rfl

/-! ### Reserved offsets and offsets outside -/

/-- The two ranges of reserved offsets (R51, R58). -/
theorem locate_reserved {a : Nat} (h : (0x10B ≤ a ∧ a ≤ 0x10F) ∨ (0x116 ≤ a ∧ a ≤ 0x1FF)) : locate a = .reserved := by
  unfold locate
  rw [if_neg (by omega), if_neg (by omega)]
  obtain ⟨hlow, hhigh⟩ | ⟨hlow, hhigh⟩ := h
  · rw [if_pos hhigh]
  · repeat rw [if_neg (by omega)]
    rw [if_pos hhigh]

theorem memRead_reserved {a : Nat} (h : (0x10B ≤ a ∧ a ≤ 0x10F) ∨ (0x116 ≤ a ∧ a ≤ 0x1FF)) (s : State) :
    memRead a s = .next (0x00, s) := by
  rw [memRead, locate_reserved h]

theorem memWrite_reserved {a : Nat} (h : (0x10B ≤ a ∧ a ≤ 0x10F) ∨ (0x116 ≤ a ∧ a ≤ 0x1FF)) (v : Byte) (s : State) :
    memWrite a v s = .next s := by
  rw [memWrite, locate_reserved h]

theorem memRead_outside {a : Nat} (h : 0x200 ≤ a) (s : State) : memRead a s = .refused (.offsetOutsideEngine a) := by
  rw [memRead, locate_outside h]

theorem memWrite_outside {a : Nat} (h : 0x200 ≤ a) (v : Byte) (s : State) :
    memWrite a v s = .refused (.offsetOutsideEngine a) := by
  rw [memWrite, locate_outside h]

/-- Settles O35: both ranges are located as reserved, whatever the state. -/
theorem reservedOffsetsReadZeroAndIgnoreWrites : Obligations.ReservedOffsetsReadZeroAndIgnoreWrites :=
  fun s _ v h => ⟨memRead_reserved h s, memWrite_reserved h v s⟩

/-- Settles O38: every offset from 0x200 on is located outside. -/
theorem offsetsOutsideAreRefused : Obligations.OffsetsOutsideAreRefused :=
  fun s _ v h => ⟨memRead_outside h s, memWrite_outside h v s⟩

/-! ### Accesses that complete -/

/-- A command issue completes in every state (R53, R173). -/
theorem issueCommand_completes (v : Byte) (s : State) : ∃ t, issueCommand v s = .next t := by
  obtain ⟨-, h⟩ | ⟨-, -, h⟩ | ⟨-, -, -, h⟩ | ⟨-, -, -, h⟩ | ⟨-, -, -, -, h⟩ := issueCommand_cases v s <;> exact ⟨_, h⟩

/-- A read of one of the engine's offsets completes (R52). -/
theorem memRead_completes {a : Nat} (ha : a < 0x200) (s : State) : ∃ v t, memRead a s = .next (v, t) := by
  obtain ⟨v, h⟩ | ⟨-, v, h⟩ | ⟨hout, -⟩ := memRead_cases a s
  · exact ⟨v, _, h⟩
  · exact ⟨v, _, h⟩
  · exact absurd hout (locate_inside ha)

/-- A write to one of the engine's offsets completes (R53). -/
theorem memWrite_completes {a : Nat} (ha : a < 0x200) (v : Byte) (s : State) : ∃ t, memWrite a v s = .next t := by
  obtain ⟨-, h⟩ | h | ⟨-, -, h⟩ | ⟨-, _, h⟩ | ⟨hout, -⟩ := memWrite_cases a v s
  · rw [h]; exact issueCommand_completes v s
  · exact ⟨_, h⟩
  · exact ⟨_, h⟩
  · exact ⟨_, h⟩
  · exact absurd hout (locate_inside ha)

/-! ### Reads -/

theorem SameEngine.refl (s : State) : SameEngine s s :=
  ⟨rfl, rfl, rfl, rfl, rfl, rfl, rfl⟩

theorem SameEngine.trans {s t u : State} (h : SameEngine s t) (h' : SameEngine t u) : SameEngine s u := by
  obtain ⟨mem, status, level, errcode, errinfo, op, prev⟩ := h
  obtain ⟨mem', status', level', errcode', errinfo', op', prev'⟩ := h'
  exact ⟨mem'.trans mem, status'.trans status, level'.trans level, errcode'.trans errcode, errinfo'.trans errinfo,
    op'.trans op, prev'.trans prev⟩

theorem SameEngine.status {s t : State} (h : SameEngine s t) : t.status = s.status :=
  h.2.1

/-- No read has a side effect on the engine, nor on what is the host's (R52). -/
theorem memRead_same {a : Nat} {s t : State} {v : Byte} (h : memRead a s = .next (v, t)) :
    SameEngine s t ∧ SameHost s t := by
  obtain ⟨w, hcase⟩ | ⟨-, w, hcase⟩ | ⟨-, hcase⟩ := memRead_cases a s <;> cases hcase.symm.trans h
  · exact ⟨.refl s, rfl, rfl⟩
  · exact ⟨.refl s, rfl, rfl⟩

/-- While BUSY is clear a buffer offset reads as the stored byte (R52). -/
theorem memRead_buffer {a : Nat} {s : State} (ha : a < 267) (hbusy : s.status.busy = false) :
    memRead a s = .next (s.mem.byte a, s) := by
  obtain htile | hrecord : a ≤ 0x0BF ∨ 0x0C0 ≤ a := by omega
  · simp [memRead, locate_tile htile, hbusy]
  · simp [memRead, locate_record hrecord (by omega), hbusy]

/-- Two accounts of one read agree on the byte. -/
theorem memRead_byte_eq {a : Nat} {s t u : State} {v w : Byte} (h : memRead a s = .next (v, t))
    (h' : memRead a s = .next (w, u)) : v = w := by
  cases h.symm.trans h'
  rfl

/-- Settles O33: a read completes and changes nothing, and its byte is the one the map names for the offset. -/
theorem readsReturnTheMap : Obligations.ReadsReturnTheMap := by
  intro s a ha
  obtain ⟨v, t, hread⟩ := memRead_completes ha s
  obtain ⟨hengine, hhost⟩ := memRead_same hread
  refine ⟨v, t, hread, hengine, hhost, ?tile, ?record, ?cmd, ?status, ?levelHi, ?levelLo, ?errcode, ?errinfo, ?reserved⟩
  case tile =>
    rintro i hi rfl hbusy
    exact memRead_byte_eq hread (memRead_buffer (by omega) hbusy)
  case record =>
    rintro j hj rfl hbusy
    exact memRead_byte_eq hread (memRead_buffer (by omega) hbusy)
  case cmd => rintro rfl; exact memRead_byte_eq hread rfl
  case status => rintro rfl; rw [memRead_byte_eq hread rfl, Status.toByte_toNat]
  case levelHi => rintro rfl; rw [memRead_byte_eq hread rfl, levelHi_toNat]
  case levelLo => rintro rfl; rw [memRead_byte_eq hread rfl, levelLo_toNat]
  case errcode => rintro rfl; exact memRead_byte_eq hread rfl
  case errinfo => rintro rfl; exact memRead_byte_eq hread rfl
  case reserved => exact fun h => memRead_byte_eq hread (memRead_reserved (by omega) s)

/-! ### Writes while BUSY is clear -/

/-- A buffer offset stores the byte (R53). -/
theorem memWrite_buffer {a : Nat} {s : State} (ha : a < 267) (hbusy : s.status.busy = false) (v : Byte) :
    memWrite a v s = .next { s with mem := s.mem.write a v } := by
  obtain htile | hrecord : a ≤ 0x0BF ∨ 0x0C0 ≤ a := by omega
  · simp [memWrite, locate_tile htile, hbusy]
  · simp [memWrite, locate_record hrecord (by omega), hbusy]

/-- Settles O36: a write leaves BUSY clear, so the read finds the byte the write stored. -/
theorem writtenBytesReadBack : Obligations.WrittenBytesReadBack := by
  intro s a v hwf hbusy ha
  have hread := memRead_buffer (s := { s with mem := s.mem.write a v }) ha hbusy
  rw [Memory.byte_write_same hwf ha] at hread
  exact ⟨_, memWrite_buffer ha hbusy v, hread⟩

/-- LEVEL after the byte `v` is written to offset `a` of an engine that is not BUSY (R53, R55). -/
def levelAfterWrite (a : Nat) (v : Byte) (level : BitVec Config.levelBits) : BitVec Config.levelBits :=
  if a = 0x112 then levelOfBytes v (levelLo level)
  else if a = 0x113 then levelOfBytes (levelHi level) v
  else level

theorem levelAfterWrite_toNat (a : Nat) (v : Byte) (level : BitVec Config.levelBits) :
    (levelAfterWrite a v level).toNat =
      if a = 0x112 then 256 * v.toNat + level.toNat % 256
      else if a = 0x113 then level.toNat / 256 * 256 + v.toNat else level.toNat := by
  unfold levelAfterWrite
  split_ifs
  · rw [levelOfBytes_toNat, levelLo_toNat]
  · rw [levelOfBytes_toNat, levelHi_toNat, Nat.mul_comm]
  · rfl

theorem levelAfterWrite_of_ne {a : Nat} (hhi : a ≠ 0x112) (hlo : a ≠ 0x113) (v : Byte) (level : BitVec Config.levelBits) :
    levelAfterWrite a v level = level := by
  rw [levelAfterWrite, if_neg hhi, if_neg hlo]

/-- What a write to an offset other than CMD leaves of an engine that is not BUSY: the byte at that offset of the
buffers or of LEVEL, and everything else as it was (R53). -/
def State.portWrite (a : Nat) (v : Byte) (s : State) : State :=
  { s with mem := if a < 267 then s.mem.write a v else s.mem, level := levelAfterWrite a v s.level }

theorem memWrite_eq_portWrite {a : Nat} {s : State} (ha : a < 0x200) (hcmd : a ≠ 0x110) (hbusy : s.status.busy = false)
    (v : Byte) : memWrite a v s = .next (s.portWrite a v) := by
  obtain hbuffer | hreserved | rfl | rfl | rfl | rfl | rfl : a < 267 ∨ ((0x10B ≤ a ∧ a ≤ 0x10F) ∨ (0x116 ≤ a ∧ a ≤ 0x1FF))
      ∨ a = 0x111 ∨ a = 0x112 ∨ a = 0x113 ∨ a = 0x114 ∨ a = 0x115 := by omega
  · rw [memWrite_buffer hbuffer hbusy, State.portWrite, if_pos hbuffer, levelAfterWrite_of_ne (by omega) (by omega)]
  · rw [memWrite_reserved hreserved, State.portWrite, if_neg (by omega), levelAfterWrite_of_ne (by omega) (by omega)]
  · rfl
  · exact if_neg (by simp [hbusy])
  · exact if_neg (by simp [hbusy])
  · rfl
  · rfl

/-- A buffer byte after the write, at the offset written and at every other. -/
theorem State.portWrite_byte {s : State} (h : s.mem.wf) (a : Nat) (v : Byte) {b : Nat} (hb : b < 267) :
    (s.portWrite a v).mem.byte b = if a = b then v else s.mem.byte b := by
  unfold State.portWrite
  by_cases hab : a = b
  · subst hab
    simp [hb, Memory.byte_write_same h hb]
  · by_cases ha : a < 267
    · simp [ha, hab, Memory.byte_write_other _ (Ne.symm hab)]
    · simp [ha, hab]

/-! ### Writes while BUSY is set -/

/-- While BUSY a command byte that is no SRST is ignored without trace (R173). -/
theorem issueCommand_busy {s : State} {v : Byte} (hbusy : s.status.busy = true) (hv : v ≠ 0xFF) :
    issueCommand v s = .next s := by
  obtain ⟨rfl, -⟩ | ⟨-, -, h⟩ | ⟨-, hidle, -⟩ | ⟨-, hidle, -⟩ | ⟨-, hidle, -⟩ := issueCommand_cases v s
  · exact absurd rfl hv
  · exact h
  all_goals simp [hbusy] at hidle

/-- CMD has one offset (R51). -/
theorem eq_of_locate_cmd {a : Nat} (h : locate a = .cmd) : a = 0x110 := by
  unfold locate at h
  split_ifs at h
  assumption

/-- While BUSY a write is dropped, unless it resets (R54, R58, R173). -/
theorem memWrite_busy {a : Nat} {v : Byte} {s : State} (ha : a < 0x200) (hbusy : s.status.busy = true)
    (hreset : ¬ IsReset (.write a v)) : memWrite a v s = .next s := by
  obtain ⟨hcmd, h⟩ | h | ⟨hidle, -⟩ | ⟨hidle, -⟩ | ⟨hout, -⟩ := memWrite_cases a v s
  · obtain rfl := eq_of_locate_cmd hcmd
    have hv : v ≠ 0xFF := by
      rintro rfl
      exact hreset (.inr rfl)
    exact h.trans (issueCommand_busy hbusy hv)
  · exact h
  · simp [hbusy] at hidle
  · simp [hbusy] at hidle
  · exact absurd hout (locate_inside ha)

/-- Settles O34: while BUSY a write is dropped, and otherwise it is `State.portWrite`. -/
theorem writesFollowTheMap : Obligations.WritesFollowTheMap := by
  refine ⟨fun s v => ⟨rfl, issueCommand_completes v s⟩, fun s a v hwf ha hcmd => ?_⟩
  cases hbusy : s.status.busy with
  | true =>
    have hdropped := memWrite_busy (v := v) ha hbusy (by simp [IsReset, hcmd])
    exact ⟨s, hdropped, fun _ => rfl, fun h => absurd h.symm Bool.false_ne_true⟩
  | false =>
    refine ⟨s.portWrite a v, memWrite_eq_portWrite ha hcmd hbusy v, fun h => absurd h Bool.false_ne_true,
      fun _ => ⟨rfl, rfl, rfl, rfl, rfl, rfl, ⟨rfl, rfl⟩, ?tile, ?record, levelAfterWrite_toNat a v s.level⟩⟩
    case tile => exact fun i hi => State.portWrite_byte hwf a v (by unfold tileOffset; omega)
    case record => exact fun j hj => State.portWrite_byte hwf a v (by unfold recOffset; omega)

end Sys2Proof.Machine
end

section
/-! What the host can do to a command in flight, and that no step of the invariant's states stops (R54, R59, R174). -/

namespace Sys2Proof.Machine

/-! ### A command in flight -/

/-- A host action that is no reset, served while BUSY, leaves the engine as it is (R54, R59, R224). -/
theorem serve_busy_same {a : HostAction} {s t : State} (hbusy : s.status.busy = true) (hreset : ¬ IsReset a)
    (hserve : serve a s = .next t) : SameEngine s t := by
  obtain ⟨offset, v, u, -, hread, rfl⟩ | ⟨offset, v, rfl, hwrite⟩ | ⟨-, rfl⟩ | ⟨rfl, -⟩ := serve_next hserve
  · exact (memRead_same hread).1
  · obtain hin | hout := Nat.lt_or_ge offset 0x200
    · cases (memWrite_busy hin hbusy hreset).symm.trans hwrite
      exact .refl s
    · cases (memWrite_outside hout v s).symm.trans hwrite
  · simp [SameEngine]
  · exact absurd (.inl rfl) hreset

/-- What serving a first action and then the rest can answer. -/
theorem serveAll_cons_next {a : HostAction} {rest : List HostAction} {s u : State}
    (h : serveAll (a :: rest) s = .next u) : ∃ t, serve a s = .next t ∧ serveAll rest t = .next u := by
  unfold serveAll at h
  cases hserve : serve a s with
  | next t => rw [hserve] at h; exact ⟨t, rfl, h⟩
  | fault r => rw [hserve] at h; cases h
  | refused r => rw [hserve] at h; cases h

/-- Settles O29, by induction on the actions: each leaves the engine as it is, so BUSY is still set for the next. -/
theorem commandInFlightIsUndisturbed : Obligations.CommandInFlightIsUndisturbed := by
  intro acts
  induction acts with
  | nil =>
    intro s t _ _ hserve
    cases hserve
    exact .refl s
  | cons a rest ih =>
    intro s u hbusy hreset hserve
    obtain ⟨t, hfirst, hrest⟩ := serveAll_cons_next hserve
    have hsame := serve_busy_same hbusy (hreset a List.mem_cons_self) hfirst
    have hbusy' : t.status.busy = true := by rw [hsame.status, hbusy]
    exact hsame.trans (ih t u hbusy' (fun b hb => hreset b (List.mem_cons_of_mem a hb)) hrest)

/-! ### Steps that do not stop -/

/-- A well-formed host action is served in every state (R52, R53). -/
theorem serve_completes {a : HostAction} (ha : a.wf = true) (s : State) : ∃ t, serve a s = .next t := by
  cases a with
  | read offset =>
    obtain ⟨v, t, hread⟩ := memRead_completes (of_decide_eq_true ha) s
    exact ⟨t.reply offset v, by simp [serve, readAccess, hread]⟩
  | write offset v => exact memWrite_completes (of_decide_eq_true ha) v s
  | wait => exact ⟨_, rfl⟩
  | hardReset => exact ⟨_, rfl⟩

/-- The engine's step of a command that OP names answers a next state, since ENC and DEC are total (R174). -/
theorem engineStep_completes {s : State} (hop : s.op ≠ .none) : ∃ t, engineStep s = .next t := by
  unfold engineStep
  split
  · exact ⟨_, rfl⟩
  · exact ⟨_, rfl⟩
  next hnone => exact absurd hnone hop

/-- Settles O32: while BUSY the invariant has a command in OP, and the host's next action is well formed. -/
theorem stepsAreSafe : Obligations.StepsAreSafe := by
  intro s hinv hscript
  obtain ⟨hbusy, -, hstep⟩ | ⟨-, -, hstep⟩ | ⟨a, rest, hnext, -, hstep⟩ := step_cases s <;> rw [hstep]
  · exact engineStep_completes (hinv.op.mp hbusy)
  · exact ⟨s, rfl⟩
  · rw [hnext, scriptWf, List.all_cons, Bool.and_eq_true] at hscript
    exact serve_completes hscript.1 _

end Sys2Proof.Machine
end

section
/-! Command bytes, the byte of STATUS and the two bytes of LEVEL (R70 to R73). -/

namespace Sys2Proof.Machine

/-! ### Command bytes -/

/-- The byte of a command decodes to it (R70). -/
@[simp] theorem decodeByte_commandByte (i : Instr) : decodeByte (commandByte i) = .ok i := by
  cases i <;> rfl

/-- The reserved bytes lie strictly between the byte of DEC and the byte of SRST, so none is a command's (R71). -/
theorem decodeByte_reserved {v : Byte} (h3 : 0x03 ≤ v.toNat) (hFE : v.toNat ≤ 0xFE) :
    decodeByte v = .error (.reservedCommand v) := by
  have hne : ∀ b : Byte, b.toNat < 0x03 ∨ 0xFE < b.toNat → v ≠ b := by
    rintro b hb rfl
    omega
  rw [decodeByte_eq, if_neg (hne _ (by decide)), if_neg (hne _ (by decide)), if_neg (hne _ (by decide)),
    if_neg (hne _ (by decide))]

/-- The bytes of the commands and the reserved bytes are all there are (R70, R71). -/
theorem commandByte_or_reserved (v : Byte) : (∃ i, v = commandByte i) ∨ (0x03 ≤ v.toNat ∧ v.toNat ≤ 0xFE) := by
  have hbound := v.isLt
  obtain h | h | h | h | h : v.toNat = 0x00 ∨ v.toNat = 0x01 ∨ v.toNat = 0x02 ∨ v.toNat = 0xFF ∨
      (0x03 ≤ v.toNat ∧ v.toNat ≤ 0xFE) := by omega
  · exact .inl ⟨.nop, BitVec.eq_of_toNat_eq h⟩
  · exact .inl ⟨.enc, BitVec.eq_of_toNat_eq h⟩
  · exact .inl ⟨.dec, BitVec.eq_of_toNat_eq h⟩
  · exact .inl ⟨.srst, BitVec.eq_of_toNat_eq h⟩
  · exact .inr h

/-- One byte decodes to a command: the whole byte is compared (R70). -/
theorem decodeByte_eq_ok_iff {v : Byte} {i : Instr} : decodeByte v = .ok i ↔ v = commandByte i := by
  constructor
  · intro h
    obtain ⟨j, rfl⟩ | ⟨h3, hFE⟩ := commandByte_or_reserved v
    · rw [decodeByte_commandByte] at h
      cases h
      rfl
    · rw [decodeByte_reserved h3 hFE] at h
      cases h
  · rintro rfl
    exact decodeByte_commandByte i

/-- Exactly the bytes 0x03 to 0xFE are refused (R71). -/
theorem decodeByte_eq_reserved_iff {v : Byte} :
    decodeByte v = .error (.reservedCommand v) ↔ 0x03 ≤ v.toNat ∧ v.toNat ≤ 0xFE := by
  refine ⟨fun h => ?_, fun ⟨h3, hFE⟩ => decodeByte_reserved h3 hFE⟩
  obtain ⟨i, rfl⟩ | hreserved := commandByte_or_reserved v
  · rw [decodeByte_commandByte] at h
    cases h
  · exact hreserved

/-- Every command is well formed: one lemma for each in `Laws.SingleByte`. -/
theorem instr_wf : ∀ i : Instr, i.wf = true
  | .nop => Laws.SingleByte.nop.1
  | .enc => Laws.SingleByte.enc.1
  | .dec => Laws.SingleByte.dec.1
  | .srst => Laws.SingleByte.srst.1

/-- Decoding the encoding of a command gives it back and leaves the bytes after it (R70). -/
theorem decode_encode_append (i : Instr) (rest : List Byte) : decode (encode i ++ rest) = .ok (i, rest) := by
  rw [encode, List.singleton_append, decode, decodeByte_commandByte]
  rfl

/-- Settles O2: a byte decodes to a command exactly when it is the command's byte. -/
theorem decodeEncodeAgree : Obligations.DecodeEncodeAgree := fun i =>
  ⟨instr_wf i, decode_encode_append i, fun _ h => by rw [decodeByte_eq_ok_iff.mp h, encode]⟩

/-- Settles O1: a byte is the byte of a command, and decodes to it, or is 0x03 to 0xFE, and is refused. -/
theorem commandBytesDecode : Obligations.CommandBytesDecode := by
  refine ⟨⟨decodeByte_commandByte .nop, decodeByte_commandByte .enc, decodeByte_commandByte .dec,
    decodeByte_commandByte .srst⟩, fun v => ⟨decodeByte_eq_reserved_iff, fun hne => ?_⟩⟩
  obtain ⟨i, rfl⟩ | hreserved := commandByte_or_reserved v
  · exact ⟨i, decodeByte_commandByte i⟩
  · exact absurd (decodeByte_eq_reserved_iff.mpr hreserved) hne

/-! ### LEVEL and STATUS -/

/-- Settles O37: each write replaces its own byte of LEVEL and leaves BUSY clear for the next. -/
theorem levelIsBigEndian : Obligations.LevelIsBigEndian := by
  intro s hi lo hbusy
  let t := s.portWrite 0x112 hi
  have hbusy' : t.status.busy = false := hbusy
  have hhi : memWrite 0x112 hi s = .next t :=
    memWrite_eq_portWrite (by decide) (by decide) hbusy hi
  have hlo : memWrite 0x113 lo t = .next (t.portWrite 0x113 lo) :=
    memWrite_eq_portWrite (by decide) (by decide) hbusy' lo
  have hmixed : t.level.toNat = 256 * hi.toNat + s.level.toNat % 256 := levelAfterWrite_toNat 0x112 hi s.level
  have hwhole : (t.portWrite 0x113 lo).level.toNat = t.level.toNat / 256 * 256 + lo.toNat :=
    levelAfterWrite_toNat 0x113 lo t.level
  exact ⟨t, t.portWrite 0x113 lo, hhi, hmixed, hlo, by omega⟩

/-- Settles O39: the bytes of IDLE, BUSY, DONE and ERROR, one by one. -/
theorem statusReadsOneOfFour : Obligations.StatusReadsOneOfFour := by
  rintro s (h | h | h | h) <;> rw [h]
  · exact .inl rfl
  · exact .inr (.inl rfl)
  · exact .inr (.inr (.inl rfl))
  · exact .inr (.inr (.inr rfl))

end Sys2Proof.Machine
end

section
/-! The colour transform over integer numerators, the output clamp and the conversion to a byte (R102 to R105). -/

namespace Sys2Proof.Machine

/-! ### The output clamp and the conversion to a byte -/

theorem clamp255_of_neg {v : Rat} (h : v < 0) : clamp255 v = 0 := if_pos h

theorem clamp255_of_gt {v : Rat} (h : 255 < v) : clamp255 v = 255 := by
  rw [clamp255, if_neg (by linarith), if_pos h]

theorem clamp255_of_mem {v : Rat} (h0 : 0 ≤ v) (h255 : v ≤ 255) : clamp255 v = v := by
  rw [clamp255, if_neg h0.not_gt, if_neg h255.not_gt]

/-- The clamp as a maximum and a minimum (R102). -/
theorem clamp255_eq_max_min (v : Rat) : clamp255 v = max 0 (min 255 v) := by
  obtain hneg | h0 := lt_or_ge v 0
  · rw [clamp255_of_neg hneg, min_eq_right (by linarith), max_eq_left hneg.le]
  · obtain hgt | h255 := lt_or_ge 255 v
    · rw [clamp255_of_gt hgt, min_eq_left hgt.le]
      norm_num
    · rw [clamp255_of_mem h0 h255, min_eq_right h255, max_eq_right h0]

/-- The byte is the floor clamped: the floor is monotone and leaves 0 and 255 as they are (R103). -/
theorem toU8_eq_max_min_floor (v : Rat) : toU8 v = max 0 (min 255 v.floor) := by
  have hmono : Monotone Rat.floor := fun _ _ => Rat.floor_monotone
  show (clamp255 v).floor = _
  rw [clamp255_eq_max_min, hmono.map_max, hmono.map_min]
  rfl

/-- Settles O44, case by case of the clamp; in each the byte is the floor of the clamped value. -/
theorem outputConversion : Obligations.OutputConversion := by
  intro v
  refine ⟨?clampBounds, fun h => ?below, fun h => ?above, fun h0 h255 => ?within, ?nonneg, ?le255⟩
  case clampBounds =>
    rw [clamp255_eq_max_min]
    exact ⟨le_max_left _ _, max_le (by norm_num) (min_le_left _ _)⟩
  case below =>
    rw [toU8, clamp255_of_neg h]
    exact ⟨rfl, rfl⟩
  case above =>
    rw [toU8, clamp255_of_gt h]
    exact ⟨rfl, rfl⟩
  case within =>
    rw [toU8, clamp255_of_mem h0 h255]
    exact ⟨rfl, Rat.floor_le v, by exact_mod_cast Rat.lt_floor_add_one v⟩
  all_goals
    rw [toU8_eq_max_min_floor]
    omega

/-! ### Floor and ceiling of a fraction -/

theorem floor_div_of_pos (n : Int) {m : Int} (hm : 0 < m) : ((n : Rat) / m).floor = n / m := by
  lift m to Nat using hm.le
  exact_mod_cast Rat.floor_intCast_div_natCast n m

theorem floor_thousandths (n : Int) : ((n : Rat) / 1000).floor = n / 1000 :=
  floor_div_of_pos n (m := 1000) (by decide)

theorem ceil_thousandths (n : Int) : ((n : Rat) / 1000).ceil = (n + 999) / 1000 := by
  have hneg : -((n : Rat) / 1000) = ((-n : Int) : Rat) / 1000 := by push_cast; ring
  rw [Rat.ceil_eq_neg_floor_neg, hneg, floor_thousandths]
  omega

/-- The byte of a fraction is found by one integer division (R104). -/
theorem toU8_div (n : Int) {m : Int} (hm : 0 < m) :
    toU8 ((n : Rat) / m) = if n ≤ 0 then 0 else if 255 * m ≤ n then 255 else n / m := by
  have hlow : n / m ≤ 0 ↔ n < m := by rw [← Int.lt_add_one_iff, Int.ediv_lt_iff_lt_mul hm]; simp
  have hhigh : 255 ≤ n / m ↔ 255 * m ≤ n := Int.le_ediv_iff_mul_le hm
  have hnonneg : 0 ≤ n / m ↔ 0 ≤ n := Int.ediv_nonneg_iff_of_pos hm
  rw [toU8_eq_max_min_floor, floor_div_of_pos n hm]
  split_ifs <;> omega

/-! ### The numerators of the samples -/

/-- `Y1000`, `U1000` and `V1000`: the samples of a colour in thousandths (R104). -/
def sampleNumerators (r g b : Nat) : Triple Int where
  y := 299 * r + 587 * g + 114 * b
  u := -169 * r - 331 * g + 500 * b + 128000
  v := 500 * r - 419 * g - 81 * b + 128000

theorem rgbToYuv_eq_numerators (r g b : Nat) :
    rgbToYuv r g b = ⟨(sampleNumerators r g b).y / 1000, (sampleNumerators r g b).u / 1000,
      (sampleNumerators r g b).v / 1000⟩ := by
  unfold rgbToYuv sampleNumerators
  congr 1 <;> push_cast <;> ring

/-- The bounds of R105 in thousandths. -/
theorem sampleNumerators_bounds {r g b : Nat} (hr : r ≤ 255) (hg : g ≤ 255) (hb : b ≤ 255) :
    (0 ≤ (sampleNumerators r g b).y ∧ (sampleNumerators r g b).y ≤ 255000) ∧
    (500 ≤ (sampleNumerators r g b).u ∧ (sampleNumerators r g b).u ≤ 255500) ∧
    (500 ≤ (sampleNumerators r g b).v ∧ (sampleNumerators r g b).v ≤ 255500) := by
  simp only [sampleNumerators]
  omega

/-- Settles O43: the samples are their numerators over 1000, and floors and ceilings of fractions are divisions. -/
theorem integerFormsOfTheTransform : Obligations.IntegerFormsOfTheTransform := by
  refine ⟨fun r g b hr hg hb => ?samples, fun ny nu nv d hd => ?inverse, fun n m hm => toU8_div n hm⟩
  case samples =>
    obtain ⟨⟨hy0, hy1⟩, ⟨hu0, hu1⟩, ⟨hv0, hv1⟩⟩ := sampleNumerators_bounds hr hg hb
    obtain ⟨y, hy⟩ := Int.eq_ofNat_of_zero_le hy0
    obtain ⟨u, hu⟩ := Int.eq_ofNat_of_zero_le (by omega : 0 ≤ (sampleNumerators r g b).u)
    obtain ⟨v, hv⟩ := Int.eq_ofNat_of_zero_le (by omega : 0 ≤ (sampleNumerators r g b).v)
    refine ⟨y, u, v, hy.symm, hu.symm, hv.symm, by omega, by omega, by omega, ?_⟩
    rw [rgbToYuv_eq_numerators, hy, hu, hv]
    exact ⟨rfl, floor_thousandths y, ceil_thousandths y, floor_thousandths u, ceil_thousandths u,
      floor_thousandths v, ceil_thousandths v⟩
  case inverse =>
    have hd' : (d : Rat) ≠ 0 := by exact_mod_cast hd.ne'
    unfold yuvToRgb
    congr 1 <;> field_simp

/-! ### The bounds of the samples -/

theorem thousandths_le_iff (k n : Int) : (k : Rat) / 1000 ≤ (n : Rat) / 1000 ↔ k ≤ n := by
  rw [div_le_div_iff_of_pos_right (by norm_num), Int.cast_le]

theorem thousandths_lt_iff (k n : Int) : (k : Rat) / 1000 < (n : Rat) / 1000 ↔ k < n := by
  rw [div_lt_div_iff_of_pos_right (by norm_num), Int.cast_lt]

theorem thousandths_eq_iff (k n : Int) : (k : Rat) / 1000 = (n : Rat) / 1000 ↔ k = n := by
  rw [div_left_inj' (by norm_num), Int.cast_inj]

/-- Y is 0 at black only: its three coefficients are positive (R105). -/
theorem y_numerator_eq_zero_iff (r g b : Nat) : (sampleNumerators r g b).y = 0 ↔ r = 0 ∧ g = 0 ∧ b = 0 := by
  simp only [sampleNumerators]
  omega

/-- Y is 255 at white only: its three coefficients are positive and add up to 1 (R105). -/
theorem y_numerator_eq_top_iff {r g b : Nat} (hr : r ≤ 255) (hg : g ≤ 255) (hb : b ≤ 255) :
    (sampleNumerators r g b).y = 255000 ↔ r = 255 ∧ g = 255 ∧ b = 255 := by
  simp only [sampleNumerators]
  omega

/-- U above 255 forces `b = 255` and `169 r + 331 g < 500`, which four colours meet (R105). -/
theorem u_numerator_above_iff {r g b : Nat} (hb : b ≤ 255) :
    255000 < (sampleNumerators r g b).u ↔ (r, g, b) ∈ [(0, 0, 255), (1, 0, 255), (0, 1, 255), (2, 0, 255)] := by
  have hforces : 255000 < (sampleNumerators r g b).u ↔ b = 255 ∧ 169 * r + 331 * g < 500 := by
    simp only [sampleNumerators]
    omega
  simp only [hforces, List.mem_cons, List.not_mem_nil, or_false, Prod.mk.injEq]
  omega

/-- V above 255 forces `r = 255` and `419 g + 81 b < 500`, which eight colours meet (R105). -/
theorem v_numerator_above_iff {r g b : Nat} (hr : r ≤ 255) :
    255000 < (sampleNumerators r g b).v ↔ (r, g, b) ∈ [(255, 0, 0), (255, 0, 1), (255, 0, 2), (255, 0, 3), (255, 0, 4),
      (255, 0, 5), (255, 0, 6), (255, 1, 0)] := by
  have hforces : 255000 < (sampleNumerators r g b).v ↔ r = 255 ∧ 419 * g + 81 * b < 500 := by
    simp only [sampleNumerators]
    omega
  simp only [hforces, List.mem_cons, List.not_mem_nil, or_false, Prod.mk.injEq]
  omega

/-- Settles O42: the listed values by evaluation, and the bounds and lists as facts about the numerators. -/
theorem sampleBounds : Obligations.SampleBounds := by
  refine ⟨by norm_num [rgbToYuv], by norm_num [rgbToYuv], by norm_num [rgbToYuv], fun r g b hr hg hb => ?_⟩
  obtain ⟨hy, hu, hv⟩ := sampleNumerators_bounds hr hg hb
  have hzero : (0 : Rat) = (0 : Int) / 1000 := by norm_num
  have hbottom : (1 / 2 : Rat) = (500 : Int) / 1000 := by norm_num
  have h255 : (255 : Rat) = (255000 : Int) / 1000 := by norm_num
  have htop : (511 / 2 : Rat) = (255500 : Int) / 1000 := by norm_num
  simp only [rgbToYuv_eq_numerators, hbottom, htop]
  rw [hzero, h255]
  simp only [thousandths_le_iff, thousandths_lt_iff, thousandths_eq_iff]
  exact ⟨hy, hu, hv, y_numerator_eq_zero_iff r g b, y_numerator_eq_top_iff hr hg hb, u_numerator_above_iff hb,
    v_numerator_above_iff hr⟩

end Sys2Proof.Machine
end

section
/-! The stats of a tile (R110 to R113), and the tile that refutes the corner case of R112. -/

namespace Sys2Proof.Machine

/-! ### The extreme samples -/

/-- Some pixel has the least sample of its channel; the minimum is its floor (R110). -/
theorem exists_least_sourceSample (tile : Nat → Byte) (c : Channel) :
    ∃ p < 64, (∀ q < 64, sourceSample tile p c ≤ sourceSample tile q c) ∧
      sourceMin tile c = (sourceSample tile p c).floor := by
  obtain ⟨hmem, hle⟩ := leastSample_spec (channelSamples_ne_nil tile c)
  obtain ⟨p, hp, hsample⟩ := List.mem_map.mp hmem
  rw [sourceMin_eq, ← hsample]
  rw [← hsample] at hle
  exact ⟨p, List.mem_range.mp hp, fun q hq => hle _ (mem_channelSamples tile c hq), rfl⟩

/-- Some pixel has the greatest sample of its channel; the maximum is its ceiling, with 256 clamped to 255 (R111). -/
theorem exists_greatest_sourceSample (tile : Nat → Byte) (c : Channel) :
    ∃ p < 64, (∀ q < 64, sourceSample tile q c ≤ sourceSample tile p c) ∧
      sourceMax tile c =
        (if (sourceSample tile p c).ceil = 256 then 255 else (sourceSample tile p c).ceil) := by
  obtain ⟨hmem, hle⟩ := greatestSample_spec (channelSamples_ne_nil tile c)
  obtain ⟨p, hp, hsample⟩ := List.mem_map.mp hmem
  have hmax : sourceMax tile c = chanMax (channelSamples tile c) := by rw [sourceMax, tileStats_get]; rfl
  rw [hmax, chanMax, ← hsample]
  rw [← hsample] at hle
  exact ⟨p, List.mem_range.mp hp, fun q hq => hle _ (mem_channelSamples tile c hq), rfl⟩

/-- A value of at most 255 is not above its ceiling with 256 clamped to 255: the clamp does not fire (R113). -/
theorem le_clamped_ceil {v : Rat} (h : v ≤ 255) : v ≤ ((if v.ceil = 256 then 255 else v.ceil : Int) : Rat) := by
  have hceil : v.ceil ≤ 255 := Rat.ceil_le_iff.mpr (by exact_mod_cast h)
  rw [if_neg (by omega)]
  exact Rat.le_ceil

/-- Settles O45: the extreme samples are those of two pixels, and the bounds are those of `sourceMin` and `sourceMax`. -/
theorem statsOfATile : Obligations.StatsOfATile := by
  intro tile c
  obtain ⟨p, hp, hleast, hmin⟩ := exists_least_sourceSample tile c
  obtain ⟨p', hp', hgreatest, hmax⟩ := exists_greatest_sourceSample tile c
  have hmin_nonneg := sourceMin_nonneg tile c
  have hmin_le_max := sourceMin_le_sourceMax tile c
  refine ⟨⟨p, hp, hleast, hmin⟩, ⟨p', hp', hgreatest, hmax, fun h255 q hq => ?unclamped⟩,
    ⟨hmin_nonneg, hmin_le_max, sourceMax_le tile c⟩, ⟨Int.sub_nonneg.mpr hmin_le_max, sourceRange_le tile c⟩,
    fun q hq => ⟨sourceMin_le_sourceSample tile c hq, ?overshoot⟩⟩
  case unclamped =>
    exact (hgreatest q hq).trans ((le_clamped_ceil h255).trans_eq (congrArg Int.cast hmax.symm))
  case overshoot =>
    exact (sourceSample_le_sourceMax tile c hq).trans (add_le_add_right (overshoot_le_half c) _)

/-! ### The corner case of R112 -/

/-- One pixel (1, 0, 0), then 63 pixels (255, 255, 254): almost black and almost white, and neither. -/
def nearBlackNearWhiteTile (i : Nat) : Byte :=
  if i < 3 then (if i = 0 then 1 else 0) else (if i % 3 = 2 then 254 else 255)

/-- Y is 0.299 and 254.886, whose floor and ceiling are 255 apart. -/
theorem nearBlackNearWhiteTile_range : (tileRanges nearBlackNearWhiteTile).y = 255 := by decide +kernel

/-- Red is 1 or 255. -/
theorem nearBlackNearWhiteTile_red_ne_zero : ∀ p < 64, nearBlackNearWhiteTile (3 * p) ≠ 0 := by decide

/-- Refutes O46: the floor and the ceiling of the stats give a Y range of 255 to a tile without a black pixel. -/
theorem not_rangeOf255NeedsBlackAndWhite : ¬ Obligations.RangeOf255NeedsBlackAndWhite := by
  intro h
  obtain ⟨⟨p, hp, hred, -⟩, -⟩ := (h nearBlackNearWhiteTile).mp nearBlackNearWhiteTile_range
  exact nearBlackNearWhiteTile_red_ne_zero p hp hred

end Sys2Proof.Machine
end

section
/-! The quantiser: its interp thresholds, its integer form, its laws, and the codes ENC forms (R124 to R127). -/

namespace Sys2Proof.Machine

/-! ### The interp thresholds -/

/-- Settles O47: the three tests, and what they say of ranges of 0 to 255. -/
theorem interpFlagThresholds : Obligations.InterpFlagThresholds := by
  intro level range
  have hy : (interpFlags level range).y = true ↔ 2 * range.y < level := decide_eq_true_iff
  have hu : (interpFlags level range).u = true ↔ range.u < level := decide_eq_true_iff
  have hv : (interpFlags level range).v = true ↔ range.v < level := decide_eq_true_iff
  refine ⟨hy, hu, hv, fun hrange => ?_⟩
  obtain ⟨hy0, hy255⟩ : 0 ≤ range.y ∧ range.y ≤ 255 := hrange .y
  obtain ⟨hu0, hu255⟩ : 0 ≤ range.u ∧ range.u ≤ 255 := hrange .u
  obtain ⟨hv0, hv255⟩ : 0 ≤ range.v ∧ range.v ≤ 255 := hrange .v
  refine ⟨fun hlevel => ?none, fun hlevel c => ?rangeZero, fun hlevel => ⟨hu.mpr ?_, hv.mpr ?_⟩, fun hlevel => ?all⟩
  case none =>
    unfold interpFlags
    congr 1 <;> exact decide_eq_false (by omega)
  case rangeZero =>
    cases c
    case y => exact hy.trans (show 2 * range.y < level ↔ range.y = 0 by omega)
    case u => exact hu.trans (show range.u < level ↔ range.u = 0 by omega)
    case v => exact hv.trans (show range.v < level ↔ range.v = 0 by omega)
  case all =>
    unfold interpFlags
    congr 1 <;> exact decide_eq_true (by omega)
  all_goals omega

/-! ### The integer form -/

/-- Ten times `K[c]` (R121, R122). -/
def quantScaleTenths : Channel → Int
  | .y => 159
  | .u => 39
  | .v => 39

theorem quantScale_eq_tenths (c : Channel) : quantScale c = quantScaleTenths c / 10 := by
  cases c <;> norm_num [quantScale, quantScaleTenths]

theorem norm_of_range_pos {st : Stat} (hrange : 0 < st.range) (v : Rat) : norm v st = (v - st.min) / st.range :=
  if_neg hrange.ne'

/-- The code of a fraction is found by one integer division, in every channel (R127). -/
theorem quant_div (c : Channel) (n : Int) {d : Int} {st : Stat} (hd : 0 < d) (hrange : 0 < st.range) :
    quant c (n / d) st = ((n - st.min * d) * quantScaleTenths c) / (10 * d * st.range) := by
  have hd' : (d : Rat) ≠ 0 := by exact_mod_cast hd.ne'
  have hrange' : (st.range : Rat) ≠ 0 := by exact_mod_cast hrange.ne'
  rw [← floor_div_of_pos _ (by positivity), quant, norm_of_range_pos hrange, quantScale_eq_tenths]
  congr 1
  push_cast
  field_simp

/-- Settles O48: `quant_div` for each channel. -/
theorem integerFormOfQuant : Obligations.IntegerFormOfQuant := fun n _ _ hd hrange _ =>
  ⟨quant_div .y n hd hrange, quant_div .u n hd hrange, quant_div .v n hd hrange⟩

/-! ### The laws of the quantiser -/

theorem norm_of_range_eq_zero {st : Stat} (hrange : st.range = 0) (v : Rat) : norm v st = 0 :=
  if_pos hrange

/-- A greater value has no smaller normalised value (R120). -/
theorem norm_mono {st : Stat} (hst : st.min ≤ st.max) {v1 v2 : Rat} (h : v1 ≤ v2) : norm v1 st ≤ norm v2 st := by
  have hrange : 0 ≤ st.range := Int.sub_nonneg.mpr hst
  obtain hzero | hpos := hrange.eq_or_lt'
  · rw [norm_of_range_eq_zero hzero, norm_of_range_eq_zero hzero]
  · rw [norm_of_range_pos hpos, norm_of_range_pos hpos]
    gcongr

theorem norm_max_le_one (st : Stat) : norm st.max st ≤ 1 := by
  unfold norm
  split
  · exact zero_le_one
  · rw [Stat.range, Int.cast_sub]
    exact div_self_le_one _

theorem dequantDivisor_pos (c : Channel) : 0 < dequantDivisor c := by
  cases c <;> norm_num [dequantDivisor]

theorem quant_le_scaled_norm (c : Channel) (v : Rat) (st : Stat) : (quant c v st : Rat) ≤ norm v st * quantScale c :=
  Rat.floor_le _

theorem scaled_norm_lt_quant_add_one (c : Channel) (v : Rat) (st : Stat) :
    norm v st * quantScale c < quant c v st + 1 := by
  exact_mod_cast Rat.lt_floor_add_one _

/-- The quantiser is monotone (R126 (a)). -/
theorem quant_mono (c : Channel) {st : Stat} (hst : st.min ≤ st.max) {v1 v2 : Rat} (h : v1 ≤ v2) :
    quant c v1 st ≤ quant c v2 st :=
  Rat.floor_monotone (mul_le_mul_of_nonneg_right (norm_mono hst h) (quantScale_nonneg c))

/-- `DIV[c]` is `K[c]` rounded down. -/
theorem floor_quantScale (c : Channel) : ((quantScale c).floor : Rat) = dequantDivisor c := by
  cases c <;> norm_num [quantScale, dequantDivisor, Rat.floor_def]

/-- No value up to the maximum has a code above the divisor (R121, R122). -/
theorem quant_le_dequantDivisor (c : Channel) {v : Rat} {st : Stat} (hst : st.min ≤ st.max) (hhi : v ≤ st.max) :
    (quant c v st : Rat) ≤ dequantDivisor c := by
  have hnorm : norm v st ≤ 1 := (norm_mono hst hhi).trans (norm_max_le_one st)
  rw [← floor_quantScale]
  exact_mod_cast Rat.floor_monotone (mul_le_of_le_one_left (quantScale_nonneg c) hnorm)

/-- The reconstruction error is the range times the error on the normalised scale. -/
theorem dequant_sub_eq (c : Channel) (q : Int) (v : Rat) {st : Stat} (hrange : 0 < st.range) :
    dequant c q st - v = st.range * (q / dequantDivisor c - norm v st) := by
  have hrange' : (st.range : Rat) ≠ 0 := by exact_mod_cast hrange.ne'
  have hcast : (st.max : Rat) - st.min = st.range := (Int.cast_sub _ _).symm
  rw [norm_of_range_pos hrange, dequant, hcast]
  field_simp
  ring

/-- R126 (b) on the normalised scale: a code `q` of `n`, so `q ≤ n * K < q + 1`, gives back `q / DIV`, which is less
than one step from `n`. -/
theorem normalised_error_bounds (c : Channel) {q n : Rat} (h0 : 0 ≤ q) (htop : q ≤ dequantDivisor c)
    (hle : q ≤ n * quantScale c) (hlt : n * quantScale c < q + 1) :
    |q / dequantDivisor c - n| < 1 / dequantDivisor c ∧
    -(1 / quantScale c) < q / dequantDivisor c - n ∧
    q / dequantDivisor c - n ≤ q * (1 / dequantDivisor c - 1 / quantScale c) ∧
    q / dequantDivisor c - n ≤ 9 / 10 / quantScale c := by
  rw [abs_lt]
  cases c <;> simp only [quantScale, dequantDivisor] at * <;> refine ⟨⟨?_, ?_⟩, ?_, ?_, ?_⟩ <;> linarith

/-- The reconstruction of a value between the minimum and the maximum is within one step of it (R126 (b)). -/
theorem dequant_quant_error (c : Channel) {v : Rat} {st : Stat} (hlo : (st.min : Rat) ≤ v) (hhi : v ≤ st.max)
    (hrange : 0 < st.range) :
    |dequant c (quant c v st) st - v| < st.range / dequantDivisor c ∧
    -(st.range / quantScale c) < dequant c (quant c v st) st - v ∧
    dequant c (quant c v st) st - v ≤ quant c v st * st.range * (1 / dequantDivisor c - 1 / quantScale c) ∧
    dequant c (quant c v st) st - v ≤ 9 / 10 * st.range / quantScale c := by
  have hst : st.min ≤ st.max := (Int.sub_pos.mp hrange).le
  have hr : (0 : Rat) < st.range := by exact_mod_cast hrange
  have hcode := (quant_bounds hst hlo (hhi.trans (le_add_of_nonneg_right (overshoot_nonneg c)))).1
  obtain ⟨habs, hbelow, habove, htop⟩ := normalised_error_bounds c (by exact_mod_cast hcode)
    (quant_le_dequantDivisor c hst hhi) (quant_le_scaled_norm c v st) (scaled_norm_lt_quant_add_one c v st)
  rw [dequant_sub_eq c _ v hrange, abs_mul, abs_of_pos hr]
  refine ⟨(mul_lt_mul_of_pos_left habs hr).trans_eq ?_, Eq.trans_lt ?_ (mul_lt_mul_of_pos_left hbelow hr),
    (mul_le_mul_of_nonneg_left habove hr.le).trans_eq ?_, (mul_le_mul_of_nonneg_left htop hr.le).trans_eq ?_⟩ <;> ring

/-- De-quantising is monotone in the code (R126 (c)). -/
theorem dequant_mono (c : Channel) {st : Stat} (hst : st.min ≤ st.max) {q1 q2 : Int} (h : q1 ≤ q2) :
    dequant c q1 st ≤ dequant c q2 st := by
  have hrange : (0 : Rat) ≤ st.max - st.min := by exact_mod_cast Int.sub_nonneg.mpr hst
  have hdiv := dequantDivisor_pos c
  unfold dequant
  gcongr

theorem dequant_zero (c : Channel) (st : Stat) : dequant c 0 st = st.min := by
  simp [dequant]

theorem dequant_dequantDivisor (c : Channel) (st : Stat) {q : Int} (hq : (q : Rat) = dequantDivisor c) :
    dequant c q st = st.max := by
  rw [dequant, hq, div_self (dequantDivisor_pos c).ne', one_mul, sub_add_cancel]

theorem quant_of_range_eq_zero (c : Channel) (v : Rat) {st : Stat} (hrange : st.range = 0) : quant c v st = 0 := by
  rw [quant, norm_of_range_eq_zero hrange, zero_mul]
  rfl

theorem dequant_of_range_eq_zero (c : Channel) (q : Int) {st : Stat} (hrange : st.range = 0) :
    dequant c q st = st.min := by
  rw [dequant, ← Int.cast_sub, show st.max - st.min = 0 from hrange, Int.cast_zero, mul_zero, zero_add]

/-- Settles O49: the laws (a) to (d) of R126, one lemma each. -/
theorem quantiserLaws : Obligations.QuantiserLaws := fun c st hst =>
  ⟨fun _ _ h => quant_mono c hst h, fun _ hlo hhi hrange => dequant_quant_error c hlo hhi hrange,
    fun _ _ h => dequant_mono c hst h, dequant_zero c st, fun _ hq => dequant_dequantDivisor c st hq,
    fun hrange v q => ⟨quant_of_range_eq_zero c v hrange, dequant_of_range_eq_zero c q hrange⟩⟩

/-! ### Codes beyond the nominal range -/

/-- ENC quantises at a pixel a value between any bounds of the channel's samples: a sample, or a blend of four. -/
theorem exists_sourceCode_eq_quant {tile : Nat → Byte} {c : Channel} {lo hi : Rat}
    (h : ∀ p < 64, lo ≤ sourceSample tile p c ∧ sourceSample tile p c ≤ hi) (level : Nat) {p : Nat} (hp : p < 64) :
    ∃ v, lo ≤ v ∧ v ≤ hi ∧ sourceCode tile level p c = quant c v ((tileStats tile).get c) := by
  simp only [sourceCode, ← quant_tileStats]
  split
  · obtain ⟨hlo, hhi⟩ := blend_bounds (fun k => h (cornerPixel k) (cornerPixel_lt k)) hp
    exact ⟨_, hlo, hhi, rfl⟩
  · exact ⟨_, (h p hp).1, (h p hp).2, rfl⟩

/-- Without a sample above 255 no code is above the divisor: the maximum then bounds every sample (R113, R125). -/
theorem sourceCode_le_dequantDivisor {tile : Nat → Byte} {c : Channel} (h : ∀ i < 64, sourceSample tile i c ≤ 255)
    (level : Nat) {p : Nat} (hp : p < 64) : (sourceCode tile level p c : Rat) ≤ dequantDivisor c := by
  obtain ⟨g, hg, hgreatest, hmax⟩ := exists_greatest_sourceSample tile c
  have hle : ∀ i < 64, sourceSample tile i c ≤ sourceMax tile c := fun i hi =>
    (hgreatest i hi).trans ((le_clamped_ceil (h g hg)).trans_eq (congrArg Int.cast hmax.symm))
  obtain ⟨v, -, hv, hcode⟩ :=
    exists_sourceCode_eq_quant (fun i hi => ⟨sourceMin_le_sourceSample tile c hi, hle i hi⟩) level hp
  rw [hcode]
  exact quant_le_dequantDivisor c (sourceMin_le_sourceMax tile c) hv

/-- A sample above 255 makes the maximum 255 (R111). -/
theorem sourceMax_eq_255 {tile : Nat → Byte} {c : Channel} {i : Nat} (hi : i < 64) (h : 255 < sourceSample tile i c) :
    sourceMax tile c = 255 := by
  have hle := sourceSample_le_sourceMax tile c hi
  have hhalf := overshoot_le_half c
  have hlow : (254 : Rat) < sourceMax tile c := by linarith
  have : 254 < sourceMax tile c := by exact_mod_cast hlow
  have := sourceMax_le tile c
  omega

/-- A code of 4 or more with `K = 3.9` and a maximum of 255: `40 * (255 - min) ≤ 39 * (v - min)`, so a value of at most
255.5 needs a minimum of 236 to 254 (R125). -/
theorem min_bounds_of_three_lt_quant {c : Channel} (hc : quantScale c = 39 / 10) {v : Rat} {st : Stat}
    (hmax : st.max = 255) (hst : st.min ≤ st.max) (hv : v ≤ 255 + 1 / 2) (hcode : 3 < quant c v st) :
    236 ≤ st.min ∧ st.min ≤ 254 := by
  have hrange : 0 < st.range := (Int.sub_nonneg.mpr hst).lt_of_ne' fun hzero => by
    rw [quant_of_range_eq_zero c v hzero] at hcode
    omega
  have hrange_eq : st.range = 255 - st.min := by rw [Stat.range, hmax]
  have hpos : (0 : Rat) < (255 - st.min : Int) := by exact_mod_cast hrange_eq ▸ hrange
  have hfour : (4 : Rat) ≤ (v - st.min) / (255 - st.min : Int) * (39 / 10) := by
    rw [← hrange_eq, ← norm_of_range_pos hrange, ← hc]
    exact le_trans (by exact_mod_cast hcode) (quant_le_scaled_norm c v st)
  rw [div_mul_eq_mul_div, le_div_iff₀ hpos] at hfour
  push_cast at hfour
  have hlow : (235 : Rat) < st.min := by linarith
  have : 235 < st.min := by exact_mod_cast hlow
  omega

/-- A U or V code above 3 needs a sample above 255 and a minimum of 236 to 254 (R125). -/
theorem overshoot_of_three_lt_sourceCode {tile : Nat → Byte} {c : Channel} (hscale : quantScale c = 39 / 10)
    (hdiv : dequantDivisor c = 3) {level p : Nat} (hp : p < 64) (hcode : 3 < sourceCode tile level p c) :
    (∃ i < 64, 255 < sourceSample tile i c) ∧ 236 ≤ sourceMin tile c ∧ sourceMin tile c ≤ 254 := by
  have habove : ∃ i < 64, 255 < sourceSample tile i c := by
    by_contra! hnone
    have hle := sourceCode_le_dequantDivisor hnone level hp
    rw [hdiv] at hle
    exact hcode.not_ge (by exact_mod_cast hle)
  obtain ⟨i, hi, hsample⟩ := habove
  obtain ⟨v, -, hv, hquant⟩ := exists_sourceCode_eq_quant (fun i _ => sourceSample_bounds tile i c) level hp
  exact ⟨⟨i, hi, hsample⟩, min_bounds_of_three_lt_quant hscale (sourceMax_eq_255 hi hsample)
    (sourceMin_le_sourceMax tile c) (hv.trans (add_le_add_right (overshoot_le_half c) _)) (hquant ▸ hcode)⟩

/-- Settles O50: the bounds of every code, and what a U or V code above 3 needs. -/
theorem encodeCodeBounds : Obligations.EncodeCodeBounds := by
  intro tile level p hp
  have hlegal := sourceCodes_legal tile level hp
  exact ⟨hlegal .y, hlegal .u, hlegal .v, overshoot_of_three_lt_sourceCode rfl rfl hp,
    overshoot_of_three_lt_sourceCode rfl rfl hp⟩

end Sys2Proof.Machine
end

section
/-! The delta coder and the packing of three codes in one byte (R130 to R135, R142). -/

namespace Sys2Proof.Machine

/-! ### Packing -/

/-- A sum 0 to 255 packs to the byte of that value (R132). -/
theorem packByte_of_fitsByte (j : Nat) {sum : Int} (h : FitsByte sum) :
    ∃ b, packByte j sum = .ok b ∧ (b.toNat : Int) = sum :=
  ⟨byteOfInt sum, (packByte_ok_iff j sum _).mpr ⟨h, rfl⟩, byteOfInt_toNat h.1 h.2⟩

/-- A sum past either end of 0 to 255 is a PackingOverflow (R132, R142). -/
theorem packByte_of_not_fitsByte (j : Nat) {sum : Int} (h : ¬ FitsByte sum) :
    packByte j sum = .error (.packingOverflow j) :=
  (packByte_error_iff j sum _).mpr ⟨by omega, rfl⟩

/-- The nested sum of a grid byte, with the weights of its fields written out (R132). -/
theorem gridSum_eq_weighted (d : Triple Int) : gridSum d = 16 * d.y + 4 * d.u + d.v := by
  unfold gridSum
  ring

/-- Settles O52: `pack_grid` and `pack_corner` are both `packByte`, of their sum and their REC index. -/
theorem packingChecksBothEnds : Obligations.PackingChecksBothEnds := by
  intro d p k
  refine ⟨fun h => ?_, packByte_of_not_fitsByte (gridIndex p), packByte_of_fitsByte (cornerIndex k),
    packByte_of_not_fitsByte (cornerIndex k)⟩
  rw [← gridSum_eq_weighted]
  exact packByte_of_fitsByte (gridIndex p) h

/-! ### Nominal codes and deltas -/

/-- A code is nominal for its channel exactly when it is a remainder by the channel's modulus (R121, R122, R130). -/
theorem nominal_iff (q : Triple Int) : Nominal q ↔ ∀ c, 0 ≤ q.get c ∧ q.get c < deltaModulus c := by
  constructor
  · rintro ⟨hy, hu, hv⟩ c
    cases c <;> simp only [Triple.get, deltaModulus] <;> omega
  · intro h
    exact ⟨⟨(h .y).1, Int.lt_add_one_iff.mp (h .y).2⟩, ⟨(h .u).1, Int.lt_add_one_iff.mp (h .u).2⟩,
      ⟨(h .v).1, Int.lt_add_one_iff.mp (h .v).2⟩⟩

/-- The delta of two nominal codes is nominal: at most one modulus is added, where the difference is negative (R135 (a)). -/
theorem deltaEnc_bounds {c : Channel} {prev curr : Int} (hprev : 0 ≤ prev ∧ prev < deltaModulus c)
    (hcurr : 0 ≤ curr ∧ curr < deltaModulus c) :
    0 ≤ deltaEnc c prev curr ∧ deltaEnc c prev curr < deltaModulus c := by
  unfold deltaEnc
  split <;> omega

theorem deltaEnc3_nominal {prev curr : Triple Int} (hprev : Nominal prev) (hcurr : Nominal curr) :
    Nominal (deltaEnc3 prev curr) :=
  (nominal_iff _).mpr fun c => by
    rw [deltaEnc3, Triple.get_ofFn]
    exact deltaEnc_bounds ((nominal_iff _).mp hprev c) ((nominal_iff _).mp hcurr c)

/-- Decoding the delta of any two codes gives the second one modulo the channel's modulus (R130, R131). -/
theorem deltaDec_deltaEnc (c : Channel) (prev curr : Int) :
    deltaDec c prev (deltaEnc c prev curr) = curr % deltaModulus c := by
  unfold deltaDec deltaEnc
  split
  · rw [add_sub_cancel]
  · rw [add_sub_cancel, Int.add_emod_left]

/-- On a nominal code the delta coder gives the code itself back (R135 (b)). -/
theorem deltaDec3_deltaEnc3 (prev : Triple Int) {curr : Triple Int} (hcurr : Nominal curr) :
    deltaDec3 prev (deltaEnc3 prev curr) = curr :=
  Triple.ext_get fun c => by
    obtain ⟨hlow, hhigh⟩ := (nominal_iff _).mp hcurr c
    simp only [deltaDec3, deltaEnc3, Triple.get_ofFn, deltaDec_deltaEnc]
    exact Int.emod_eq_of_lt hlow hhigh

/-! ### Unpacking -/

theorem gridSum_fitsByte {d : Triple Int} (h : Nominal d) : FitsByte (gridSum d) := by
  unfold gridSum
  omega

/-- A byte that holds the sum of nominal fields unpacks to these fields (R133). -/
theorem unpack3_of_toNat_eq_gridSum {b : Byte} {d : Triple Int} (hd : Nominal d) (h : (b.toNat : Int) = gridSum d) :
    unpack3 b = d := by
  rw [gridSum] at h
  refine Triple.ext_get fun c => ?_
  rw [unpack3_get]
  cases c <;> simp only [packedField, Triple.get] <;> omega

/-- Settles O51: the deltas are nominal, so their sum packs and unpacks, and decoding undoes each delta. -/
theorem deltaCoderIsInvertible : Obligations.DeltaCoderIsInvertible := by
  intro p prev curr hprev hcurr
  have hdelta := deltaEnc3_nominal hprev hcurr
  obtain ⟨b, hpack, hbyte⟩ := packByte_of_fitsByte (gridIndex p) (gridSum_fitsByte hdelta)
  have hunpack := unpack3_of_toNat_eq_gridSum hdelta hbyte
  exact ⟨hdelta, b, hpack, hunpack, by rw [hunpack, deltaDec3_deltaEnc3 prev hcurr]⟩

end Sys2Proof.Machine
end

section
/-! The corner sampler: the laws of the interpolation (R146), and why no corner byte overflows (R142, U14). -/

namespace Sys2Proof.Machine

/-! ### The interpolation -/

/-- The four values as a function of the corner index `k` (`00_scope.md` section 7). -/
def cornerAt (cs : Corners Rat) : Nat → Rat
  | 0 => cs.tl
  | 1 => cs.tr
  | 2 => cs.bl
  | _ => cs.br

/-- The interpolation at column `x` and row `y` is the blend at pixel `8y + x` (R145). -/
theorem bilerp_eq_blend_cornerAt (cs : Corners Rat) {x : Nat} (hx : x ≤ 7) (y : Nat) :
    bilerp cs x y = blend (cornerAt cs) (8 * y + x) := by
  have hcol : pixelX (8 * y + x) = x := by unfold pixelX; omega
  have hrow : pixelY (8 * y + x) = y := by unfold pixelY; omega
  rw [← bilerp_eq_blend, hcol, hrow]
  rfl

/-- Four values within bounds interpolate within them (R146 (b)). -/
theorem bilerp_bounds {cs : Corners Rat} {lo hi : Rat} (h : ∀ k, lo ≤ cornerAt cs k ∧ cornerAt cs k ≤ hi) {x y : Nat}
    (hx : x ≤ 7) (hy : y ≤ 7) : lo ≤ bilerp cs x y ∧ bilerp cs x y ≤ hi := by
  rw [bilerp_eq_blend_cornerAt cs hx]
  exact blend_bounds h (by omega)

theorem cornerAt_bounds (cs : Corners Rat) (k : Nat) :
    min (min cs.tl cs.tr) (min cs.bl cs.br) ≤ cornerAt cs k ∧ cornerAt cs k ≤ max (max cs.tl cs.tr) (max cs.bl cs.br) := by
  unfold cornerAt
  split <;> simp

/-- The interpolation is the sum of the corners by weights that are not negative and add up to 1 (R146 (b)). -/
theorem bilerp_weights (cs : Corners Rat) {x y : Nat} (hx : x ≤ 7) (hy : y ≤ 7) :
    ∃ w0 w1 w2 w3 : Rat, w0 = (7 - x) * (7 - y) / 49 ∧ w1 = x * (7 - y) / 49 ∧ w2 = (7 - x) * y / 49 ∧
      w3 = x * y / 49 ∧ 0 ≤ w0 ∧ 0 ≤ w1 ∧ 0 ≤ w2 ∧ 0 ≤ w3 ∧ w0 + w1 + w2 + w3 = 1 ∧
      bilerp cs x y = w0 * cs.tl + w1 * cs.tr + w2 * cs.bl + w3 * cs.br := by
  have hx' : (0 : Rat) ≤ 7 - x := sub_nonneg.mpr (by exact_mod_cast hx)
  have hy' : (0 : Rat) ≤ 7 - y := sub_nonneg.mpr (by exact_mod_cast hy)
  refine ⟨_, _, _, _, rfl, rfl, rfl, rfl, by positivity, by positivity, by positivity, by positivity, by ring, ?_⟩
  unfold bilerp
  ring

/-- On encode the interpolated value is between the least and the greatest sample of the tile's channel (R146 (b)). -/
theorem interpolated_tileCorners_between (tile : Nat → Byte) (c : Channel) {p : Nat} (hp : p < 64) :
    ∃ i < 64, ∃ j < 64, (tileYuv tile i).get c ≤ interpolated (tileCorners tile) c p ∧
      interpolated (tileCorners tile) c p ≤ (tileYuv tile j).get c := by
  obtain ⟨i, hi, hleast, -⟩ := exists_least_sourceSample tile c
  obtain ⟨j, hj, hgreatest, -⟩ := exists_greatest_sourceSample tile c
  simp only [tileYuv_get, interpolated_tileCorners]
  exact ⟨i, hi, j, hj,
    blend_bounds (fun k => ⟨hleast _ (cornerPixel_lt k), hgreatest _ (cornerPixel_lt k)⟩) hp⟩

theorem bilerp_corners (cs : Corners Rat) :
    bilerp cs 0 0 = cs.tl ∧ bilerp cs 7 0 = cs.tr ∧ bilerp cs 0 7 = cs.bl ∧ bilerp cs 7 7 = cs.br := by
  refine ⟨?_, ?_, ?_, ?_⟩ <;> simp [bilerp]

/-- Settles O53: the laws of R146, one lemma each; normalising keeps the order. -/
theorem bilerpLaws : Obligations.BilerpLaws := by
  refine ⟨fun cs _ _ => bilerp_weights cs, fun tile c p hp => ?encode, bilerp_corners,
    fun cs _ _ => bilerp_bounds (cornerAt_bounds cs), fun a b cs ds x y => ?linear⟩
  case encode =>
    obtain ⟨i, hi, j, hj, hlow, hhigh⟩ := interpolated_tileCorners_between tile c hp
    exact ⟨i, hi, j, hj, hlow, hhigh, fun _ hst => ⟨norm_mono hst hlow, norm_mono hst hhigh⟩⟩
  case linear =>
    unfold bilerp
    ring

/-! ### Samples and stats of a tile in thousandths -/

/-- The sample of channel `c` at pixel `p` in thousandths (R104). -/
def sourceNumerator (tile : Nat → Byte) (p : Nat) (c : Channel) : Int :=
  (sampleNumerators (tile (3 * p)).toNat (tile (3 * p + 1)).toNat (tile (3 * p + 2)).toNat).get c

theorem sourceSample_eq_thousandths (tile : Nat → Byte) (p : Nat) (c : Channel) :
    sourceSample tile p c = (sourceNumerator tile p c : Rat) / 1000 := by
  rw [← tileYuv_get, tileYuv, rgbToYuv_eq_numerators]
  cases c <;> rfl

/-- Some pixel has the least sample; the minimum is its floor (R110). -/
theorem exists_least_sourceNumerator (tile : Nat → Byte) (c : Channel) :
    ∃ p < 64, (∀ q < 64, sourceNumerator tile p c ≤ sourceNumerator tile q c) ∧
      sourceMin tile c = sourceNumerator tile p c / 1000 := by
  obtain ⟨p, hp, hleast, hmin⟩ := exists_least_sourceSample tile c
  simp only [sourceSample_eq_thousandths, thousandths_le_iff, floor_thousandths] at hleast hmin
  exact ⟨p, hp, hleast, hmin⟩

theorem sourceMin_le_sourceNumerator (tile : Nat → Byte) (c : Channel) {p : Nat} (hp : p < 64) :
    1000 * sourceMin tile c ≤ sourceNumerator tile p c := by
  obtain ⟨q, -, hleast, hmin⟩ := exists_least_sourceNumerator tile c
  have := hleast p hp
  omega

/-- No sample, cut at 255, is above the maximum (R111, R113). -/
theorem sourceNumerator_le_sourceMax (tile : Nat → Byte) (c : Channel) {p : Nat} (hp : p < 64) :
    min (sourceNumerator tile p c) 255000 ≤ 1000 * sourceMax tile c := by
  obtain ⟨q, -, hgreatest, hmax⟩ := exists_greatest_sourceSample tile c
  simp only [sourceSample_eq_thousandths, thousandths_le_iff, ceil_thousandths] at hgreatest hmax
  have := hgreatest p hp
  split at hmax <;> omega

/-! ### What the stats of one channel say of another's

Each is a fact about the coefficients of R100 at the pixel that has the least sample of a channel. -/

/-- A high U needs blue, and blue adds to Y: a high least U makes the least Y high. -/
theorem sourceMin_y_gt_of_u (tile : Nat → Byte) : 228 * (sourceMin tile .u - 128) < 1000 * (sourceMin tile .y + 1) := by
  obtain ⟨p, hp, -, hmin⟩ := exists_least_sourceNumerator tile .y
  have hu := sourceMin_le_sourceNumerator tile .u hp
  have hblue : 228 * (sourceNumerator tile p .u - 128000) ≤ 1000 * sourceNumerator tile p .y := by
    simp only [sourceNumerator, sampleNumerators, Triple.get]
    omega
  omega

/-- A high V needs red, and red adds to Y: a high least V makes the least Y high. -/
theorem sourceMin_y_gt_of_v (tile : Nat → Byte) : 598 * (sourceMin tile .v - 128) < 1000 * (sourceMin tile .y + 1) := by
  obtain ⟨p, hp, -, hmin⟩ := exists_least_sourceNumerator tile .y
  have hv := sourceMin_le_sourceNumerator tile .v hp
  have hred : 598 * (sourceNumerator tile p .v - 128000) ≤ 1000 * sourceNumerator tile p .y := by
    simp only [sourceNumerator, sampleNumerators, Triple.get]
    omega
  omega

/-- A low U needs red or green, and both add to Y. -/
theorem y_numerator_ge_of_low_u (tile : Nat → Byte) (p : Nat) :
    299 * (128000 - sourceNumerator tile p .u) ≤ 169 * sourceNumerator tile p .y := by
  simp only [sourceNumerator, sampleNumerators, Triple.get]
  omega

/-- A low least Y makes the greatest U high. -/
theorem sourceMax_u_gt_of_y (tile : Nat → Byte) : 299 * (128 - sourceMax tile .u) < 169 * (sourceMin tile .y + 1) := by
  obtain ⟨p, hp, -, hmin⟩ := exists_least_sourceNumerator tile .y
  have hu := sourceNumerator_le_sourceMax tile .u hp
  have hlow := y_numerator_ge_of_low_u tile p
  have hy := sourceMin_nonneg tile .y
  omega

/-- A low least U makes the greatest Y high. -/
theorem sourceMax_y_gt_of_u (tile : Nat → Byte) : 299 * (127 - sourceMin tile .u) < 169 * sourceMax tile .y := by
  obtain ⟨p, hp, -, hmin⟩ := exists_least_sourceNumerator tile .u
  have hy := sourceNumerator_le_sourceMax tile .y hp
  have hlow := y_numerator_ge_of_low_u tile p
  have hu := sourceMin_nonneg tile .u
  omega

/-! ### The codes of a corner -/

/-- A code is legal at every corner (R141, R125). -/
theorem sourceCorner_bounds (tile : Nat → Byte) (level k : Nat) (c : Channel) :
    0 ≤ sourceCorner tile level k c ∧ sourceCorner tile level k c ≤ codeTop c := by
  unfold sourceCorner
  split
  · exact sourceCodeOf_bounds (sourceMin_le_sourceSample tile c (cornerPixel_lt k))
      (sourceSample_le_sourceMax tile c (cornerPixel_lt k))
  · cases c <;> decide

/-- What a code of at least `n > 0` says of the stat: the range is positive, and `n` ranges are at most `K` times the
distance of the sample from the minimum (R121, R122). -/
theorem scaled_range_le_of_le_quant {c : Channel} {st : Stat} (hst : st.min ≤ st.max) {n m : Int} (hn : 0 < n)
    (h : n ≤ quant c (m / 1000) st) :
    st.min < st.max ∧ n * (10000 * (st.max - st.min)) ≤ (m - st.min * 1000) * quantScaleTenths c := by
  have hrange : 0 < st.range := (Int.sub_nonneg.mpr hst).lt_of_ne' fun hzero => by
    rw [quant_of_range_eq_zero c _ hzero] at h
    omega
  have hdiv : quant c (m / 1000) st = _ := quant_div c m (d := 1000) (by decide) hrange
  rw [hdiv, Int.le_ediv_iff_mul_le (by positivity)] at h
  exact ⟨Int.sub_pos.mp hrange, h⟩

/-- The same of a corner code: an unflagged channel has code 0 (R141). -/
theorem scaled_range_le_of_le_sourceCorner {tile : Nat → Byte} {level k : Nat} {c : Channel} {n : Int} (hn : 0 < n)
    (h : n ≤ sourceCorner tile level k c) :
    sourceMin tile c < sourceMax tile c ∧
      n * (10000 * (sourceMax tile c - sourceMin tile c)) ≤
        (sourceNumerator tile (cornerPixel k) c - sourceMin tile c * 1000) * quantScaleTenths c := by
  unfold sourceCorner at h
  split at h
  · rw [← quant_tileStats, sourceSample_eq_thousandths] at h
    exact scaled_range_le_of_le_quant (sourceMin_le_sourceMax tile c) hn h
  · omega

/-! ### Why a corner byte fits -/

/-- The samples of the four colours whose U is above 255 (R105). -/
theorem sourceNumerator_of_u_above {tile : Nat → Byte} {p : Nat} (h : 255000 < sourceNumerator tile p .u) :
    (sourceNumerator tile p .y = 29070 ∧ sourceNumerator tile p .u = 255500) ∨
    (sourceNumerator tile p .y = 29369 ∧ sourceNumerator tile p .u = 255331) ∨
    (sourceNumerator tile p .y = 29657 ∧ sourceNumerator tile p .u = 255169) ∨
    (sourceNumerator tile p .y = 29668 ∧ sourceNumerator tile p .u = 255162) := by
  have hcolour := (u_numerator_above_iff (Nat.le_of_lt_succ (tile (3 * p + 2)).isLt)).mp h
  simp only [List.mem_cons, List.not_mem_nil, or_false, Prod.mk.injEq] at hcolour
  simp only [sourceNumerator, sampleNumerators, Triple.get]
  omega

/-- The samples of the eight colours whose V is above 255: (255, 0, b) with `b` up to 6, and (255, 1, 0) (R105). -/
theorem sourceNumerator_of_v_above {tile : Nat → Byte} {p : Nat} (h : 255000 < sourceNumerator tile p .v) :
    (∃ b : Nat, b ≤ 6 ∧ sourceNumerator tile p .y = 76245 + 114 * b ∧ sourceNumerator tile p .u = 84905 + 500 * b ∧
      sourceNumerator tile p .v = 255500 - 81 * b) ∨
    (sourceNumerator tile p .y = 76832 ∧ sourceNumerator tile p .u = 84574 ∧ sourceNumerator tile p .v = 255081) := by
  have hcolour := (v_numerator_above_iff (Nat.le_of_lt_succ (tile (3 * p)).isLt)).mp h
  simp only [List.mem_cons, List.not_mem_nil, or_false, Prod.mk.injEq] at hcolour
  simp only [sourceNumerator, sampleNumerators, Triple.get]
  refine or_iff_not_imp_right.mpr fun hgreen => ⟨(tile (3 * p + 2)).toNat, ?_⟩
  omega

/-- A U code of 4 or more needs one of four blue colours. All pixels are then so blue that the least Y is close to the
corner's, and the corner's Y code is below 15. -/
theorem y_lt_fifteen_of_four_le_u {tile : Nat → Byte} {level k : Nat} (hu : 4 ≤ sourceCorner tile level k .u) :
    sourceCorner tile level k .y < 15 := by
  by_contra! hy
  obtain ⟨hrangeU, hcodeU⟩ := scaled_range_le_of_le_sourceCorner (by decide) hu
  obtain ⟨-, hcodeY⟩ := scaled_range_le_of_le_sourceCorner (by decide) hy
  simp only [quantScaleTenths] at hcodeU hcodeY
  have hmaxU := sourceMax_le tile .u
  have htopU := sourceNumerator_le_sourceMax tile .u (cornerPixel_lt k)
  have habove : 255000 < sourceNumerator tile (cornerPixel k) .u := by omega
  have htopY := sourceNumerator_le_sourceMax tile .y (cornerPixel_lt k)
  have hblue := sourceMin_y_gt_of_u tile
  obtain hcorner | hcorner | hcorner | hcorner := sourceNumerator_of_u_above habove <;> omega

/-- A V code of 4 or more needs one of eight red colours. All pixels are then so red that Y code 15 leaves only the two
colours (255, 0, 3) and (255, 1, 0). With these the pixel of least Y has a high U, which widens the U range, and U code 3
needs a least U so low that its pixel has a high Y, which widens the Y range too far for Y code 15. -/
theorem u_lt_three_of_fifteen_le_y_of_four_le_v {tile : Nat → Byte} {level k : Nat}
    (hy : 15 ≤ sourceCorner tile level k .y) (hv : 4 ≤ sourceCorner tile level k .v) :
    sourceCorner tile level k .u < 3 := by
  by_contra! hu
  obtain ⟨hrangeV, hcodeV⟩ := scaled_range_le_of_le_sourceCorner (by decide) hv
  obtain ⟨-, hcodeU⟩ := scaled_range_le_of_le_sourceCorner (by decide) hu
  obtain ⟨-, hcodeY⟩ := scaled_range_le_of_le_sourceCorner (by decide) hy
  simp only [quantScaleTenths] at hcodeV hcodeU hcodeY
  have hmaxV := sourceMax_le tile .v
  have htopV := sourceNumerator_le_sourceMax tile .v (cornerPixel_lt k)
  have habove : 255000 < sourceNumerator tile (cornerPixel k) .v := by omega
  have htopU := sourceNumerator_le_sourceMax tile .u (cornerPixel_lt k)
  have htopY := sourceNumerator_le_sourceMax tile .y (cornerPixel_lt k)
  have hred := sourceMin_y_gt_of_v tile
  have hstretchU := sourceMax_u_gt_of_y tile
  have hstretchY := sourceMax_y_gt_of_u tile
  obtain ⟨blue, hblue, hcorner⟩ | hcorner := sourceNumerator_of_v_above habove
  · interval_cases blue <;> omega
  · omega

/-- Settles O18: a sum above 255 needs Y code 15, and U code 4 or U code 3 with V code 4. -/
theorem cornerBytesNeverOverflow : Obligations.CornerBytesNeverOverflow := by
  intro tile level k hk
  have hpacked : packedSum tile level (7 + k) = 16 * sourceCorner tile level k .y +
      4 * sourceCorner tile level k .u + sourceCorner tile level k .v := by
    simp only [packedSum, if_pos (show 7 + k < 11 by omega), Nat.add_sub_cancel_left]
  have hy := sourceCorner_bounds tile level k .y
  have hu := sourceCorner_bounds tile level k .u
  have hv := sourceCorner_bounds tile level k .v
  simp only [codeTop] at hy hu hv
  have hblue : 4 ≤ sourceCorner tile level k .u → _ := y_lt_fifteen_of_four_le_u
  have hred : 15 ≤ sourceCorner tile level k .y → 4 ≤ sourceCorner tile level k .v → _ :=
    u_lt_three_of_fifteen_le_y_of_four_le_v
  rw [hpacked]
  omega

end Sys2Proof.Machine
end

section
/-! ENC in closed form: the record is the header and the packed sums 7 to 74, up to the first sum that does not fit (R150, R152). -/

namespace Sys2Proof.Machine

/-! ### Packing a list of bytes -/

/-- The packed bytes at the REC indices of a list, or the first PackingOverflow (R152). -/
def packBytes (tile : Nat → Byte) (level : Nat) (indices : List Nat) : Except EngineError (List Byte) :=
  indices.mapM (fun j => packByte j (packedSum tile level j))

/-- The byte of a packed sum. -/
def packedByte (tile : Nat → Byte) (level j : Nat) : Byte :=
  byteOfInt (packedSum tile level j)

theorem packBytes_cons (tile : Nat → Byte) (level j : Nat) (js : List Nat) :
    packBytes tile level (j :: js) = (do
      let b ← packByte j (packedSum tile level j)
      let bs ← packBytes tile level js
      return b :: bs) :=
  List.mapM_cons

theorem packBytes_append (tile : Nat → Byte) (level : Nat) (is js : List Nat) :
    packBytes tile level (is ++ js) = (do
      let bs ← packBytes tile level is
      let cs ← packBytes tile level js
      return bs ++ cs) :=
  List.mapM_append

theorem packBytes_of_fits {tile : Nat → Byte} {level : Nat} {js : List Nat}
    (h : ∀ j ∈ js, FitsByte (packedSum tile level j)) :
    packBytes tile level js = .ok (js.map (packedByte tile level)) := by
  induction js with
  | nil => rfl
  | cons j js ih =>
    obtain ⟨hj, hjs⟩ := List.forall_mem_cons.mp h
    rw [packBytes_cons, (packByte_ok_iff j _ _).mpr ⟨hj, rfl⟩, ih hjs]
    rfl

/-- The first sum that does not fit names the error, whatever comes after it (R152). -/
theorem packBytes_of_overflow {tile : Nat → Byte} {level j : Nat} {is js : List Nat}
    (hfits : ∀ i ∈ is, FitsByte (packedSum tile level i)) (hj : ¬ FitsByte (packedSum tile level j)) :
    packBytes tile level (is ++ j :: js) = .error (.packingOverflow j) := by
  rw [packBytes_append, packBytes_of_fits hfits, packBytes_cons, packByte_of_not_fitsByte j hj]
  rfl

/-! ### The corner bytes and the grid bytes -/

theorem packCorner_eq_packByte (tile : Nat → Byte) (level : Nat) {k : Nat} (hk : k < 4) :
    packCorner k (cornerCodes (tileYuv tile (cornerPixel k)) (tileStats tile) (tileFlags tile level)) =
      packByte (7 + k) (packedSum tile level (7 + k)) := by
  have hsum : cornerSum (cornerCodes (tileYuv tile (cornerPixel k)) (tileStats tile) (tileFlags tile level)) =
      packedSum tile level (7 + k) := by
    have hget := cornerCodes_get tile level k
    simp only [packedSum, if_pos (show 7 + k < 11 by omega), Nat.add_sub_cancel_left, ← hget, cornerSum, Triple.get]
    ring
  rw [packCorner, hsum, cornerIndex]

/-- The corner bytes are the packed sums 7 to 10 (R150 step 3). -/
theorem encodeCorners_eq_packBytes (tile : Nat → Byte) (level : Nat) :
    encodeCorners tile level = packBytes tile level (List.range' 7 4) := by
  have hpack : ∀ k < 4,
      packCorner k (cornerCodes (tileYuv tile (cornerPixel k)) (tileStats tile) (tileFlags tile level)) =
        packByte (7 + k) (packedSum tile level (7 + k)) := fun k => packCorner_eq_packByte tile level
  have hunf : encodeCorners tile level = [0, 1, 2, 3].mapM (fun k =>
      packCorner k (cornerCodes (tileYuv tile (cornerPixel k)) (tileStats tile) (tileFlags tile level))) := by
    simp only [List.mapM_cons, List.mapM_nil, bind_assoc, pure_bind]
    rfl
  have hindex : List.range' 7 4 = [0, 1, 2, 3].map (7 + ·) := rfl
  rw [hunf, packBytes, hindex, List.mapM_map]
  simp only [List.mapM_cons, List.mapM_nil, Function.comp_apply, hpack 0 (by decide), hpack 1 (by decide),
    hpack 2 (by decide), hpack 3 (by decide)]

/-- The codes the accumulators hold before pixel `p`: 0 before pixel 0, else the codes of the pixel before (R134). -/
def codesBefore (tile : Nat → Byte) (level p : Nat) : Triple Int :=
  if p = 0 then startPrev else sourceCodes tile level (p - 1)

theorem chainModulus_eq_deltaModulus (c : Channel) : chainModulus c = deltaModulus c := by
  cases c <;> rfl

theorem deltaEnc3_codesBefore_get (tile : Nat → Byte) (level p : Nat) (c : Channel) :
    (deltaEnc3 (codesBefore tile level p) (sourceCodes tile level p)).get c = sourceDelta tile level p c := by
  have hbefore : (codesBefore tile level p).get c = if p = 0 then 0 else sourceCode tile level (p - 1) c := by
    unfold codesBefore
    split
    · cases c <;> rfl
    · rw [sourceCodes, Triple.get_ofFn]
  simp only [deltaEnc3, Triple.get_ofFn, hbefore, chainModulus_eq_deltaModulus, deltaEnc, sourceDelta, sourceCodes]

theorem packedSum_grid_deltas (tile : Nat → Byte) (level p : Nat) :
    packedSum tile level (11 + p) =
      16 * sourceDelta tile level p .y + 4 * sourceDelta tile level p .u + sourceDelta tile level p .v := by
  simp only [packedSum, if_neg (show ¬ 11 + p < 11 by omega), Nat.add_sub_cancel_left]

theorem packedSum_grid (tile : Nat → Byte) (level p : Nat) :
    packedSum tile level (11 + p) =
      gridSum (deltaEnc3 (codesBefore tile level p) (sourceCodes tile level p)) := by
  simp only [packedSum_grid_deltas, gridSum_eq_weighted, ← deltaEnc3_codesBefore_get, Triple.get]

theorem encodeGrid_result_cons (code : Nat → Triple Int) (p : Nat) (ps : List Nat) (prev : Triple Int) :
    (encodeGrid code (p :: ps) prev).2 = (do
      let b ← packGrid p (deltaEnc3 prev (code p))
      let bs ← (encodeGrid code ps (code p)).2
      return b :: bs) := by
  cases h : packGrid p (deltaEnc3 prev (code p)) with
  | error e => rw [encodeGrid_cons_error h]; rfl
  | ok b =>
    rw [encodeGrid_cons_ok h]
    cases (encodeGrid code ps (code p)).2 <;> rfl

/-- The grid bytes from pixel `p` on are the packed sums from `11 + p` on (R150 step 4). -/
theorem encodeGrid_eq_packBytes (tile : Nat → Byte) (level p n : Nat) :
    (encodeGrid (sourceCodes tile level) (List.range' p n) (codesBefore tile level p)).2 =
      packBytes tile level (List.range' (11 + p) n) := by
  induction n generalizing p with
  | zero => rfl
  | succ n ih =>
    have hnext : sourceCodes tile level p = codesBefore tile level (p + 1) := rfl
    rw [List.range'_succ, List.range'_succ, encodeGrid_result_cons, packBytes_cons, packGrid, ← packedSum_grid, hnext,
      ih (p + 1)]
    rfl

/-- Where every byte packs, the accumulators end with the codes of the last position. -/
theorem encodeGrid_prev_of_ok {code : Nat → Triple Int} {ps : List Nat} {prev : Triple Int} {bs : List Byte}
    (h : (encodeGrid code ps prev).2 = .ok bs) : (encodeGrid code ps prev).1 = (ps.map code).getLastD prev := by
  induction ps generalizing prev bs with
  | nil => rfl
  | cons p ps ih =>
    rw [encodeGrid_result_cons] at h
    cases hpack : packGrid p (deltaEnc3 prev (code p)) with
    | error e => rw [hpack] at h; cases h
    | ok b =>
      rw [encodeGrid_cons_ok hpack, List.map_cons, List.getLastD_cons]
      cases hrest : (encodeGrid code ps (code p)).2 with
      | error e => rw [hpack, hrest] at h; cases h
      | ok bs => exact ih hrest

/-! ### The record -/

/-- Every packed sum of the record fits its byte. -/
abbrev AllFit (tile : Nat → Byte) (level : Nat) : Prop :=
  ∀ j, 7 ≤ j → j ≤ 74 → FitsByte (packedSum tile level j)

/-- Packed byte `j` is the first of the record that does not fit. -/
structure FirstOverflow (tile : Nat → Byte) (level j : Nat) : Prop where
  ge : 7 ≤ j
  le : j ≤ 74
  overflows : ¬ FitsByte (packedSum tile level j)
  fits_before : ∀ i, 7 ≤ i → i < j → FitsByte (packedSum tile level i)

theorem allFit_or_firstOverflow (tile : Nat → Byte) (level : Nat) :
    AllFit tile level ∨ ∃ j, FirstOverflow tile level j := by
  by_cases h : ∃ j, 7 ≤ j ∧ j ≤ 74 ∧ ¬ FitsByte (packedSum tile level j)
  · obtain ⟨hge, hle, hover⟩ := Nat.find_spec h
    refine .inr ⟨Nat.find h, hge, hle, hover, fun i hi hlt => ?_⟩
    by_contra hi'
    exact Nat.find_min h hlt ⟨hi, by omega, hi'⟩
  · push Not at h
    exact .inl h

/-- The record ENC writes where every sum fits (R150). -/
def sourceRecord (tile : Nat → Byte) (level : Nat) : List Byte :=
  encodeHeader tile level ++ (List.range' 7 68).map (packedByte tile level)

theorem sourceRecord_length (tile : Nat → Byte) (level : Nat) : (sourceRecord tile level).length = 75 := by
  simp [sourceRecord, encodeHeader_length]

/-- The grid loop of a tile over all 64 pixels. -/
def sourceGrid (tile : Nat → Byte) (level : Nat) : Triple Int × Except EngineError (List Byte) :=
  encodeGrid (sourceCodes tile level) pixels startPrev

theorem sourceGrid_eq_packBytes (tile : Nat → Byte) (level : Nat) :
    (sourceGrid tile level).2 = packBytes tile level (List.range' 11 64) := by
  rw [sourceGrid, pixels, List.range_eq_range']
  exact encodeGrid_eq_packBytes tile level 0 64

theorem sourceGrid_prev_of_ok {tile : Nat → Byte} {level : Nat} {bytes : List Byte}
    (h : (sourceGrid tile level).2 = .ok bytes) : (sourceGrid tile level).1 = sourceCodes tile level 63 := by
  have hpixels : pixels = List.range 63 ++ [63] := List.range_succ
  rw [sourceGrid, encodeGrid_prev_of_ok h, hpixels, List.map_append, List.map_singleton, List.getLastD_concat]

theorem encodeBlock_of_corners_error {tile : Nat → Byte} {level : Nat} {e : EngineError}
    (h : encodeCorners tile level = .error e) : encodeBlock tile level = (startPrev, .error e) := by
  unfold encodeBlock
  rw [h]

theorem encodeBlock_of_corners_ok {tile : Nat → Byte} {level : Nat} {corners : List Byte}
    (h : encodeCorners tile level = .ok corners) :
    encodeBlock tile level = ((sourceGrid tile level).1,
      (sourceGrid tile level).2.map (fun bytes => encodeHeader tile level ++ corners ++ bytes)) := by
  unfold encodeBlock
  rw [h, sourceGrid, ← funext (gridCode_eq tile level)]

/-- The bytes of ENC are the header and the packed sums 7 to 74, or the first PackingOverflow (R150, R152). -/
theorem encodeBlock_eq_packBytes (tile : Nat → Byte) (level : Nat) :
    (encodeBlock tile level).2 =
      (packBytes tile level (List.range' 7 68)).map (fun bytes => encodeHeader tile level ++ bytes) := by
  have hsplit : List.range' 7 68 = List.range' 7 4 ++ List.range' 11 64 := rfl
  rw [hsplit, packBytes_append, ← encodeCorners_eq_packBytes, ← sourceGrid_eq_packBytes]
  cases hcorners : encodeCorners tile level with
  | error e => rw [encodeBlock_of_corners_error hcorners]; rfl
  | ok corners =>
    rw [encodeBlock_of_corners_ok hcorners]
    cases (sourceGrid tile level).2 with
    | error e => rfl
    | ok bytes => exact congrArg Except.ok (List.append_assoc _ _ _)

/-- ENC that yields a record leaves the codes of position 63 in the accumulators. -/
theorem encodeBlock_prev_of_ok {tile : Nat → Byte} {level : Nat} {record : List Byte}
    (h : (encodeBlock tile level).2 = .ok record) : (encodeBlock tile level).1 = sourceCodes tile level 63 := by
  cases hcorners : encodeCorners tile level with
  | error e => rw [encodeBlock_of_corners_error hcorners] at h; cases h
  | ok corners =>
    rw [encodeBlock_of_corners_ok hcorners] at h ⊢
    cases hgrid : (sourceGrid tile level).2 with
    | error e => rw [hgrid] at h; cases h
    | ok bytes => exact sourceGrid_prev_of_ok hgrid

theorem encodeBlock_of_allFit {tile : Nat → Byte} {level : Nat} (h : AllFit tile level) :
    encodeBlock tile level = (sourceCodes tile level 63, .ok (sourceRecord tile level)) := by
  have hresult : (encodeBlock tile level).2 = .ok (sourceRecord tile level) := by
    rw [encodeBlock_eq_packBytes, packBytes_of_fits fun j hj => ?_]
    · rfl
    · obtain ⟨hge, hlt⟩ := List.mem_range'_1.mp hj
      exact h j hge (by omega)
  exact Prod.ext (encodeBlock_prev_of_ok hresult) hresult

theorem encodeBlock_of_firstOverflow {tile : Nat → Byte} {level j : Nat} (h : FirstOverflow tile level j) :
    (encodeBlock tile level).2 = .error (.packingOverflow j) := by
  have hge := h.ge
  have hle := h.le
  have hsplit : List.range' 7 68 = List.range' 7 (j - 7) ++ j :: List.range' (j + 1) (74 - j) := by
    have hj : List.range' j (74 - j + 1) = j :: List.range' (j + 1) (74 - j) := List.range'_succ
    have happend := List.range'_append_1 (s := 7) (m := j - 7) (n := 74 - j + 1)
    rw [Nat.add_sub_cancel' hge, hj] at happend
    rw [happend]
    congr 1
    omega
  rw [encodeBlock_eq_packBytes, hsplit, packBytes_of_overflow (fun i hi => ?_) h.overflows]
  · rfl
  · obtain ⟨hi7, hij⟩ := List.mem_range'_1.mp hi
    exact h.fits_before i hi7 (by omega)

end Sys2Proof.Machine
end

section
/-! What ENC leaves in the state: the record or a PackingOverflow (R150, R152, R154 (b)). -/

namespace Sys2Proof.Machine

/-! ### The two states ENC can leave -/

/-- The state after an ENC that completes with this record and these accumulators (R150). -/
def State.encoded (s : State) (prev : Triple Int) (record : List Byte) : State :=
  ({ s with prev := prev }.writeRec record).complete

/-- The state after an ENC that stops at REC index `j` with these accumulators (R152). -/
def State.overflowed (s : State) (prev : Triple Int) (j : Nat) : State :=
  { s with prev := prev }.raise (.packingOverflow j)

theorem State.encoded_mem (s : State) (prev : Triple Int) (record : List Byte) :
    (s.encoded prev record).mem = s.mem.writeBlock (recOffset 0) record := rfl

theorem State.overflowed_mem (s : State) (prev : Triple Int) (j : Nat) :
    (s.overflowed prev j).mem = s.mem.writeBlock 0xC0 (drawnRecord s.draws) := by
  rw [State.overflowed, State.raise_mem, EngineError.bufferEffect_packingOverflow, State.drawRecord_mem]

theorem State.encoded_wf {s : State} (h : s.mem.wf) (prev : Triple Int) (record : List Byte) :
    (s.encoded prev record).mem.wf := by
  rw [State.encoded_mem]
  exact Memory.writeBlock_wf h _ _

theorem State.overflowed_wf {s : State} (h : s.mem.wf) (prev : Triple Int) (j : Nat) :
    (s.overflowed prev j).mem.wf := by
  rw [State.overflowed_mem]
  exact Memory.writeBlock_wf h _ _

/-- A block write from REC on leaves TILE alone (R51). -/
theorem Memory.byte_writeBlock_tile (m : Memory) {base : Nat} (hbase : 192 ≤ base) (out : List Byte) {i : Nat}
    (hi : i < 192) : (m.writeBlock base out).byte (tileOffset i) = m.byte (tileOffset i) :=
  Memory.byte_writeBlock_out m (.inl (hi.trans_le hbase))

theorem State.sameTile_encoded (s : State) (prev : Triple Int) (record : List Byte) :
    SameTile s (s.encoded prev record) := fun i hi => by
  rw [State.tileByte, State.encoded_mem, Memory.byte_writeBlock_tile _ (by decide) _ hi, State.tileByte]

theorem State.sameTile_overflowed (s : State) (prev : Triple Int) (j : Nat) :
    SameTile s (s.overflowed prev j) := fun i hi => by
  rw [State.tileByte, State.overflowed_mem, Memory.byte_writeBlock_tile _ (by decide) _ hi, State.tileByte]

/-- REC after a completed ENC is the record, byte by byte (R150). -/
theorem State.recByte_encoded {s : State} (h : s.mem.wf) (prev : Triple Int) {record : List Byte}
    (hlen : record.length = 75) {j : Nat} {b : Byte} (hb : record[j]? = some b) :
    (s.encoded prev record).recByte j = b := by
  obtain ⟨hj, rfl⟩ := List.getElem?_eq_some_iff.mp hb
  have hoffset : recOffset j = recOffset 0 + j := rfl
  rw [State.recByte, State.encoded_mem, hoffset]
  exact Memory.byte_writeBlock_in h hj (by unfold recOffset Memory.size; omega)

/-- Everything ENC can do, through the two states. -/
theorem exec_enc_cases (s : State) :
    (∃ record, (encodeBlock s.tileByte s.levelNat).2 = .ok record ∧ record.length = 75 ∧
      exec .enc s = .next (s.encoded (encodeBlock s.tileByte s.levelNat).1 record)) ∨
    (∃ j, (encodeBlock s.tileByte s.levelNat).2 = .error (.packingOverflow j) ∧ 7 ≤ j ∧ j ≤ 74 ∧
      exec .enc s = .next (s.overflowed (encodeBlock s.tileByte s.levelNat).1 j)) :=
  execEnc_cases s

theorem exec_enc_of_ok {s : State} {record : List Byte} (h : (encodeBlock s.tileByte s.levelNat).2 = .ok record) :
    exec .enc s = .next (s.encoded (encodeBlock s.tileByte s.levelNat).1 record) := by
  obtain ⟨_, hok, -, hexec⟩ | ⟨j, herr, -⟩ := exec_enc_cases s
  · rwa [Except.ok.inj (h.symm.trans hok)]
  · cases h.symm.trans herr

theorem exec_enc_of_allFit {s : State} (h : AllFit s.tileByte s.levelNat) :
    exec .enc s = .next (s.encoded (sourceCodes s.tileByte s.levelNat 63) (sourceRecord s.tileByte s.levelNat)) := by
  have hblock := encodeBlock_of_allFit h
  rw [exec_enc_of_ok (congrArg Prod.snd hblock), hblock]

theorem exec_enc_of_firstOverflow {s : State} {j : Nat} (h : FirstOverflow s.tileByte s.levelNat j) :
    exec .enc s = .next (s.overflowed (encodeBlock s.tileByte s.levelNat).1 j) := by
  have hblock := encodeBlock_of_firstOverflow h
  obtain ⟨_, hok, -⟩ | ⟨i, herr, -, -, hexec⟩ := exec_enc_cases s
  · cases hblock.symm.trans hok
  · cases hblock.symm.trans herr
    exact hexec

/-- The index of a PackingOverflow fits ERRINFO (R75). -/
theorem State.overflowed_errinfo_toNat (s : State) (prev : Triple Int) {j : Nat} (h : j ≤ 74) :
    (s.overflowed prev j).errinfo.toNat = j :=
  Nat.mod_eq_of_lt (by omega)

/-! ### The bytes of the record -/

theorem sourceRecord_getElem_max (tile : Nat → Byte) (level : Nat) (c : Channel) :
    (sourceRecord tile level)[statMaxIndex c]? = some (byteOfInt (sourceMax tile c)) := by
  cases c <;> rfl

theorem sourceRecord_getElem_min (tile : Nat → Byte) (level : Nat) (c : Channel) :
    (sourceRecord tile level)[statMinIndex c]? = some (byteOfInt (sourceMin tile c)) := by
  cases c <;> rfl

theorem sourceRecord_getElem_flags (tile : Nat → Byte) (level : Nat) :
    (sourceRecord tile level)[flagsIndex]? = some (packFlags (tileFlags tile level)) :=
  rfl

theorem sourceRecord_getElem_packed (tile : Nat → Byte) (level : Nat) {j : Nat} (h7 : 7 ≤ j) (h74 : j ≤ 74) :
    (sourceRecord tile level)[j]? = some (packedByte tile level j) := by
  rw [sourceRecord, List.getElem?_append_right h7, encodeHeader_length, List.getElem?_map,
    List.getElem?_range' (by omega)]
  simp [Nat.add_sub_cancel' h7]

/-- The three flags are the low three bits of the flags byte (R78). -/
theorem unpackFlags_packFlags (i : Triple Bool) : unpackFlags (packFlags i) = i := by
  obtain ⟨_ | _, _ | _, _ | _⟩ := i <;> rfl

theorem packFlags_le (i : Triple Bool) : (packFlags i).toNat ≤ 7 := by
  obtain ⟨_ | _, _ | _, _ | _⟩ := i <;> decide

theorem recordMax_eq (record : Nat → Byte) (c : Channel) : recordMax record c = (record (statMaxIndex c)).toNat := by
  cases c <;> rfl

theorem recordMin_eq (record : Nat → Byte) (c : Channel) : recordMin record c = (record (statMinIndex c)).toNat := by
  cases c <;> rfl

theorem sourceMax_nonneg (tile : Nat → Byte) (c : Channel) : 0 ≤ sourceMax tile c :=
  (sourceMin_nonneg tile c).trans (sourceMin_le_sourceMax tile c)

theorem sourceMin_le (tile : Nat → Byte) (c : Channel) : sourceMin tile c ≤ 255 :=
  (sourceMin_le_sourceMax tile c).trans (sourceMax_le tile c)

/-- The bytes are those of the record of a tile at a level. -/
def HoldsRecord (tile : Nat → Byte) (level : Nat) (record : Nat → Byte) : Prop :=
  ∀ j b, (sourceRecord tile level)[j]? = some b → record j = b

theorem holdsRecord_encoded {s : State} (h : s.mem.wf) :
    HoldsRecord s.tileByte s.levelNat
      (s.encoded (sourceCodes s.tileByte s.levelNat 63) (sourceRecord s.tileByte s.levelNat)).recByte :=
  fun _ _ => State.recByte_encoded h _ (sourceRecord_length _ _)

section
variable {tile record : Nat → Byte} {level : Nat} (h : HoldsRecord tile level record)
include h

theorem HoldsRecord.max (c : Channel) : (recordMax record c : Int) = sourceMax tile c := by
  rw [recordMax_eq, h _ _ (sourceRecord_getElem_max tile level c)]
  exact byteOfInt_toNat (sourceMax_nonneg tile c) (sourceMax_le tile c)

theorem HoldsRecord.min (c : Channel) : (recordMin record c : Int) = sourceMin tile c := by
  rw [recordMin_eq, h _ _ (sourceRecord_getElem_min tile level c)]
  exact byteOfInt_toNat (sourceMin_nonneg tile c) (sourceMin_le tile c)

theorem HoldsRecord.flagsByte : record flagsIndex = packFlags (tileFlags tile level) :=
  h _ _ (sourceRecord_getElem_flags tile level)

theorem HoldsRecord.flag (c : Channel) : recordFlag record c = sourceFlag tile level c := by
  rw [← unpackFlags_get, h.flagsByte, unpackFlags_packFlags, tileFlags_get]

theorem HoldsRecord.flags_le : (record 6).toNat ≤ 7 :=
  h.flagsByte ▸ packFlags_le _

theorem HoldsRecord.packed {j : Nat} (h7 : 7 ≤ j) (h74 : j ≤ 74) (hfit : FitsByte (packedSum tile level j)) :
    ((record j).toNat : Int) = packedSum tile level j := by
  rw [h _ _ (sourceRecord_getElem_packed tile level h7 h74)]
  exact byteOfInt_toNat hfit.1 hfit.2

end

/-! ### The outcomes of ENC -/

/-- Settles O11: where every sum fits, REC takes the header and the packed bytes. -/
theorem encWritesTheRecord : Obligations.EncWritesTheRecord := by
  intro s hwf hfit
  have hrecord := holdsRecord_encoded hwf
  exact ⟨_, exec_enc_of_allFit hfit, rfl, rfl, fun c => ⟨hrecord.max c, hrecord.min c⟩, hrecord.flag,
    hrecord.flags_le, fun j h7 h74 => hrecord.packed h7 h74 (hfit j h7 h74), rfl, State.sameTile_encoded _ _ _,
    State.encoded_wf hwf _ _, rfl, rfl, rfl, rfl, rfl, rfl⟩

/-- Settles O12: packing stops at the first sum that does not fit, and its index is the error's detail. -/
theorem encOverflowReportsTheFirstByte : Obligations.EncOverflowReportsTheFirstByte := by
  intro s j hwf h7 h74 hover hbefore
  exact ⟨_, exec_enc_of_firstOverflow ⟨h7, h74, hover, hbefore⟩, rfl, rfl, rfl,
    State.overflowed_errinfo_toNat _ _ h74, State.sameTile_overflowed _ _ _, State.overflowed_wf hwf _ _, rfl, rfl, rfl⟩

/-- Settles O13, by the two things ENC can do. -/
theorem encAlwaysEnds : Obligations.EncAlwaysEnds := by
  intro s
  obtain ⟨record, -, -, hexec⟩ | ⟨j, -, h7, h74, hexec⟩ := exec_enc_cases s
  · exact ⟨_, hexec, rfl, rfl, State.sameTile_encoded _ _ _, rfl, ⟨rfl, rfl⟩, .inl ⟨rfl, rfl, rfl, rfl⟩⟩
  · refine ⟨_, hexec, rfl, rfl, State.sameTile_overflowed _ _ _, rfl, ⟨rfl, rfl⟩, .inr ⟨rfl, rfl, rfl, ?_⟩⟩
    rw [State.overflowed_errinfo_toNat _ _ h74]
    exact ⟨h7, h74⟩

/-- ENC that yields a record yields the one of the closed form. -/
theorem eq_sourceRecord_of_encodeBlock_ok {tile : Nat → Byte} {level : Nat} {record : List Byte}
    (h : (encodeBlock tile level).2 = .ok record) : record = sourceRecord tile level := by
  obtain hfit | ⟨j, hover⟩ := allFit_or_firstOverflow tile level
  · rw [encodeBlock_of_allFit hfit] at h
    exact (Except.ok.inj h).symm
  · cases (encodeBlock_of_firstOverflow hover).symm.trans h

/-- The stat bytes are the maxima and the minima of the three channels, whatever the level (R77). -/
theorem sourceRecord_take_stats (tile : Nat → Byte) (level : Nat) :
    (sourceRecord tile level).take 6 =
      [byteOfInt (tileStats tile).y.max, byteOfInt (tileStats tile).y.min, byteOfInt (tileStats tile).u.max,
        byteOfInt (tileStats tile).u.min, byteOfInt (tileStats tile).v.max, byteOfInt (tileStats tile).v.min] := by
  rw [sourceRecord, List.take_append_of_le_length (by rw [encodeHeader_length]; decide)]
  rfl

/-- Settles O15: the header reads LEVEL for its flags byte only. -/
theorem levelLeavesTheStatsAlone : Obligations.LevelLeavesTheStatsAlone := by
  intro tile level level' record record' h h'
  rw [eq_sourceRecord_of_encodeBlock_ok h, eq_sourceRecord_of_encodeBlock_ok h']
  exact ⟨sourceRecord_length _ _, sourceRecord_length _ _, by rw [sourceRecord_take_stats, sourceRecord_take_stats]⟩

/-! ### ENC reads the 192 bytes of TILE and LEVEL -/

/-- The grid loop reads the codes of its positions only. -/
theorem encodeGrid_congr {code code' : Nat → Triple Int} {ps : List Nat} (h : ∀ p ∈ ps, code p = code' p)
    (prev : Triple Int) : encodeGrid code ps prev = encodeGrid code' ps prev := by
  induction ps generalizing prev with
  | nil => rfl
  | cons p ps ih =>
    obtain ⟨hp, hps⟩ := List.forall_mem_cons.mp h
    simp only [encodeGrid, hp, ih hps]

section
variable {tile tile' : Nat → Byte} (h : ∀ i < 192, tile i = tile' i)
include h

theorem tileYuv_congr {p : Nat} (hp : p < 64) : tileYuv tile p = tileYuv tile' p := by
  rw [tileYuv, tileYuv, h (3 * p) (by omega), h (3 * p + 1) (by omega), h (3 * p + 2) (by omega)]

theorem tileStats_congr : tileStats tile = tileStats tile' :=
  Triple.ext_get fun c => by
    have hsamples : channelSamples tile c = channelSamples tile' c := List.map_congr_left fun p hp => by
      rw [← tileYuv_get, ← tileYuv_get, tileYuv_congr h (List.mem_range.mp hp)]
    rw [tileStats_get, tileStats_get, hsamples]

theorem tileFlags_congr (level : Nat) : tileFlags tile level = tileFlags tile' level := by
  simp only [tileFlags, tileRanges, tileStats_congr h]

theorem tileCorners_congr : tileCorners tile = tileCorners tile' := by
  simp only [tileCorners, cornerSamples, tileYuv_congr h (show 0 < 64 by decide),
    tileYuv_congr h (show 7 < 64 by decide), tileYuv_congr h (show 56 < 64 by decide),
    tileYuv_congr h (show 63 < 64 by decide)]

theorem gridCode_congr (level : Nat) {p : Nat} (hp : p < 64) : gridCode tile level p = gridCode tile' level p := by
  simp only [gridCode, tileFlags_congr h, tileCorners_congr h, tileStats_congr h, tileYuv_congr h hp]

/-- What ENC computes depends on the 192 bytes of TILE and on LEVEL (R150 (f)). -/
theorem encodeBlock_congr_tile (level : Nat) : encodeBlock tile level = encodeBlock tile' level := by
  have hcorners : encodeCorners tile level = encodeCorners tile' level := by
    simp only [encodeCorners, tileCorners_congr h, tileStats_congr h, tileFlags_congr h]
  have hgrid := encodeGrid_congr (ps := pixels)
    (fun p hp => gridCode_congr h level (List.mem_range.mp hp)) startPrev
  have hheader : encodeHeader tile level = encodeHeader tile' level := by
    simp only [encodeHeader, tileStats_congr h, tileFlags_congr h]
  unfold encodeBlock
  rw [hcorners, hgrid, hheader]

end

/-- Settles O14: both states compute the same block, and each outcome of ENC is made from it. -/
theorem encDependsOnTileAndLevel : Obligations.EncDependsOnTileAndLevel := by
  intro s s' hwf hwf' htile hlevel
  have hblock : encodeBlock s'.tileByte s'.levelNat = encodeBlock s.tileByte s.levelNat := by
    rw [encodeBlock_congr_tile htile, State.levelNat, hlevel, State.levelNat]
  have hcases' := exec_enc_cases s'
  rw [hblock] at hcases'
  obtain ⟨record, hok, hlen, hexec⟩ | ⟨j, herr, -, -, hexec⟩ := exec_enc_cases s
  · obtain ⟨record', hok', -, hexec'⟩ | ⟨j', herr', -⟩ := hcases'
    · obtain rfl := Except.ok.inj (hok.symm.trans hok')
      refine ⟨_, _, hexec, hexec', rfl, fun _ j hj => ?_, fun h => absurd h Bool.true_eq_false.mp⟩
      have hbyte := List.getElem?_eq_getElem (hlen.symm ▸ hj)
      rw [State.recByte_encoded hwf' _ hlen hbyte, State.recByte_encoded hwf _ hlen hbyte]
    · cases hok.symm.trans herr'
  · obtain ⟨record', hok', -⟩ | ⟨j', herr', -, -, hexec'⟩ := hcases'
    · cases herr.symm.trans hok'
    · cases herr.symm.trans herr'
      exact ⟨_, _, hexec, hexec', rfl, fun h => absurd h Bool.false_ne_true, fun _ => ⟨rfl, rfl⟩⟩

end Sys2Proof.Machine
end

section
/-! DEC in closed form, and what it leaves in the state: the tile or a FormatError (R151, R153). -/

namespace Sys2Proof.Machine

/-! ### The validation -/

/-- The record index of the first check that fails, in a record that is not valid (R153). -/
def firstBadField (record : Nat → Byte) : Nat :=
  if (record 0).toNat < (record 1).toNat then 0
  else if (record 2).toNat < (record 3).toNat then 2
  else if (record 4).toNat < (record 5).toNat then 4 else 6

theorem validateRecord_of_valid {record : Nat → Byte} (h : ValidRecord record) : validateRecord record = .ok () := by
  obtain ⟨hy, hu, hv, hflags⟩ := h
  rw [validateRecord, if_neg hy.not_gt, if_neg hu.not_gt, if_neg hv.not_gt,
    if_neg (show ¬ 7 < (record flagsIndex).toNat from Nat.not_lt.mpr hflags)]

theorem validateRecord_of_invalid {record : Nat → Byte} (h : ¬ ValidRecord record) :
    validateRecord record = .error (.formatError (firstBadField record)) := by
  unfold validateRecord firstBadField
  split_ifs with hy hu hv hflags
  · rfl
  · rfl
  · rfl
  · rfl
  · exact absurd ⟨Nat.not_lt.mp hy, Nat.not_lt.mp hu, Nat.not_lt.mp hv, Nat.not_lt.mp hflags⟩ h

/-! ### The codes -/

/-- The code at a position is the code before it plus the delta, reduced (R131, R134). -/
theorem decodedCode_succ (record : Nat → Byte) (p : Nat) (c : Channel) :
    decodedCode record (p + 1) c =
      (decodedCode record p c + packedField (record (11 + (p + 1))) c) % chainModulus c := by
  unfold decodedCode
  rw [List.range_succ, List.map_append, List.sum_append, List.map_singleton, List.sum_singleton, Int.emod_add_emod]

theorem decodedCode_zero (record : Nat → Byte) (c : Channel) :
    decodedCode record 0 c = packedField (record 11) c % chainModulus c := by
  simp [decodedCode]

/-- The codes the accumulators hold before pixel `p` (R134). -/
def decodedBefore (record : Nat → Byte) (p : Nat) : Triple Int :=
  if p = 0 then startPrev else decodedCodes record (p - 1)

/-- One round of the position loop makes the codes of its position. -/
theorem deltaDec3_decodedBefore (record : Nat → Byte) (p : Nat) :
    deltaDec3 (decodedBefore record p) (unpack3 (record (gridIndex p))) = decodedCodes record p :=
  Triple.ext_get fun c => by
    simp only [deltaDec3, decodedCodes, Triple.get_ofFn, deltaDec, unpack3_get, ← chainModulus_eq_deltaModulus]
    cases p with
    | zero =>
      have hstart : (decodedBefore record 0).get c = 0 := by cases c <;> rfl
      rw [hstart, zero_add, decodedCode_zero]
      rfl
    | succ p =>
      have hprev : (decodedBefore record (p + 1)).get c = decodedCode record p c := Triple.get_ofFn _ c
      rw [hprev, decodedCode_succ]
      rfl

/-! ### The tile -/

/-- The three bytes of pixel `p` (R151). -/
def decodedPixel (record : Nat → Byte) (p : Nat) : List Byte :=
  pixelBytes ⟨decodedSample record p .y, decodedSample record p .u, decodedSample record p .v⟩

/-- The 192 bytes DEC writes (R151). -/
def decodedTile (record : Nat → Byte) : List Byte :=
  pixels.flatMap (decodedPixel record)

theorem pixelBytes_decodeSample (record : Nat → Byte) (p : Nat) :
    pixelBytes (decodeSample record p (decodedCodes record p)) = decodedPixel record p := by
  have hsample : decodeSample record p (decodedCodes record p) =
      ⟨decodedSample record p .y, decodedSample record p .u, decodedSample record p .v⟩ :=
    Triple.ext_get fun c => by rw [decodeSample_get]; cases c <;> rfl
  rw [hsample, decodedPixel]

/-- The position loop from pixel `p` on. -/
theorem decodeGrid_range' (record : Nat → Byte) (p n : Nat) :
    decodeGrid record (List.range' p n) (decodedBefore record p) =
      (((List.range' p n).map (decodedCodes record)).getLastD (decodedBefore record p),
        (List.range' p n).flatMap (decodedPixel record)) := by
  induction n generalizing p with
  | zero => rfl
  | succ n ih =>
    have hnext : decodedCodes record p = decodedBefore record (p + 1) := rfl
    rw [List.range'_succ, decodeGrid, deltaDec3_decodedBefore, pixelBytes_decodeSample, hnext, ih (p + 1),
      List.map_cons, List.getLastD_cons, List.flatMap_cons, hnext]

theorem decodeGrid_pixels (record : Nat → Byte) :
    decodeGrid record pixels startPrev = (decodedCodes record 63, decodedTile record) := by
  have hrange : pixels = List.range' 0 64 := List.range_eq_range'
  have hlast : pixels = List.range 63 ++ [63] := List.range_succ
  have hgrid := decodeGrid_range' record 0 64
  rw [← hrange] at hgrid
  have hcodes : (pixels.map (decodedCodes record)).getLastD (decodedBefore record 0) = decodedCodes record 63 := by
    rw [hlast, List.map_append, List.map_singleton, List.getLastD_concat]
  exact hgrid.trans (Prod.ext hcodes rfl)

/-- In a list made of pieces of three, item `3 p + i` is item `i` of piece `p`. -/
theorem getElem?_flatMap_of_length_three {α β : Type} {f : α → List β} (hf : ∀ a, (f a).length = 3) (l : List α)
    (p : Nat) {i : Nat} (hi : i < 3) : (l.flatMap f)[3 * p + i]? = l[p]?.bind (fun a => (f a)[i]?) := by
  induction l generalizing p with
  | nil => rfl
  | cons a l ih =>
    rw [List.flatMap_cons]
    cases p with
    | zero => rw [List.getElem?_append_left (by rw [hf]; omega), Nat.mul_zero, Nat.zero_add]; rfl
    | succ p =>
      have hindex : 3 * (p + 1) + i - (f a).length = 3 * p + i := by rw [hf]; omega
      rw [List.getElem?_append_right (by rw [hf]; omega), hindex, ih p, List.getElem?_cons_succ]

theorem decodedTile_getElem (record : Nat → Byte) {p : Nat} (hp : p < 64) {i : Nat} (hi : i < 3) :
    (decodedTile record)[3 * p + i]? = (decodedPixel record p)[i]? := by
  rw [decodedTile, getElem?_flatMap_of_length_three (fun _ => rfl) _ _ hi, pixels, List.getElem?_range hp]
  rfl

theorem decodedTile_length (record : Nat → Byte) : (decodedTile record).length = 192 := by
  have hlen := decodeGrid_length record pixels startPrev
  rw [decodeGrid_pixels] at hlen
  exact hlen

/-- A colour byte holds the clamped and floored value (R103). -/
theorem byteOfInt_toU8_toNat (v : Rat) : ((byteOfInt (toU8 v)).toNat : Int) = toU8 v := by
  have hbounds : 0 ≤ toU8 v ∧ toU8 v ≤ 255 := by
    rw [toU8_eq_max_min_floor]
    omega
  exact byteOfInt_toNat hbounds.1 hbounds.2

/-! ### The state after DEC -/

/-- The state after a DEC that completes with this tile and these accumulators (R151). -/
def State.decoded (s : State) (prev : Triple Int) (tile : List Byte) : State :=
  ({ s with prev := prev }.writeTile tile).complete

theorem State.decoded_mem (s : State) (prev : Triple Int) (tile : List Byte) :
    (s.decoded prev tile).mem = s.mem.writeBlock (tileOffset 0) tile := rfl

theorem State.decoded_wf {s : State} (h : s.mem.wf) (prev : Triple Int) (tile : List Byte) :
    (s.decoded prev tile).mem.wf := by
  rw [State.decoded_mem]
  exact Memory.writeBlock_wf h _ _

/-- A block write of the 192 bytes of TILE leaves REC alone (R51). -/
theorem State.sameRecord_decoded (s : State) (prev : Triple Int) {tile : List Byte} (hlen : tile.length = 192) :
    SameRecord s (s.decoded prev tile) := fun j _ => by
  have hafter : tileOffset 0 + tile.length ≤ recOffset j := by unfold tileOffset recOffset; omega
  rw [State.recByte, State.decoded_mem, Memory.byte_writeBlock_out _ (.inr hafter), State.recByte]

/-- TILE after a completed DEC is the tile, byte by byte (R151). -/
theorem State.tileByte_decoded {s : State} (h : s.mem.wf) (prev : Triple Int) {tile : List Byte}
    (hlen : tile.length = 192) {i : Nat} {b : Byte} (hb : tile[i]? = some b) :
    (s.decoded prev tile).tileByte i = b := by
  obtain ⟨hi, rfl⟩ := List.getElem?_eq_some_iff.mp hb
  have hoffset : tileOffset i = tileOffset 0 + i := (Nat.zero_add i).symm
  rw [State.tileByte, State.decoded_mem, hoffset]
  exact Memory.byte_writeBlock_in h hi (by unfold tileOffset Memory.size; omega)

theorem exec_dec_of_valid {s : State} (h : ValidRecord s.recByte) :
    exec .dec s = .next (s.decoded (decodedCodes s.recByte 63) (decodedTile s.recByte)) := by
  have hvalid := validateRecord_of_valid h
  obtain ⟨-, hexec⟩ | ⟨j, herr, -⟩ := execDec_cases s
  · rw [exec_dec, hexec, decodeGrid_pixels]
    rfl
  · cases hvalid.symm.trans herr

theorem exec_dec_of_invalid {s : State} (h : ¬ ValidRecord s.recByte) :
    exec .dec s = .next (s.raise (.formatError (firstBadField s.recByte))) := by
  have hinvalid := validateRecord_of_invalid h
  obtain ⟨hok, -⟩ | ⟨j, herr, -, hexec⟩ := execDec_cases s
  · cases hinvalid.symm.trans hok
  · cases hinvalid.symm.trans herr
    exact hexec

/-- Settles O20: TILE takes the decoded tile, read back one by one. -/
theorem decWritesTheTile : Obligations.DecWritesTheTile := by
  intro s hwf hvalid
  have hlen := decodedTile_length s.recByte
  refine ⟨_, exec_dec_of_valid hvalid, rfl, rfl, fun p hp => ?pixel, rfl, State.sameRecord_decoded s _ hlen,
    State.decoded_wf hwf _ _, rfl, rfl, rfl, rfl, rfl, rfl⟩
  have hbyte : ∀ i < 3, ∀ b, (decodedPixel s.recByte p)[i]? = some b →
      (s.decoded (decodedCodes s.recByte 63) (decodedTile s.recByte)).tileByte (3 * p + i) = b :=
    fun i hi b hb => State.tileByte_decoded hwf _ hlen ((decodedTile_getElem _ hp hi).trans hb)
  refine ⟨?_, ?_, ?_⟩
  · rw [← byteOfInt_toU8_toNat, ← hbyte 0 (by decide) _ rfl, Nat.add_zero]
  · rw [← byteOfInt_toU8_toNat, ← hbyte 1 (by decide) _ rfl]
  · rw [← byteOfInt_toU8_toNat, ← hbyte 2 (by decide) _ rfl]

/-- Settles O21: the first check that fails is the error's detail, and no buffer is touched. -/
theorem decRejectsTheFirstBadField : Obligations.DecRejectsTheFirstBadField := by
  intro s hinvalid
  refine ⟨_, exec_dec_of_invalid hinvalid, rfl, rfl, rfl, ?errinfo, rfl, rfl, rfl, rfl, rfl⟩
  rw [State.raise_errinfo, EngineError.info, firstBadField]
  split_ifs <;> rfl

/-! ### What DEC reads of a record -/

/-- The blend reads four corner values. -/
theorem blend_congr {corner corner' : Nat → Rat} (h : ∀ k < 4, corner' k = corner k) (p : Nat) :
    blend corner' p = blend corner p := by
  unfold blend
  rw [h 0 (by decide), h 1 (by decide), h 2 (by decide), h 3 (by decide)]

section
variable {record record' : Nat → Byte} (hhead : ∀ j < 7, record' j = record j)
include hhead

theorem validRecord_congr (h : ValidRecord record) : ValidRecord record' := by
  unfold ValidRecord
  simpa only [hhead _ (show 0 < 7 by decide), hhead _ (show 1 < 7 by decide), hhead _ (show 2 < 7 by decide),
    hhead _ (show 3 < 7 by decide), hhead _ (show 4 < 7 by decide), hhead _ (show 5 < 7 by decide),
    hhead _ (show 6 < 7 by decide)] using h

theorem recordFlag_congr (c : Channel) : recordFlag record' c = recordFlag record c := by
  rw [← unpackFlags_get, ← unpackFlags_get, hhead flagsIndex (by decide)]

theorem recordValue_congr (c : Channel) (q : Int) : recordValue record' c q = recordValue record c q := by
  have hmax : recordMax record' c = recordMax record c := by
    rw [recordMax_eq, recordMax_eq, hhead _ (by cases c <;> decide)]
  have hmin : recordMin record' c = recordMin record c := by
    rw [recordMin_eq, recordMin_eq, hhead _ (by cases c <;> decide)]
  simp only [recordValue, hmax, hmin]

/-- A sample depends on the corner fields of a flagged channel, or on the grid fields of an unflagged one (R151 (b),
(e)). -/
theorem decodedSample_congr {c : Channel}
    (hcorner : recordFlag record c = true → ∀ k < 4, packedField (record' (7 + k)) c = packedField (record (7 + k)) c)
    (hgrid : recordFlag record c = false → ∀ p < 64,
      packedField (record' (11 + p)) c = packedField (record (11 + p)) c) {p : Nat} (hp : p < 64) :
    decodedSample record' p c = decodedSample record p c := by
  rw [decodedSample, decodedSample, recordFlag_congr hhead]
  cases hflag : recordFlag record c with
  | true =>
    simp only [if_true]
    exact blend_congr (fun k hk => by rw [recordValue_congr hhead, hcorner hflag k hk]) p
  | false =>
    have hcode : decodedCode record' p c = decodedCode record p c := by
      have hfields : ∀ i ∈ List.range (p + 1),
          (packedField (record' (11 + i)) c : Int) = packedField (record (11 + i)) c := fun i hi => by
        have := List.mem_range.mp hi
        rw [hgrid hflag i (by omega)]
      rw [decodedCode, decodedCode, List.map_congr_left hfields]
    rw [recordValue_congr hhead, hcode]
    rfl

end

/-- Settles O22: both records are valid, and each sample is made from fields on which they agree. -/
theorem decIgnoresUnusedFields : Obligations.DecIgnoresUnusedFields := by
  intro s s' hwf hwf' hvalid hhead hcorner hgrid
  have htile : decodedTile s'.recByte = decodedTile s.recByte := by
    have hsample : ∀ p ∈ pixels, ∀ c, decodedSample s'.recByte p c = decodedSample s.recByte p c := fun p hp c =>
      decodedSample_congr hhead (hcorner c) (hgrid c) (List.mem_range.mp hp)
    exact List.flatMap_congr fun p hp => by rw [decodedPixel, hsample p hp, hsample p hp, hsample p hp, decodedPixel]
  have hlen := decodedTile_length s.recByte
  have hexec' := exec_dec_of_valid (validRecord_congr hhead hvalid)
  rw [htile] at hexec'
  refine ⟨_, _, exec_dec_of_valid hvalid, hexec', rfl, rfl, fun i hi => ?_⟩
  have hbyte := List.getElem?_eq_getElem (hlen.symm ▸ hi)
  rw [State.tileByte_decoded hwf' _ hlen hbyte, State.tileByte_decoded hwf _ hlen hbyte]

end Sys2Proof.Machine
end

section
/-! DEC after ENC: the record always decodes, and nominal codes come back (R154). -/

namespace Sys2Proof.Machine

/-! ### A completed ENC -/

theorem allFit_of_done {s t : State} (hexec : exec .enc s = .next t) (hdone : t.status.done = true) :
    AllFit s.tileByte s.levelNat := by
  obtain hfit | ⟨j, hover⟩ := allFit_or_firstOverflow s.tileByte s.levelNat
  · exact hfit
  · cases (exec_enc_of_firstOverflow hover).symm.trans hexec
    cases hdone

/-- REC of a completed ENC holds the record of the tile, in which every packed sum fits. -/
theorem holdsRecord_of_done {s t : State} (hwf : s.mem.wf) (hexec : exec .enc s = .next t)
    (hdone : t.status.done = true) :
    HoldsRecord s.tileByte s.levelNat t.recByte ∧ AllFit s.tileByte s.levelNat := by
  have hfit := allFit_of_done hexec hdone
  cases (exec_enc_of_allFit hfit).symm.trans hexec
  exact ⟨holdsRecord_encoded hwf, hfit⟩

/-- A minimum never exceeds its maximum, so a record of ENC is valid (R154 (a)). -/
theorem HoldsRecord.valid {tile record : Nat → Byte} {level : Nat} (h : HoldsRecord tile level record) :
    ValidRecord record := by
  have hstats : ∀ c, recordMin record c ≤ recordMax record c := fun c => by
    have hle := sourceMin_le_sourceMax tile c
    rw [← h.min c, ← h.max c] at hle
    exact_mod_cast hle
  exact ⟨hstats .y, hstats .u, hstats .v, h.flags_le⟩

/-- Settles O23: a completed ENC leaves a valid record, on which DEC completes. -/
theorem encRecordsAlwaysDecode : Obligations.EncRecordsAlwaysDecode := by
  intro s t hwf hexec hdone
  obtain ⟨hrecord, -⟩ := holdsRecord_of_done hwf hexec hdone
  exact ⟨hrecord.valid, _, exec_dec_of_valid hrecord.valid, rfl,
    State.sameRecord_decoded t _ (decodedTile_length t.recByte)⟩

/-! ### Nominal codes -/

/-- Every code of a channel of a tile is nominal: a remainder by the modulus of its delta chain (R121, R122). -/
def ChannelNominal (tile : Nat → Byte) (level : Nat) (c : Channel) : Prop :=
  ∀ p < 64, 0 ≤ sourceCode tile level p c ∧ sourceCode tile level p c < deltaModulus c

/-- Y codes always are (R125). -/
theorem channelNominal_y (tile : Nat → Byte) (level : Nat) : ChannelNominal tile level .y := fun _ hp =>
  have hlegal := sourceCodes_legal tile level hp .y
  ⟨hlegal.1, Int.lt_add_one_iff.mpr hlegal.2⟩

theorem sourceDelta_eq_deltaEnc (tile : Nat → Byte) (level p : Nat) (c : Channel) :
    sourceDelta tile level p c = deltaEnc c ((codesBefore tile level p).get c) (sourceCode tile level p c) := by
  rw [← deltaEnc3_codesBefore_get, deltaEnc3, Triple.get_ofFn, sourceCodes, Triple.get_ofFn]

theorem decodedCode_eq_deltaDec (record : Nat → Byte) (p : Nat) (c : Channel) :
    decodedCode record p c = deltaDec c ((decodedBefore record p).get c) (packedField (record (11 + p)) c) := by
  have hround := congrArg (fun q => q.get c) (deltaDec3_decodedBefore record p)
  simp only [deltaDec3, decodedCodes, Triple.get_ofFn, unpack3_get] at hround
  exact hround.symm

theorem codesBefore_nominal {tile : Nat → Byte} {level : Nat} {c : Channel} (h : ChannelNominal tile level c) {p : Nat}
    (hp : p < 64) : 0 ≤ (codesBefore tile level p).get c ∧ (codesBefore tile level p).get c < deltaModulus c := by
  unfold codesBefore
  split
  · cases c <;> decide
  · rw [sourceCodes, Triple.get_ofFn]
    exact h (p - 1) (by omega)

theorem sourceDelta_nominal {tile : Nat → Byte} {level : Nat} {c : Channel} (h : ChannelNominal tile level c) {p : Nat}
    (hp : p < 64) : 0 ≤ sourceDelta tile level p c ∧ sourceDelta tile level p c < deltaModulus c := by
  rw [sourceDelta_eq_deltaEnc]
  exact deltaEnc_bounds (codesBefore_nominal h hp) (h p hp)

/-- Where the delta fields of a nominal channel are ENC's deltas, DEC has ENC's codes: each round undoes one delta
(R135 (b), (c)). -/
theorem decodedCode_eq_sourceCode {tile record : Nat → Byte} {level : Nat} {c : Channel}
    (hnominal : ChannelNominal tile level c)
    (hfield : ∀ p < 64, (packedField (record (11 + p)) c : Int) = sourceDelta tile level p c) {p : Nat} (hp : p < 64) :
    decodedCode record p c = sourceCode tile level p c := by
  have hround : ∀ p < 64, (decodedBefore record p).get c = (codesBefore tile level p).get c →
      decodedCode record p c = sourceCode tile level p c := fun p hp hbefore => by
    rw [decodedCode_eq_deltaDec, hfield p hp, sourceDelta_eq_deltaEnc, hbefore, deltaDec_deltaEnc]
    exact Int.emod_eq_of_lt (hnominal p hp).1 (hnominal p hp).2
  induction p with
  | zero => exact hround 0 hp rfl
  | succ p ih =>
    refine hround (p + 1) hp ?_
    have hdecoded : (decodedBefore record (p + 1)).get c = decodedCode record p c := Triple.get_ofFn _ c
    have hsource : (codesBefore tile level (p + 1)).get c = sourceCode tile level p c := Triple.get_ofFn _ c
    rw [hdecoded, hsource, ih (by omega)]

/-! ### The reconstruction error of a nominal code -/

/-- R126 (b) for a code up to the divisor, whatever the value: a sample above the maximum is within one step of it
too. -/
theorem dequant_quant_error_of_le (c : Channel) {v : Rat} {st : Stat} (hrange : 0 < st.range)
    (hlow : 0 ≤ quant c v st) (hhigh : (quant c v st : Rat) ≤ dequantDivisor c) :
    |dequant c (quant c v st) st - v| < st.range / dequantDivisor c := by
  have hr : (0 : Rat) < st.range := by exact_mod_cast hrange
  obtain ⟨habs, -⟩ := normalised_error_bounds c (by exact_mod_cast hlow) hhigh (quant_le_scaled_norm c v st)
    (scaled_norm_lt_quant_add_one c v st)
  rw [dequant_sub_eq c _ v hrange, abs_mul, abs_of_pos hr]
  exact (mul_lt_mul_of_pos_left habs hr).trans_eq (by ring)

theorem le_dequantDivisor_of_lt_deltaModulus {c : Channel} {q : Int} (h : q < deltaModulus c) :
    (q : Rat) ≤ dequantDivisor c := by
  have hmod : dequantDivisor c = ((deltaModulus c - 1 : Int) : Rat) := by
    cases c <;> norm_num [dequantDivisor, deltaModulus]
  rw [hmod]
  exact_mod_cast Int.le_sub_one_of_lt h

theorem HoldsRecord.stats {tile record : Nat → Byte} {level : Nat} (h : HoldsRecord tile level record) (c : Channel) :
    (recordStats record).get c = (tileStats tile).get c := by
  have hmin := h.min c
  have hmax := h.max c
  rw [recordMin_eq] at hmin
  rw [recordMax_eq] at hmax
  rw [recordStats, Triple.get_ofFn, hmin, hmax]
  rfl

/-- A nominal channel whose delta fields are ENC's deltas is recovered (R154 (c)). -/
theorem recovered_of_fields {s t : State} {c : Channel} (hrecord : HoldsRecord s.tileByte s.levelNat t.recByte)
    (hnominal : ChannelNominal s.tileByte s.levelNat c)
    (hfield : ∀ p < 64, (packedField (t.recByte (11 + p)) c : Int) = sourceDelta s.tileByte s.levelNat p c) :
    Recovered s t c := by
  intro p hp
  have hcode := decodedCode_eq_sourceCode hnominal hfield hp
  refine ⟨hcode, fun hflag hrange => ?_⟩
  obtain ⟨hlow, hhigh⟩ := hnominal p hp
  have hquant : sourceCode s.tileByte s.levelNat p c =
      quant c (sourceSample s.tileByte p c) ((tileStats s.tileByte).get c) := by
    rw [quant_tileStats, sourceCode, hflag]
    rfl
  rw [hquant] at hcode hlow hhigh
  have herror := dequant_quant_error_of_le c (Int.sub_pos.mpr hrange) hlow
    (le_dequantDivisor_of_lt_deltaModulus hhigh)
  rw [hcode, ← dequant_recordStats, hrecord.stats c]
  refine herror.trans_eq ?_
  rw [Stat.range, Int.cast_sub]
  cases c <;> rfl

/-! ### The fields of a grid byte -/

/-- The lowest field of a byte is the last digit of its sum, whatever the fields above it. -/
theorem packedField_v_of_toNat_eq {b : Byte} {y u v : Int} (h : (b.toNat : Int) = 16 * y + 4 * u + v) (hlow : 0 ≤ v)
    (hhigh : v < 4) : (packedField b .v : Int) = v := by
  simp only [packedField]
  omega

/-- No carry reaches the V field from below. -/
theorem HoldsRecord.field_v {tile record : Nat → Byte} {level : Nat} (h : HoldsRecord tile level record)
    (hfit : AllFit tile level) (hnominal : ChannelNominal tile level .v) {p : Nat} (hp : p < 64) :
    (packedField (record (11 + p)) .v : Int) = sourceDelta tile level p .v := by
  have hbyte := h.packed (by omega) (by omega) (hfit (11 + p) (by omega) (by omega))
  obtain ⟨hlow, hhigh⟩ := sourceDelta_nominal hnominal hp
  exact packedField_v_of_toNat_eq (hbyte.trans (packedSum_grid_deltas tile level p)) hlow hhigh

/-- Nominal codes have nominal deltas (R135 (a)). -/
theorem deltas_nominal {tile : Nat → Byte} {level : Nat} (h : ∀ c, ChannelNominal tile level c) {p : Nat}
    (hp : p < 64) : Nominal (deltaEnc3 (codesBefore tile level p) (sourceCodes tile level p)) :=
  (nominal_iff _).mpr fun c => by
    rw [deltaEnc3_codesBefore_get]
    exact sourceDelta_nominal (h c) hp

/-- Nominal deltas fit the grid bytes, and a corner byte always fits (R142, R135 (a)). -/
theorem allFit_of_nominal {tile : Nat → Byte} {level : Nat} (h : ∀ c, ChannelNominal tile level c) :
    AllFit tile level := by
  intro j h7 h74
  obtain hcorner | hgrid := lt_or_ge j 11
  · have hfit := cornerBytesNeverOverflow tile level (j - 7) (by omega)
    rwa [Nat.add_sub_cancel' h7] at hfit
  · have hfit := gridSum_fitsByte (deltas_nominal h (p := j - 11) (by omega))
    rwa [← packedSum_grid, Nat.add_sub_cancel' hgrid] at hfit

/-- Without a carry every field of a grid byte is its channel's delta (R133). -/
theorem HoldsRecord.field {tile record : Nat → Byte} {level : Nat} (h : HoldsRecord tile level record)
    (hnominal : ∀ c, ChannelNominal tile level c) {p : Nat} (hp : p < 64) (c : Channel) :
    (packedField (record (11 + p)) c : Int) = sourceDelta tile level p c := by
  have hbyte := h.packed (by omega) (by omega) (allFit_of_nominal hnominal (11 + p) (by omega) (by omega))
  rw [packedSum_grid] at hbyte
  rw [← unpack3_get, unpack3_of_toNat_eq_gridSum (deltas_nominal hnominal hp) hbyte, deltaEnc3_codesBefore_get]

/-- Settles O24: without a carry every field is its delta, and the V field is whatever the fields above it. -/
theorem nominalCodesAreRecovered : Obligations.NominalCodesAreRecovered := by
  intro s hwf
  refine ⟨fun hcodes => ?all, fun t hexec hdone hcodes => ?v⟩
  case all =>
    have hnominal : ∀ c, ChannelNominal s.tileByte s.levelNat c := fun c => by
      cases c with
      | y => exact channelNominal_y _ _
      | u => exact fun p hp => (hcodes p hp .u (by decide)).imp_right Int.lt_add_one_iff.mpr
      | v => exact fun p hp => (hcodes p hp .v (by decide)).imp_right Int.lt_add_one_iff.mpr
    have hrecord := holdsRecord_encoded hwf
    exact ⟨_, exec_enc_of_allFit (allFit_of_nominal hnominal), rfl, fun c =>
      recovered_of_fields hrecord (hnominal c) fun p hp => hrecord.field hnominal hp c⟩
  case v =>
    obtain ⟨hrecord, hfit⟩ := holdsRecord_of_done hwf hexec hdone
    have hnominal : ChannelNominal s.tileByte s.levelNat .v := fun p hp =>
      (hcodes p hp).imp_right Int.lt_add_one_iff.mpr
    exact recovered_of_fields hrecord hnominal fun p hp => hrecord.field_v hfit hnominal hp

end Sys2Proof.Machine
end

section
/-! A flat grey tile (R150 (c)): its samples are whole numbers, so its ranges are 0, every packed byte is 0 and DEC gives it back. -/

namespace Sys2Proof.Machine

/-- The sample of a grey of brightness `n`: `n` for Y, 128 for U and V (R100). -/
def greyLevel (n : Byte) : Channel → Int
  | .y => n.toNat
  | .u => 128
  | .v => 128

theorem greyLevel_le (n : Byte) (c : Channel) : greyLevel n c ≤ 255 := by
  have := n.isLt
  cases c <;> simp only [greyLevel] <;> omega

theorem byteOfInt_byte_toNat (n : Byte) : byteOfInt n.toNat = n := by
  rw [byteOfInt, BitVec.ofInt_natCast, BitVec.ofNat_toNat, BitVec.setWidth_eq]

/-- The flags byte of a flat tile: every channel is flagged, unless LEVEL is 0 (R124). -/
def flatFlags (level : Nat) : Byte :=
  if level = 0 then 0 else 7

/-! ### ENC of a flat grey tile -/

section
variable {tile : Nat → Byte} {n : Byte} (h : ∀ i < 192, tile i = n)
include h

theorem sourceSample_of_grey {p : Nat} (hp : p < 64) (c : Channel) : sourceSample tile p c = greyLevel n c := by
  have hr := h (3 * p) (by omega)
  have hg := h (3 * p + 1) (by omega)
  have hb := h (3 * p + 2) (by omega)
  cases c <;> simp only [sourceSample, hr, hg, hb, greyLevel] <;> push_cast <;> ring

theorem sourceMin_of_grey (c : Channel) : sourceMin tile c = greyLevel n c := by
  obtain ⟨p, hp, -, hmin⟩ := exists_least_sourceSample tile c
  rw [hmin, sourceSample_of_grey h hp, Rat.floor_intCast]

theorem sourceMax_of_grey (c : Channel) : sourceMax tile c = greyLevel n c := by
  obtain ⟨p, hp, -, hmax⟩ := exists_greatest_sourceSample tile c
  have hle := greyLevel_le n c
  rw [hmax, sourceSample_of_grey h hp, Rat.ceil_intCast, if_neg (by omega)]

theorem sourceMax_eq_sourceMin_of_grey (c : Channel) : sourceMax tile c = sourceMin tile c :=
  (sourceMax_of_grey h c).trans (sourceMin_of_grey h c).symm

theorem sourceCodeOf_of_grey (c : Channel) (v : Rat) : sourceCodeOf tile c v = 0 :=
  if_pos (sourceMax_eq_sourceMin_of_grey h c)

theorem sourceCorner_of_grey (level k : Nat) (c : Channel) : sourceCorner tile level k c = 0 := by
  rw [sourceCorner, sourceCodeOf_of_grey h, ite_self]

theorem sourceDelta_of_grey (level p : Nat) (c : Channel) : sourceDelta tile level p c = 0 := by
  simp [sourceDelta, sourceCode, sourceCodeOf_of_grey h]

theorem packedSum_of_grey (level j : Nat) : packedSum tile level j = 0 := by
  unfold packedSum
  split <;> simp [sourceCorner_of_grey h, sourceDelta_of_grey h]

theorem allFit_of_grey (level : Nat) : AllFit tile level := fun j _ _ => by
  rw [packedSum_of_grey h]
  decide

theorem tileFlags_of_grey (level : Nat) : packFlags (tileFlags tile level) = flatFlags level := by
  have hrange : ∀ c, (tileRanges tile).get c = 0 := fun c => by
    rw [tileRanges, Triple.get_ofFn]
    exact Int.sub_eq_zero.mpr (sourceMax_eq_sourceMin_of_grey h c)
  have hranges : tileRanges tile = ⟨0, 0, 0⟩ := Triple.ext_get fun c => by rw [hrange]; cases c <;> rfl
  rw [tileFlags, hranges]
  cases level with
  | zero => rfl
  | succ level =>
    have hflags : interpFlags (level + 1) ⟨0, 0, 0⟩ = ⟨true, true, true⟩ := by
      have hpos : (0 : Int) < ((level + 1 : Nat) : Int) := by omega
      simp only [interpFlags, mul_zero, hpos, decide_true]
    rw [hflags]
    rfl

/-- The record of a flat grey tile, written out (R150 (c)). -/
theorem sourceRecord_of_grey (level : Nat) :
    sourceRecord tile level = [n, n, 0x80, 0x80, 0x80, 0x80, flatFlags level] ++ List.replicate 68 0 := by
  have hheader : encodeHeader tile level = [byteOfInt (sourceMax tile .y), byteOfInt (sourceMin tile .y),
      byteOfInt (sourceMax tile .u), byteOfInt (sourceMin tile .u), byteOfInt (sourceMax tile .v),
      byteOfInt (sourceMin tile .v), packFlags (tileFlags tile level)] := rfl
  have hpacked : packedByte tile level = fun _ => 0 := funext fun j => by
    rw [packedByte, packedSum_of_grey h]
    rfl
  rw [sourceRecord, hheader, hpacked, List.map_const', List.length_range']
  simp only [sourceMax_of_grey h, sourceMin_of_grey h, tileFlags_of_grey h, greyLevel, byteOfInt_byte_toNat]
  rfl

/-! ### DEC of its record -/

variable {record : Nat → Byte} {level : Nat} (hrecord : HoldsRecord tile level record)
include hrecord

theorem HoldsRecord.byte_of_grey {j : Nat} (hj : j < 75) :
    record j = if j < 2 then n else if j < 6 then 0x80 else if j = 6 then flatFlags level else 0 := by
  refine hrecord j _ ?_
  rw [sourceRecord_of_grey h]
  obtain hhead | htail := lt_or_ge j 7
  · interval_cases j <;> rfl
  · rw [List.getElem?_append_right htail, List.getElem?_replicate_of_lt (by simp; omega), if_neg (by omega),
      if_neg (by omega), if_neg (by omega)]

/-- Every code of a channel of range 0 has the value of the channel's minimum. -/
theorem recordValue_of_grey (c : Channel) (q : Int) : recordValue record c q = greyLevel n c := by
  have hmax := (hrecord.max c).trans (sourceMax_of_grey h c)
  have hmin := (hrecord.min c).trans (sourceMin_of_grey h c)
  have hmax' : (recordMax record c : Rat) = greyLevel n c := by exact_mod_cast congrArg (Int.cast : Int → Rat) hmax
  have hmin' : (recordMin record c : Rat) = greyLevel n c := by exact_mod_cast congrArg (Int.cast : Int → Rat) hmin
  unfold recordValue
  rw [hmax', hmin', sub_self, mul_zero, zero_div, add_zero]

theorem decodedSample_of_grey {p : Nat} (hp : p < 64) (c : Channel) : decodedSample record p c = greyLevel n c := by
  simp only [decodedSample, recordValue_of_grey h hrecord]
  split
  · obtain ⟨hlow, hhigh⟩ := blend_bounds (corner := fun _ => (greyLevel n c : Rat)) (fun _ => ⟨le_rfl, le_rfl⟩) hp
    exact le_antisymm hhigh hlow
  · rfl

/-- A grey sample is a grey pixel (R101). -/
theorem decodedPixel_of_grey {p : Nat} (hp : p < 64) : decodedPixel record p = [n, n, n] := by
  have hbyte : byteOfInt (toU8 (greyLevel n .y)) = n := by
    have hnonneg : 0 ≤ greyLevel n .y := Int.natCast_nonneg _
    rw [toU8_eq_max_min_floor, Rat.floor_intCast, min_eq_right (greyLevel_le n .y), max_eq_right hnonneg]
    exact byteOfInt_byte_toNat n
  have hrgb : yuvToRgb ⟨greyLevel n .y, greyLevel n .u, greyLevel n .v⟩ =
      ⟨greyLevel n .y, greyLevel n .y, greyLevel n .y⟩ := by
    simp [yuvToRgb, greyLevel]
  simp only [decodedPixel, decodedSample_of_grey h hrecord hp, pixelBytes, hrgb, hbyte]

theorem decodedTile_getElem_of_grey {i : Nat} (hi : i < 192) : (decodedTile record)[i]? = some n := by
  have hindex : i = 3 * (i / 3) + i % 3 := (Nat.div_add_mod i 3).symm
  have hmod : i % 3 < 3 := Nat.mod_lt i (by decide)
  rw [hindex, decodedTile_getElem record (by omega) hmod, decodedPixel_of_grey h hrecord (by omega)]
  interval_cases i % 3 <;> rfl

end

/-- Settles O19: the record of the closed form, and DEC of it pixel by pixel. -/
theorem flatGreyTileIsExact : Obligations.FlatGreyTileIsExact := by
  intro s n hwf hgrey
  have hrecord := holdsRecord_encoded hwf
  refine ⟨_, _, exec_enc_of_allFit (allFit_of_grey hgrey s.levelNat), rfl, fun j hj => ?record,
    exec_dec_of_valid hrecord.valid, rfl, fun i hi => ?tile⟩
  case record =>
    have hflags : flatFlags s.levelNat = if s.level = 0 then 0 else 7 := by
      have hlevel : s.levelNat = 0 ↔ s.level = 0 := BitVec.toNat_inj (y := 0#16)
      simp only [flatFlags, hlevel]
    rw [← hflags]
    exact hrecord.byte_of_grey hgrey hj
  case tile =>
    exact State.tileByte_decoded (State.encoded_wf hwf _ _) _ (decodedTile_length _)
      (decodedTile_getElem_of_grey hgrey hrecord hi)

end Sys2Proof.Machine
end

section
/-! The command issue (R170 to R173): what a byte written to CMD does in each state, and which command a step runs. -/

namespace Sys2Proof.Machine

/-! ### A byte written to CMD -/

/-- The offset of CMD issues a command, in every state (R51, R53). -/
theorem memWrite_cmd (v : Byte) (s : State) : memWrite 0x110 v s = issueCommand v s := rfl

/-- SRST takes effect within the write, in every state (R171). -/
theorem issueCommand_srst (s : State) : issueCommand 0xFF s = .next s.resetEngine := rfl

/-- In BUSY and in ERROR a byte that is no SRST is ignored without trace (R173). -/
theorem issueCommand_ignored {s : State} {v : Byte} (h : s.status.busy = true ∨ s.status.err = true) (hv : v ≠ 0xFF) :
    issueCommand v s = .next s := by
  rw [issueCommand, if_neg (mt decodeByte_eq_ok_iff.mp hv)]
  split_ifs with herr hbusy
  · rfl
  · rfl
  · simp [herr, hbusy] at h

/-- In IDLE and DONE a byte that is no SRST is taken as a command (R173). -/
theorem issueCommand_ready {s : State} {v : Byte} (hbusy : s.status.busy = false) (herr : s.status.err = false)
    (hv : v ≠ 0xFF) : issueCommand v s = acceptCommand v s := by
  rw [issueCommand, if_neg (mt decodeByte_eq_ok_iff.mp hv), if_neg (by simp [herr]), if_neg (by simp [hbusy])]

/-- NOP changes nothing, whether it is accepted or ignored (R170). -/
theorem issueCommand_nop (s : State) : issueCommand 0x00 s = .next s := by
  by_cases h : s.status.busy = true ∨ s.status.err = true
  · exact issueCommand_ignored h (by decide)
  · obtain ⟨hbusy, herr⟩ := not_or.mp h
    exact issueCommand_ready (Bool.eq_false_of_not_eq_true hbusy) (Bool.eq_false_of_not_eq_true herr) (by decide)

theorem issueCommand_enc {s : State} (hbusy : s.status.busy = false) (herr : s.status.err = false) :
    issueCommand 0x01 s = .next (s.accept .enc) :=
  issueCommand_ready hbusy herr (by decide)

theorem issueCommand_dec {s : State} (hbusy : s.status.busy = false) (herr : s.status.err = false) :
    issueCommand 0x02 s = .next (s.accept .dec) :=
  issueCommand_ready hbusy herr (by decide)

theorem acceptCommand_reserved {v : Byte} (h3 : 0x03 ≤ v.toNat) (hFE : v.toNat ≤ 0xFE) (s : State) :
    acceptCommand v s = .next (s.raise (.illegalCommand v)) := by
  rw [acceptCommand, decodeByte_reserved h3 hFE]

/-- The reserved bytes end below SRST's (R71). -/
theorem ne_srst_of_toNat_le {v : Byte} (hFE : v.toNat ≤ 0xFE) : v ≠ 0xFF := by
  rintro rfl
  exact absurd hFE (by decide)

/-- Settles O5: what acceptance sets and leaves is said by the rules of `State.accept`. -/
theorem encAndDecAreAccepted : Obligations.EncAndDecAreAccepted := by
  intro s hbusy herr
  have hstatus : ∀ op, (s.accept op).status = ⟨true, false, false⟩ := fun op => by rw [State.accept_status, herr]
  exact ⟨⟨_, issueCommand_enc hbusy herr, rfl, hstatus .enc, rfl, rfl, rfl, rfl, rfl, rfl, rfl⟩,
    ⟨_, issueCommand_dec hbusy herr, rfl, hstatus .dec, rfl, rfl, rfl, rfl, rfl, rfl, rfl⟩⟩

/-- Settles O6, by the one rule for both states. -/
theorem commandsIgnoredInBusyAndError : Obligations.CommandsIgnoredInBusyAndError :=
  fun _ _ h hv => issueCommand_ignored h hv

/-- Settles O40: a reserved byte is no SRST, so IDLE and DONE take it as a command and raise the error. -/
theorem reservedCommandRaisesIllegalCommand : Obligations.ReservedCommandRaisesIllegalCommand := by
  intro s v h3 hFE
  have hv := ne_srst_of_toNat_le hFE
  refine ⟨fun hbusy herr => ?ready, fun h => issueCommand_ignored h hv⟩
  case ready =>
    have hraise : memWrite 0x110 v s = .next (s.raise (.illegalCommand v)) := by
      rw [memWrite_cmd, issueCommand_ready hbusy herr hv, acceptCommand_reserved h3 hFE]
    exact ⟨_, hraise, rfl, rfl, rfl, rfl, rfl, rfl, rfl, rfl, rfl, rfl⟩

/-- Settles O7: NOP is accepted without effect or ignored. -/
theorem nopChangesNothing : Obligations.NopChangesNothing :=
  fun s => ⟨exec_nop s, issueCommand_nop s⟩

/-- Settles O8: both forms of SRST answer `State.resetEngine`. -/
theorem srstResetsEverything : Obligations.SrstResetsEverything := fun s =>
  ⟨s.resetEngine, exec_srst s, issueCommand_srst s, rfl, rfl, rfl, rfl, rfl, rfl, Memory.drawn_wf s.draws, rfl, rfl⟩

/-! ### What a step runs -/

theorem step_of_engineMoves {s : State} (h : engineMoves s = true) : step s = engineStep s :=
  if_pos h

/-- Where the engine does not move, the host's next action is served, taken off its list. -/
theorem step_of_script {s : State} {a : HostAction} {rest : List HostAction} (h : engineMoves s = false)
    (hscript : s.script = a :: rest) : step s = serve a (s.consume rest) := by
  rw [step, if_neg (by simp [h]), hostStep, hscript]

theorem engineStep_enc {s : State} (h : s.op = .enc) : engineStep s = exec .enc s := by
  rw [engineStep, h]

theorem engineStep_dec {s : State} (h : s.op = .dec) : engineStep s = exec .dec s := by
  rw [engineStep, h]

/-- Settles O3: the engine's step reads OP, the host's step serves the action, and a write to CMD is the issue of the
one byte that decodes to the command. -/
theorem stepRunsTheDecodedCommand : Obligations.StepRunsTheDecodedCommand := by
  refine ⟨fun s hmoves hop => ?enc, fun s hmoves hop => ?dec, fun s v rest hmoves hscript => ?cmd,
    fun s a rest => step_of_script⟩
  case enc => rw [step_of_engineMoves hmoves, engineStep_enc hop]
  case dec => rw [step_of_engineMoves hmoves, engineStep_dec hop]
  case cmd =>
    have hissue : step s = issueCommand v (s.consume rest) := step_of_script hmoves hscript
    refine ⟨fun hv => ?_, fun hv _ _ => ?_, fun hv herr hbusy => ?_, fun hv herr hbusy => ?_⟩ <;>
      cases decodeByte_eq_ok_iff.mp hv <;> rw [hissue]
    · exact issueCommand_srst _
    · exact issueCommand_nop _
    · exact issueCommand_enc hbusy herr
    · exact issueCommand_dec hbusy herr

/-! ### The command of a fetch word -/

/-- The state with a command byte as the host's next action, served before the engine's step. -/
def State.issuing (v : Byte) (s : State) : State :=
  { s with
    script := .write cmdOffset v :: s.script
    delay := if s.status.busy then s.delay + 1 else s.delay }

theorem engineMoves_issuing (v : Byte) (s : State) : engineMoves (s.issuing v) = false := by
  cases hbusy : s.status.busy <;> simp [engineMoves, State.issuing, hbusy]

/-- Serving the byte takes back what placing it added: the list and the delay are as before. -/
theorem State.consume_issuing {s : State} (hdelay : s.status.busy = false → s.delay = 0) (v : Byte) :
    (s.issuing v).consume s.script = s := by
  have : (s.issuing v).delay - 1 = s.delay := by
    cases hbusy : s.status.busy
    · simp [State.issuing, hbusy, hdelay hbusy]
    · simp [State.issuing, hbusy]
  rw [State.consume, this]
  rfl

theorem step_issuing {s : State} (hdelay : s.status.busy = false → s.delay = 0) (v : Byte) :
    step (s.issuing v) = issueCommand v s := by
  rw [step_of_script (engineMoves_issuing v s) rfl, State.consume_issuing hdelay]
  rfl

/-- Settles O4: ENC and DEC stand in OP with no delay left, and any other byte is the next write to CMD. -/
theorem fetchWordRunsNext : Obligations.FetchWordRunsNext := by
  intro s hdelay
  have hnop : s.withFetchWord 8 0x00 = s.issuing 0x00 := rfl
  have hsrst : s.withFetchWord 8 0xFF = s.issuing 0xFF := rfl
  refine ⟨?enc, ?dec, ?nop, ?srst⟩
  case enc => rw [step_of_engineMoves rfl, engineStep_enc rfl]
  case dec => rw [step_of_engineMoves rfl, engineStep_dec rfl]
  case nop => rw [hnop, step_issuing hdelay, issueCommand_nop, exec_nop]
  case srst => rw [hsrst, step_issuing hdelay, issueCommand_srst, exec_srst]

end Sys2Proof.Machine
end

section
/-! The moves of STATUS (the table of transitions of R173), and that every command in flight ends (R174). -/

namespace Sys2Proof.Machine

/-! ### The engine's own step -/

/-- A command ends as completed or with its error (R150 to R153). -/
theorem engineStep_status {s t : State} (herr : s.status.err = false) (h : engineStep s = .next t) :
    t.status = .finished ∨ t.status = .failed := by
  have hcomplete : ∀ u : State, u.status = s.status → u.complete.status = .finished := fun u hu => by
    rw [State.complete_status, hu, herr, Status.finished]
  cases hop : s.op with
  | enc =>
    rw [engineStep_enc hop] at h
    obtain ⟨record, -, -, hexec⟩ | ⟨j, -, -, -, hexec⟩ := exec_enc_cases s <;> cases hexec.symm.trans h
    · exact .inl (hcomplete _ rfl)
    · exact .inr rfl
  | dec =>
    rw [engineStep_dec hop] at h
    obtain ⟨-, hexec⟩ | ⟨j, -, -, hexec⟩ := execDec_cases s <;> cases hexec.symm.trans h
    · exact .inl (hcomplete _ rfl)
    · exact .inr rfl
  | none => simp [engineStep, hop] at h

/-! ### The host's actions -/

theorem StatusLegal.running_of_busy {s : State} (h : StatusLegal s) (hbusy : s.status.busy = true) :
    s.status = .running := by
  obtain h | h | h | h := h <;> rw [h] at hbusy ⊢ <;> cases hbusy

theorem StatusLegal.idle_or_finished {s : State} (h : StatusLegal s) (hbusy : s.status.busy = false)
    (herr : s.status.err = false) : s.status = .idle ∨ s.status = .finished := by
  obtain h | h | h | h := h
  · exact .inl h
  · simp [h, Status.running] at hbusy
  · exact .inr h
  · simp [h, Status.failed] at herr

/-- What a command issue can do to STATUS (R173). -/
theorem issueCommand_status {v : Byte} {s t : State} (h : issueCommand v s = .next t) :
    t.status = s.status ∨ (v = 0xFF ∧ t.status = .idle) ∨
    (s.status.busy = false ∧ s.status.err = false ∧
      ((t.status = .running ∧ (v = 0x01 ∨ v = 0x02)) ∨ (t.status = .failed ∧ 0x03 ≤ v.toNat ∧ v.toNat ≤ 0xFE))) := by
  obtain ⟨hv, hcase⟩ | ⟨-, -, hcase⟩ | ⟨herr, hbusy, hv, hcase⟩ | ⟨herr, hbusy, hv, hcase⟩ |
    ⟨herr, hbusy, h3, hFE, hcase⟩ := issueCommand_cases v s <;> cases hcase.symm.trans h
  · exact .inr (.inl ⟨hv, rfl⟩)
  · exact .inl rfl
  · exact .inr (.inr ⟨hbusy, herr, .inl ⟨by rw [State.accept_status, herr]; rfl, .inl hv⟩⟩)
  · exact .inr (.inr ⟨hbusy, herr, .inl ⟨by rw [State.accept_status, herr]; rfl, .inr hv⟩⟩)
  · exact .inr (.inr ⟨hbusy, herr, .inr ⟨rfl, h3, hFE⟩⟩)

/-- A host action moves STATUS only as a command issue or as a reset (R52, R53, R220). -/
theorem serve_status {a : HostAction} {s t : State} (h : serve a s = .next t) :
    t.status = s.status ∨ (a = .hardReset ∧ t.status = .idle) ∨
    ∃ v, a = .write 0x110 v ∧ issueCommand v s = .next t := by
  obtain ⟨offset, v, u, -, hread, rfl⟩ | ⟨offset, v, rfl, hwrite⟩ | ⟨-, rfl⟩ | ⟨rfl, rfl⟩ := serve_next h
  · exact .inl (memRead_same hread).1.status
  · obtain ⟨hcmd, hcase⟩ | hcase | ⟨-, -, hcase⟩ | ⟨-, level, hcase⟩ | ⟨-, hcase⟩ := memWrite_cases offset v s <;>
      have hcase := hcase.symm.trans hwrite
    · exact .inr (.inr ⟨v, by rw [eq_of_locate_cmd hcmd], hcase⟩)
    all_goals cases hcase
    all_goals exact .inl rfl
  · exact .inl (waitRound_status s)
  · exact .inr (.inl ⟨rfl, rfl⟩)

/-- Settles O28: the engine's step ends the command, and the host's action resets, issues a command or keeps STATUS. -/
theorem onlyTheseStatusTransitions : Obligations.OnlyTheseStatusTransitions := by
  intro s t hlegal hstep
  obtain ⟨hbusy, hmoves, hcase⟩ | ⟨-, -, hcase⟩ | ⟨a, rest, hscript, -, hcase⟩ := step_cases s <;>
    have hcase := hcase.symm.trans hstep
  · have hengine : engineMoves s = true := by simpa [engineMoves, hbusy] using hmoves
    exact .inr (.inr (.inr (.inr ⟨hlegal.running_of_busy hbusy, hengine,
      engineStep_status (hlegal.err_of_busy hbusy) hcase⟩)))
  · cases hcase
    exact .inl rfl
  · obtain hsame | ⟨ha, hidle⟩ | ⟨v, ha, hissue⟩ := serve_status hcase
    · exact .inl hsame
    · exact .inr (.inl ⟨hidle, a, rest, hscript, .inl ha⟩)
    · obtain hsame | ⟨rfl, hidle⟩ | ⟨hbusy, herr, hmove⟩ := issueCommand_status hissue
      · exact .inl hsame
      · exact .inr (.inl ⟨hidle, a, rest, hscript, .inr ha⟩)
      · have hready := hlegal.idle_or_finished hbusy herr
        rw [ha] at hscript
        obtain ⟨hrunning, hv⟩ | ⟨hfailed, hv⟩ := hmove
        · exact .inr (.inr (.inl ⟨hready, hrunning, v, rest, hscript, hv⟩))
        · exact .inr (.inr (.inr (.inl ⟨hready, hfailed, v, rest, hscript, hv⟩)))

/-! ### The end of a command in flight -/

/-- Both resets have one effect (R220). -/
theorem serve_reset {a : HostAction} (h : IsReset a) (s : State) : serve a s = .next s.resetEngine := by
  obtain rfl | rfl := h
  · rfl
  · exact issueCommand_srst s

/-- While BUSY an action that is no reset leaves the delay, and of the list at most a `WAIT` is still to do (R91). -/
theorem serve_busy_delay_script {a : HostAction} {s t : State} (hbusy : s.status.busy = true) (hreset : ¬ IsReset a)
    (hserve : serve a s = .next t) : t.delay = s.delay ∧ (t.script = s.script ∨ t.script = .wait :: s.script) := by
  obtain ⟨offset, v, u, -, hread, rfl⟩ | ⟨offset, v, rfl, hwrite⟩ | ⟨-, rfl⟩ | ⟨rfl, -⟩ := serve_next hserve
  · obtain ⟨w, hcase⟩ | ⟨-, w, hcase⟩ | ⟨-, hcase⟩ := memRead_cases offset s <;> cases hcase.symm.trans hread <;>
      exact ⟨rfl, .inl rfl⟩
  · obtain hin | hout := Nat.lt_or_ge offset 0x200
    · cases (memWrite_busy hin hbusy hreset).symm.trans hwrite
      exact ⟨rfl, .inl rfl⟩
    · cases (memWrite_outside hout v s).symm.trans hwrite
  · exact ⟨waitRound_delay s, .inr (by simp [waitRound_script, hbusy])⟩
  · exact absurd (.inl rfl) hreset

/-- A run of one step more begins with the step. -/
theorem run_succ_of_step {M : Host.Core} {s t : M.State} (h : M.step s = .next t) (n : Nat) :
    M.run (n + 1) s = M.run n t := by
  rw [Host.Core.run, h]

/-- While BUSY a step ends the command, or serves one of the host actions its delay still allows. -/
theorem step_busy {s t : State} (hlegal : StatusLegal s) (hbusy : s.status.busy = true) (hwf : scriptWf s.script = true)
    (hstep : step s = .next t) :
    t.status.busy = false ∨ (t.status.busy = true ∧ scriptWf t.script = true ∧ t.delay + 1 = s.delay) := by
  obtain ⟨-, -, hcase⟩ | ⟨-, hidle, -⟩ | ⟨a, rest, hscript, hdelay, hcase⟩ := step_cases s
  · obtain h | h := engineStep_status (hlegal.err_of_busy hbusy) (hcase.symm.trans hstep) <;>
      exact .inl (by rw [h]; rfl)
  · exact absurd (hbusy.symm.trans hidle) (by decide)
  · have hserve := hcase.symm.trans hstep
    by_cases hreset : IsReset a
    · cases (serve_reset hreset _).symm.trans hserve
      exact .inl rfl
    · have hflight : (s.consume rest).status.busy = true := hbusy
      obtain ⟨hdelay', hscript'⟩ := serve_busy_delay_script hflight hreset hserve
      have hrest : scriptWf rest = true := by
        rw [hscript, scriptWf, List.all_cons, Bool.and_eq_true] at hwf
        exact hwf.2
      refine .inr ⟨?busy, ?script, ?delay⟩
      case busy => rw [(serve_busy_same hflight hreset hserve).status, hflight]
      case script => obtain h | h := hscript' <;> rw [h] <;> exact hrest
      case delay => rw [hdelay', State.consume_delay]; simp [hbusy] at hdelay; omega

/-- By recursion on the delay: each step ends the command or uses up one of the host actions allowed before it. -/
theorem busy_ends {s : State} (hinv : Inv s) (hbusy : s.status.busy = true) (hscript : scriptWf s.script = true) :
    ∃ n t, n ≤ s.delay + 1 ∧ Sys2Proof.core.run n s = .next t ∧ t.status.busy = false := by
  obtain ⟨t, hstep⟩ := stepsAreSafe s hinv hscript
  have hrun := run_succ_of_step (M := Sys2Proof.core) hstep
  obtain hend | ⟨hbusy', hscript', hdelay⟩ := step_busy hinv.status hbusy hscript hstep
  · exact ⟨1, t, by omega, hrun 0, hend⟩
  · obtain ⟨n, u, hn, hrest, hend⟩ := busy_ends (stepKeepsTheInvariant s t hinv hstep) hbusy' hscript'
    exact ⟨n + 1, u, by omega, (hrun n).trans hrest, hend⟩
termination_by s.delay
decreasing_by omega

/-- Settles O30: the delay bounds the host actions served before the command ends. -/
theorem busyAlwaysEnds : Obligations.BusyAlwaysEnds :=
  fun _ => busy_ends

end Sys2Proof.Machine
end

section
/-! The byte stream of a compressed image (R180 to R182, R185): each field is read back as it was written, and a stream
that parses is made of the fields. -/

namespace Sys2Proof.Machine.HostImage

/-! ### The fields -/

theorem dropSignature_append (sig rest : List Byte) : dropSignature sig (sig ++ rest) = some rest := by
  induction sig with
  | nil => rfl
  | cons b sig ih => rw [List.cons_append, dropSignature, if_pos rfl, ih]

/-- The comparison byte for byte finds the signature in front of what it leaves (R181). -/
theorem eq_append_of_dropSignature {sig stream rest : List Byte} (h : dropSignature sig stream = some rest) :
    stream = sig ++ rest := by
  induction sig generalizing stream with
  | nil => exact Option.some.inj h
  | cons b sig ih =>
    cases stream with
    | nil => cases h
    | cons c stream =>
      rw [dropSignature] at h
      split_ifs at h with hbc
      rw [hbc, ih h, List.cons_append]

theorem append_extractLsb'_16 (w : BitVec 16) : w.extractLsb' 8 8 ++ w.extractLsb' 0 8 = w := by
  rw [BitVec.extractLsb'_append_extractLsb'_eq_extractLsb' (by rfl)]
  exact BitVec.extractLsb'_eq_self

theorem append_extractLsb'_32 (w : BitVec 32) :
    w.extractLsb' 24 8 ++ w.extractLsb' 16 8 ++ w.extractLsb' 8 8 ++ w.extractLsb' 0 8 = w := by
  rw [BitVec.extractLsb'_append_extractLsb'_eq_extractLsb' (by rfl),
    BitVec.extractLsb'_append_extractLsb'_eq_extractLsb' (by rfl),
    BitVec.extractLsb'_append_extractLsb'_eq_extractLsb' (by rfl)]
  exact BitVec.extractLsb'_eq_self

/-- The two bytes of a dimension are read back (R180). -/
theorem be16_read {n : Nat} (h : n ≤ maxDimension) :
    ∃ b1 b0, be16 n = [b1, b0] ∧ int16 b1 b0 = n := by
  refine ⟨_, _, rfl, ?_⟩
  unfold maxDimension at h
  rw [int16, append_extractLsb'_16, BitVec.toInt_ofInt_eq_self (by decide) (by omega) (by omega)]

/-- The four bytes of a block count are read back (R180). -/
theorem be32_read {n : Nat} (h : n < 2 ^ 31) :
    ∃ b3 b2 b1 b0, be32 n = [b3, b2, b1, b0] ∧ int32 b3 b2 b1 b0 = n := by
  refine ⟨_, _, _, _, rfl, ?_⟩
  rw [int32, append_extractLsb'_32, BitVec.toInt_ofInt_eq_self (by decide) (by omega) (by omega)]

/-! ### The header -/

theorem dimensionOk_of_wellFormed {n : Nat} (hpos : 0 < n) (hmod : n % 8 = 0) : dimensionOk n = true := by
  simp only [dimensionOk, Bool.and_eq_true, decide_eq_true_eq, beq_iff_eq]
  omega

/-- The count of blocks of the greatest image fits its four bytes (R182). -/
theorem blockCount_lt {width height : Nat} (hw : width ≤ maxDimension) (hh : height ≤ maxDimension) :
    blockCount width height < 2 ^ 31 := by
  unfold maxDimension at hw hh
  have hle : width / 8 * (height / 8) ≤ 4095 * 4095 := Nat.mul_le_mul (by omega) (by omega)
  unfold blockCount
  omega

/-- The header of an image within its bounds parses to its dimensions (R180, R182). -/
theorem parseHeader_headerBytes {width height : Nat} (hwidth : dimensionOk width = true)
    (hheight : dimensionOk height = true) (hw : width ≤ maxDimension) (hh : height ≤ maxDimension)
    (body : List Byte) :
    parseHeader (headerBytes width height ++ body) = .ok ⟨width, height, body⟩ := by
  obtain ⟨w1, w0, hwbytes, hwread⟩ := be16_read hw
  obtain ⟨h1, h0, hhbytes, hhread⟩ := be16_read hh
  obtain ⟨c3, c2, c1, c0, hcbytes, hcread⟩ := be32_read (blockCount_lt hw hh)
  have hfields : headerBytes width height ++ body =
      Config.headerSig ++ (w1 :: w0 :: h1 :: h0 :: c3 :: c2 :: c1 :: c0 :: body) := by
    simp [headerBytes, hwbytes, hhbytes, hcbytes]
  simp [parseHeader, hfields, dropSignature_append, hwread, hhread, hcread, hwidth, hheight]

/-- A header that parses is the header signature and eight bytes in front of the body; its dimensions are positive. -/
theorem parseHeader_ok {stream : List Byte} {h : Header} (hparse : parseHeader stream = .ok h) :
    (∃ head, stream = Config.headerSig ++ head ++ h.body ∧ head.length = 8) ∧
      8 ≤ h.width ∧ 8 ≤ h.height := by
  unfold parseHeader at hparse
  split at hparse
  · cases hparse
  next w1 w0 h1 h0 c3 c2 c1 c0 body hdrop =>
    dsimp only at hparse
    split_ifs at hparse with hdim hcount
    injection hparse with hparse
    subst hparse
    simp only [dimensionOk, Bool.not_eq_true', Bool.not_eq_false, Bool.and_eq_true, decide_eq_true_eq,
      beq_iff_eq] at hdim
    have hwidth : 8 ≤ (int16 w1 w0).toNat := by omega
    have hheight : 8 ≤ (int16 h1 h0).toNat := by omega
    exact ⟨⟨[w1, w0, h1, h0, c3, c2, c1, c0], by simpa using eq_append_of_dropSignature hdrop, rfl⟩,
      hwidth, hheight⟩
  · cases hparse

/-- Whether an error is a FormatError of the host, and none of the engine's (R210). -/
def HostError.IsFormat (e : HostError) : Prop :=
  ∃ cause, e = .formatError cause

theorem parseHeader_error {stream : List Byte} {e : HostError} (h : parseHeader stream = .error e) : e.IsFormat := by
  unfold parseHeader at h
  split at h
  · exact ⟨_, (Except.error.inj h).symm⟩
  · dsimp only at h
    split_ifs at h
    · exact ⟨_, (Except.error.inj h).symm⟩
    · exact ⟨_, (Except.error.inj h).symm⟩
  · exact ⟨_, (Except.error.inj h).symm⟩

/-! ### The records -/

/-- Record `i` is there exactly when 75 bytes are (R187). -/
theorem Header.record_cases (h : Header) (i : Nat) :
    (h.record i = .ok ((h.body.drop (75 * i)).take 75) ∧ ((h.body.drop (75 * i)).take 75).length = 75) ∨
    ∃ e, h.record i = .error e ∧ e.IsFormat := by
  unfold Header.record
  dsimp only
  split_ifs with hlen
  · exact .inr ⟨_, rfl, _, rfl⟩
  · have := List.length_take_le 75 (h.body.drop (75 * i))
    exact .inl ⟨rfl, by omega⟩

theorem Header.record_ok {h : Header} {i : Nat} {record : List Byte} (hrecord : h.record i = .ok record) :
    record = (h.body.drop (75 * i)).take 75 ∧ record.length = 75 := by
  obtain ⟨hok, hlen⟩ | ⟨e, herr, -⟩ := h.record_cases i
  · cases hok.symm.trans hrecord
    exact ⟨rfl, hlen⟩
  · cases herr.symm.trans hrecord

theorem Header.record_error {h : Header} {i : Nat} {e : HostError} (hrecord : h.record i = .error e) : e.IsFormat := by
  obtain ⟨hok, -⟩ | ⟨_, herr, hformat⟩ := h.record_cases i
  · cases hok.symm.trans hrecord
  · cases herr.symm.trans hrecord
    exact hformat

section
variable {α : Type} {f : Nat → Except HostError α}

theorem forTiles_cons_ok {i : Nat} {rest : List Nat} {a : α} (h : f i = .ok a) :
    forTiles f (i :: rest) = (forTiles f rest).map (fun as => a :: as) := by
  rw [forTiles, h]
  cases forTiles f rest <;> rfl

theorem forTiles_cons_error {i : Nat} {rest : List Nat} {e : HostError} (h : f i = .error e) :
    forTiles f (i :: rest) = .error e := by
  rw [forTiles, h]
  rfl

/-- A loop over the tiles ends exactly when each tile has its result. -/
theorem forTiles_eq_ok_iff {l : List Nat} {as : List α} : forTiles f l = .ok as ↔ l.map f = as.map .ok := by
  induction l generalizing as with
  | nil => simp [forTiles, eq_comm]
  | cons i rest ih =>
    cases hi : f i with
    | error e => cases as <;> simp [forTiles_cons_error hi, hi]
    | ok a =>
      rw [forTiles_cons_ok hi, List.map_cons, hi]
      cases hrest : forTiles f rest with
      | error e =>
        have hnone : ∀ bs : List α, rest.map f ≠ bs.map .ok := fun bs h => by
          cases hrest.symm.trans (ih.mpr h)
        cases as with
        | nil => simp [Except.map]
        | cons b bs => simp [Except.map, hnone bs]
      | ok bs =>
        have hbs := ih.mp hrest
        cases as with
        | nil => simp [Except.map]
        | cons b cs =>
          rw [hbs]
          simp [Except.map, List.map_inj_right]

/-- A failure of the loop is the failure of one of the tiles. -/
theorem forTiles_error {l : List Nat} {e : HostError} (h : forTiles f l = .error e) : ∃ i ∈ l, f i = .error e := by
  induction l with
  | nil => cases h
  | cons i rest ih =>
    cases hi : f i with
    | error e' =>
      rw [forTiles_cons_error hi] at h
      exact ⟨i, by simp, hi.trans (congrArg Except.error (Except.error.inj h))⟩
    | ok a =>
      rw [forTiles_cons_ok hi] at h
      cases hrest : forTiles f rest with
      | ok as => rw [hrest] at h; cases h
      | error e' =>
        rw [hrest] at h
        obtain ⟨j, hj, hfail⟩ := ih (hrest.trans (congrArg Except.error (Except.error.inj h)))
        exact ⟨j, List.mem_cons_of_mem i hj, hfail⟩

end

/-- The records of a body that begins with them are read back, one by one (R180, R187). -/
theorem record_of_flatten {blocks : List (List Byte)} (hlen : ∀ b ∈ blocks, b.length = 75) (width height : Nat)
    (tail : List Byte) {i : Nat} (hi : i < blocks.length) :
    Header.record ⟨width, height, blocks.flatten ++ tail⟩ i = .ok blocks[i] := by
  have hbytes : ((blocks.flatten ++ tail).drop (75 * i)).take 75 = blocks[i] := by
    induction blocks generalizing i with
    | nil => cases hi
    | cons b blocks ih =>
      obtain ⟨hb, hrest⟩ := List.forall_mem_cons.mp hlen
      rw [List.flatten_cons, List.append_assoc]
      cases i with
      | zero => rw [Nat.mul_zero, List.drop_zero, List.take_left' hb, List.getElem_cons_zero]
      | succ i =>
        rw [Nat.mul_succ, Nat.add_comm, ← List.drop_drop, List.drop_left' hb, ih hrest, List.getElem_cons_succ]
  rw [Header.record, hbytes, if_neg (by rw [hlen _ (List.getElem_mem hi)]; decide)]

/-- The records read are the first bytes of the body (R180). -/
theorem flatten_of_forTiles_record {h : Header} {n : Nat} {blocks : List (List Byte)}
    (hread : forTiles h.record (List.range n) = .ok blocks) : blocks.flatten = h.body.take (75 * n) := by
  rw [forTiles_eq_ok_iff] at hread
  induction n generalizing blocks with
  | zero =>
    obtain rfl : blocks = [] := by simpa using hread.symm
    rfl
  | succ n ih =>
    rw [List.range_succ, List.map_append, eq_comm, List.map_eq_append_iff] at hread
    obtain ⟨before, last, rfl, hbefore, hlast⟩ := hread
    obtain ⟨b, rfl, hb⟩ := List.map_eq_singleton_iff.mp hlast
    rw [List.flatten_append, ih hbefore.symm, List.flatten_singleton, (Header.record_ok hb.symm).1, Nat.mul_succ,
      List.take_add]

/-! ### The footer -/

theorem checkFooter_of_footer {h : Header} (hfooter : h.body.drop (75 * h.count) = Config.footerSig) :
    h.checkFooter = .ok () := by
  have hdrop : dropSignature Config.footerSig Config.footerSig = some [] := by
    simpa using dropSignature_append Config.footerSig []
  simp [Header.checkFooter, hfooter, hdrop]

/-- A footer that passes begins with the footer signature (R181); any other fails with FormatError. -/
theorem Header.checkFooter_cases (h : Header) :
    (h.checkFooter = .ok () ∧ ∃ extra, h.body.drop (75 * h.count) = Config.footerSig ++ extra) ∨
    ∃ e, h.checkFooter = .error e ∧ e.IsFormat := by
  unfold Header.checkFooter
  dsimp only
  split_ifs with hlen
  · exact .inr ⟨_, rfl, _, rfl⟩
  · split
    · exact .inr ⟨_, rfl, _, rfl⟩
    next extra hdrop =>
      split_ifs
      · exact .inl ⟨rfl, extra, eq_append_of_dropSignature hdrop⟩
      · exact .inr ⟨_, rfl, _, rfl⟩

/-! ### The stream -/

/-- Settles O54: the header gives the dimensions back, each record is read from its place, and the footer follows. -/
theorem streamRoundTrip : Obligations.StreamRoundTrip := by
  rintro ⟨width, height, blocks⟩ ⟨⟨hwpos, hwmod, hwmax⟩, ⟨hhpos, hhmod, hhmax⟩, hcount, hlen⟩
  dsimp only at hwpos hwmod hwmax hhpos hhmod hhmax hcount hlen
  have hheader := parseHeader_headerBytes (dimensionOk_of_wellFormed hwpos hwmod)
    (dimensionOk_of_wellFormed hhpos hhmod) hwmax hhmax (blocks.flatten ++ Config.footerSig)
  have hrecords : forTiles (Header.record ⟨width, height, blocks.flatten ++ Config.footerSig⟩)
      (List.range (blockCount width height)) = .ok blocks := by
    rw [forTiles_eq_ok_iff]
    refine List.ext_getElem (by simp [blockCount, hcount]) fun i _ hi => ?_
    rw [List.getElem_map, List.getElem_range, List.getElem_map]
    exact record_of_flatten hlen width height _ (by simpa using hi)
  have hfooter : Header.checkFooter ⟨width, height, blocks.flatten ++ Config.footerSig⟩ = .ok () := by
    have hsize : blocks.flatten.length = 75 * blockCount width height := by
      have hsum : blocks.map List.length = List.replicate blocks.length 75 := List.map_eq_replicate_iff.mpr hlen
      rw [List.length_flatten, hsum, List.sum_replicate_nat, hcount, blockCount, Nat.mul_comm]
    exact checkFooter_of_footer (List.drop_left' hsize)
  rw [deserialize, serialize, List.append_assoc, hheader]
  show (do let blocks' ← forTiles _ (List.range (blockCount width height)); _) = _
  rw [hrecords]
  show (do Header.checkFooter _; _) = _
  rw [hfooter]
  rfl

/-- Settles O55: the first check that fails is a FormatError, and where none does the fields make up the stream. -/
theorem signaturesAreEnforced : Obligations.SignaturesAreEnforced := by
  intro stream
  cases hheader : parseHeader stream with
  | error e =>
    obtain ⟨cause, rfl⟩ := parseHeader_error hheader
    exact .inl ⟨cause, by rw [deserialize, hheader]; rfl⟩
  | ok h =>
    cases hrecords : forTiles h.record (List.range h.count) with
    | error e =>
      obtain ⟨i, -, hfail⟩ := forTiles_error hrecords
      obtain ⟨cause, rfl⟩ := Header.record_error hfail
      exact .inl ⟨cause, by simp only [deserialize, hheader, hrecords, bind, Except.bind]⟩
    | ok blocks =>
      obtain ⟨hok, extra, hextra⟩ | ⟨_, herr, cause, rfl⟩ := h.checkFooter_cases
      · obtain ⟨⟨head, hstream, hhead⟩, -⟩ := parseHeader_ok hheader
        refine .inr ⟨⟨h.width, h.height, blocks⟩, head, extra, ?_, ?_, hhead⟩
        · simp only [deserialize, hheader, hrecords, hok, bind, Except.bind, pure, Except.pure]
        · have hbody : h.body = blocks.flatten ++ (Config.footerSig ++ extra) := by
            rw [← hextra, flatten_of_forTiles_record hrecords, List.take_append_drop]
          rw [hstream, hbody]
          simp only [List.append_assoc]
      · exact .inl ⟨cause, by simp only [deserialize, hheader, hrecords, herr, bind, Except.bind]⟩

end Sys2Proof.Machine.HostImage
end

section
/-! Tiling and padding (R183, R184): where pixel `p` of tile `i` lies in the raster, and what padding adds. -/

namespace Sys2Proof.Machine.HostImage

/-! ### Tile origins -/

theorem originX_eq (k i : Nat) : originX (8 * k) i = i % k * 8 := by
  rw [originX, Nat.mul_comm 8 k, Nat.mul_mod_mul_right]

theorem originY_eq (k i : Nat) : originY (8 * k) i = i / k * 8 := by
  rw [originY, Nat.mul_comm 8 k, Nat.mul_div_mul_right _ _ (by decide)]

/-- The element of row `y` and column `x` lies in that row and that column. -/
theorem rowMajor_mod {width x : Nat} (hx : x < width) (y : Nat) : (y * width + x) % width = x := by
  rw [Nat.add_comm, Nat.add_mul_mod_self_right, Nat.mod_eq_of_lt hx]

theorem rowMajor_div {width x : Nat} (hx : x < width) (y : Nat) : (y * width + x) / width = y := by
  rw [Nat.add_comm, Nat.add_mul_div_right _ _ (by omega), Nat.div_eq_of_lt hx, Nat.zero_add]

theorem rowMajor_lt {width height x y : Nat} (hx : x < width) (hy : y < height) : y * width + x < width * height :=
  calc y * width + x < (y + 1) * width := by rw [Nat.succ_mul]; omega
    _ ≤ height * width := Nat.mul_le_mul_right width hy
    _ = width * height := Nat.mul_comm _ _

/-- Settles O56: a tile is a place in a grid `k` wide, and a pixel a place in the tile. -/
theorem tileOriginsAreRowMajor : Obligations.TileOriginsAreRowMajor := by
  intro k i p hk hp
  have helement : rasterElement (8 * k) i p = (i / k * 8 + p / 8) * (8 * k) + (i % k * 8 + p % 8) := by
    rw [rasterElement, originX_eq, originY_eq, pixelX, pixelY]
  have hcolumn : i % k * 8 + p % 8 < 8 * k := by
    have := Nat.mod_lt i hk
    omega
  refine ⟨originX_eq k i, originY_eq k i, helement, ?column, ?row, ?tile, ?place⟩
  case column => rw [helement, rowMajor_mod hcolumn]
  case row => rw [helement, rowMajor_div hcolumn]
  case tile =>
    have hx : (i % k * 8 + p % 8) / 8 = i % k := by omega
    have hy : (i / k * 8 + p / 8) / 8 = i / k := by omega
    rw [tileIndexAt, hx, hy, Nat.mul_div_cancel_left k (by decide), Nat.div_add_mod']
  case place => unfold placeInTile; omega

/-! ### Padding -/

theorem padUp_bounds (n : Nat) : padUp n % 8 = 0 ∧ n ≤ padUp n ∧ padUp n < n + 8 := by
  unfold padUp
  omega

theorem padUp_of_multiple {n : Nat} (h : n % 8 = 0) : padUp n = n := by
  unfold padUp
  omega

theorem pad_pixels_length (r : Raster) : (pad r).pixels.length = (pad r).width * (pad r).height := by
  simp [pad]

/-- The padded raster at column `x` of row `y`: the source pixel, or black outside the source (R184). -/
theorem pad_pixel {r : Raster} (hlen : r.pixels.length = r.width * r.height) {x y : Nat} (hx : x < (pad r).width)
    (hy : y < (pad r).height) :
    (pad r).pixels[y * (pad r).width + x]? =
      if x < r.width ∧ y < r.height then r.pixels[y * r.width + x]? else some black := by
  have helement : (pad r).pixels[y * (pad r).width + x]? =
      some (if x < r.width ∧ y < r.height then r.pixels.getD (y * r.width + x) black else black) := by
    have hx' : x < padUp r.width := hx
    have hlt : y * padUp r.width + x < padUp r.width * padUp r.height := rowMajor_lt hx hy
    simp only [pad, List.getElem?_map, List.getElem?_range hlt, Option.map_some, rowMajor_mod hx', rowMajor_div hx']
  rw [helement]
  split_ifs with hsource
  · have hlt : y * r.width + x < r.pixels.length := by
      rw [hlen]
      exact rowMajor_lt hsource.1 hsource.2
    rw [List.getD_eq_getElem?_getD, List.getElem?_eq_getElem hlt, Option.getD_some]
  · rfl

/-- A raster whose sides are multiples of 8 has nothing to add: it is its own padding (R184). -/
theorem pad_of_multiples {r : Raster} (hlen : r.pixels.length = r.width * r.height) (hw : r.width % 8 = 0)
    (hh : r.height % 8 = 0) : pad r = r := by
  have hwidth : (pad r).width = r.width := padUp_of_multiple hw
  have hheight : (pad r).height = r.height := padUp_of_multiple hh
  have hpixels : (pad r).pixels = r.pixels := by
    refine List.ext_getElem? fun e => ?_
    have hpadlen := pad_pixels_length r
    rw [hwidth, hheight, ← hlen] at hpadlen
    by_cases he : e < r.pixels.length
    · have hpos : 0 < r.width := Nat.pos_of_ne_zero fun h => by simp [hlen, h] at he
      have hx : e % r.width < r.width := Nat.mod_lt e hpos
      have hy : e / r.width < r.height := Nat.div_lt_of_lt_mul (hlen ▸ he)
      have hpixel := pad_pixel hlen (hwidth.symm ▸ hx) (hheight.symm ▸ hy)
      rwa [hwidth, if_pos ⟨hx, hy⟩, Nat.div_add_mod'] at hpixel
    · rw [List.getElem?_eq_none (by omega), List.getElem?_eq_none (by omega)]
  calc pad r = ⟨(pad r).width, (pad r).height, (pad r).pixels⟩ := rfl
    _ = r := by rw [hwidth, hheight, hpixels]

/-- Settles O57: each clause is a rule of the padding. -/
theorem paddingIsBlackOnTheRightAndBottom : Obligations.PaddingIsBlackOnTheRightAndBottom := fun r hlen =>
  ⟨padUp_bounds r.width, padUp_bounds r.height, pad_pixels_length r, fun _ _ => pad_pixel hlen, pad_of_multiples hlen⟩

end Sys2Proof.Machine.HostImage
end

section
/-! How an engine serves the accesses of a host to their end (R52, R53, R91, R174): loads, a command with its `WAIT`,
reads of a result, and the reads of an error. -/

namespace Sys2Proof.Machine

/-! ### Serving a list of accesses -/

/-- The engine with these accesses to serve. -/
def State.withScript (script : List HostAction) (s : State) : State :=
  { s with script := script }

@[simp] theorem State.withScript_mem (script : List HostAction) (s : State) :
    (s.withScript script).mem = s.mem := rfl
@[simp] theorem State.withScript_status (script : List HostAction) (s : State) :
    (s.withScript script).status = s.status := rfl
@[simp] theorem State.withScript_level (script : List HostAction) (s : State) :
    (s.withScript script).level = s.level := rfl
@[simp] theorem State.withScript_errcode (script : List HostAction) (s : State) :
    (s.withScript script).errcode = s.errcode := rfl
@[simp] theorem State.withScript_errinfo (script : List HostAction) (s : State) :
    (s.withScript script).errinfo = s.errinfo := rfl
@[simp] theorem State.withScript_script (script : List HostAction) (s : State) :
    (s.withScript script).script = script := rfl
@[simp] theorem State.withScript_replies (script : List HostAction) (s : State) :
    (s.withScript script).replies = s.replies := rfl

theorem Inv.withScript {s : State} (h : Inv s) (script : List HostAction) : Inv (s.withScript script) :=
  h.congr h.mem rfl rfl rfl rfl rfl h.delay

/-- The engine serves its accesses to the end, and `P` is what then holds. -/
inductive Serves (P : State → Prop) : State → Prop
  | served {s : State} : s.script = [] → P s → Serves P s
  | step {s t : State} : s.script ≠ [] → Machine.step s = .next t → Serves P t → Serves P s

theorem Serves.holds {P : State → Prop} {s : State} (h : Serves P s) (hscript : s.script = []) : P s := by
  cases h with
  | served _ hP => exact hP
  | step hne _ _ => exact absurd hscript hne

theorem Serves.next {P : State → Prop} {s : State} (h : Serves P s) (hscript : s.script ≠ []) :
    ∃ t, Machine.step s = .next t ∧ Serves P t := by
  cases h with
  | served hnil _ => exact absurd hnil hscript
  | step _ hstep hrest => exact ⟨_, hstep, hrest⟩

theorem engineMoves_of_not_busy {s : State} (h : s.status.busy = false) : engineMoves s = false := by
  simp [engineMoves, h]

/-- With no command in flight taking an action off the list changes the list alone. -/
theorem Inv.consume_eq {s : State} (h : Inv s) (hbusy : s.status.busy = false) (rest : List HostAction) :
    s.consume rest = s.withScript rest := by
  have hdelay : s.delay - 1 = s.delay := by rw [h.delay hbusy]
  rw [State.consume, hdelay, State.withScript]

section
variable {P : State → Prop} {s t : State} {rest : List HostAction}

/-- The next action of an engine that does not move itself. -/
theorem Serves.action {a : HostAction} (hmoves : engineMoves s = false) (hscript : s.script = a :: rest)
    (hserve : serve a (s.consume rest) = .next t) (h : Serves P t) : Serves P s :=
  .step (by simp [hscript]) ((step_of_script hmoves hscript).trans hserve) h

variable (hinv : Inv s) (hbusy : s.status.busy = false)
include hinv hbusy

theorem Serves.write {a : Nat} {v : Byte} (hscript : s.script = .write a v :: rest)
    (hwrite : memWrite a v (s.withScript rest) = .next t) (h : Serves P t) : Serves P s :=
  .action (engineMoves_of_not_busy hbusy) hscript (by rwa [hinv.consume_eq hbusy]) h

theorem Serves.read {a : Nat} {v : Byte} (hscript : s.script = .read a :: rest)
    (hread : memRead a (s.withScript rest) = .next (v, s.withScript rest))
    (h : Serves P ((s.withScript rest).reply a v)) : Serves P s :=
  .action (engineMoves_of_not_busy hbusy) hscript (by rw [hinv.consume_eq hbusy, serve, readAccess, hread]) h

/-- A `WAIT` with no command in flight reads STATUS once (R91). -/
theorem Serves.wait (hscript : s.script = .wait :: rest)
    (h : Serves P ((s.withScript rest).reply statusOffset s.status.toByte)) : Serves P s := by
  refine .action (engineMoves_of_not_busy hbusy) hscript ?_ h
  have hread : (s.withScript rest).status.toByte.getLsbD 0 ≠ true := by
    rw [Status.toByte_busy, State.withScript_status, hbusy]
    decide
  rw [hinv.consume_eq hbusy, serve, waitRound, if_neg hread, State.withScript_status]

end

/-! ### Loads -/

theorem Memory.writeBlock_nil (m : Memory) (base : Nat) : m.writeBlock base [] = m := by
  simp [Memory.writeBlock]

/-- A block is written byte by byte in ascending order (R90). -/
theorem Memory.writeBlock_cons (m : Memory) (base : Nat) (v : Byte) (bytes : List Byte) :
    m.writeBlock base (v :: bytes) = (m.write base v).writeBlock (base + 1) bytes := by
  unfold Memory.writeBlock Memory.write
  rw [List.map_map]
  refine List.map_congr_left fun c _ => ?_
  obtain hlt | heq | hgt := Nat.lt_trichotomy c.1 base
  · simp [hlt.ne, hlt.not_ge, hlt.not_gt]
  · simp [heq]
  · have hindex : c.1 - base = c.1 - (base + 1) + 1 := by omega
    simp [hgt.ne', hgt.le, hgt.not_ge, hindex]

/-- The state after `bytes` are stored from offset `base` on. -/
def State.loaded (base : Nat) (bytes : List Byte) (s : State) : State :=
  { s with mem := s.mem.writeBlock base bytes }

theorem Inv.loaded {s : State} (h : Inv s) (base : Nat) (bytes : List Byte) : Inv (s.loaded base bytes) :=
  h.congr (Memory.writeBlock_wf h.mem base bytes) rfl rfl rfl rfl rfl h.delay

/-- Stores within the buffers are a block write (R53, R90). -/
theorem Serves.store {P : State → Prop} {bytes : List Byte} {rest : List HostAction} {s : State} {base : Nat}
    (hinv : Inv s) (hbusy : s.status.busy = false) (hbase : base + bytes.length ≤ 267)
    (hscript : s.script = Script.store base bytes ++ rest) (h : Serves P ((s.loaded base bytes).withScript rest)) :
    Serves P s := by
  induction bytes generalizing s base with
  | nil =>
    have hsame : (s.loaded base []).withScript rest = s := by
      rw [State.loaded, Memory.writeBlock_nil, State.withScript, ← (show s.script = rest from hscript)]
    rwa [hsame] at h
  | cons v bytes ih =>
    rw [List.length_cons] at hbase
    have hwrite := memWrite_buffer (a := base) (s := s.withScript (Script.store (base + 1) bytes ++ rest)) (by omega)
      hbusy v
    refine .write hinv hbusy hscript hwrite (ih ?inv hbusy (by omega) rfl ?rest)
    case inv => exact hinv.congr (Memory.write_wf hinv.mem base v) rfl rfl rfl rfl rfl hinv.delay
    case rest =>
      rw [State.loaded, Memory.writeBlock_cons] at h
      exact h

/-- SETLEVEL writes the level by its two bytes (R73, R91). -/
theorem Serves.setLevel {P : State → Prop} {s : State} {n : Nat} (hinv : Inv s) (hbusy : s.status.busy = false)
    (hn : n ≤ maxLevel) (hscript : s.script = Script.setLevel n)
    (h : P { s.withScript [] with level := BitVec.ofNat Config.levelBits n }) : Serves P s := by
  have hwrite {a : Nat} (v : Byte) {u : State} (ha : a = 0x112 ∨ a = 0x113) (hu : u.status.busy = false) :
      memWrite a v u = .next { u with level := levelAfterWrite a v u.level } := by
    rw [memWrite_eq_portWrite (by omega) (by omega) hu, State.portWrite, if_neg (by omega)]
  have hlevel : levelAfterWrite 0x113 (BitVec.ofNat 8 (n % 256))
      (levelAfterWrite 0x112 (BitVec.ofNat 8 (n / 256)) s.level) = BitVec.ofNat Config.levelBits n := by
    have hmax : n < 65536 := Nat.lt_succ_of_le hn
    apply BitVec.eq_of_toNat_eq
    simp only [levelAfterWrite_toNat, BitVec.toNat_ofNat, if_true, Nat.reduceEqDiff, if_false,
      Config.levelBits, Nat.reducePow]
    omega
  refine .write hinv hbusy hscript (hwrite _ (.inl rfl) hbusy) ?_
  refine .write (rest := []) ?inv hbusy rfl (hwrite _ (.inr rfl) hbusy) (.served rfl ?_)
  case inv => exact hinv.congr hinv.mem rfl rfl rfl rfl rfl hinv.delay
  exact hlevel ▸ h

/-! ### A command and its WAIT -/

/-- ENC and DEC leave the host's list and LEVEL alone (R150, R151). -/
theorem engineStep_frame {s t : State} (h : engineStep s = .next t) : t.script = s.script ∧ t.level = s.level := by
  cases hop : s.op with
  | enc =>
    rw [engineStep_enc hop] at h
    obtain ⟨record, -, -, hexec⟩ | ⟨j, -, -, -, hexec⟩ := exec_enc_cases s <;> cases hexec.symm.trans h <;>
      exact ⟨rfl, rfl⟩
  | dec =>
    rw [engineStep_dec hop] at h
    obtain ⟨-, hexec⟩ | ⟨j, -, -, hexec⟩ := execDec_cases s <;> cases hexec.symm.trans h <;> exact ⟨rfl, rfl⟩
  | none => simp [engineStep, hop] at h

/-- A `WAIT` after an accepted command ends, whatever the delay, after the engine's step on the buffers and the LEVEL of
the acceptance (R91, R174). -/
theorem Serves.waitBusy {P : State → Prop} {s : State} (hinv : Inv s) (hbusy : s.status.busy = true)
    (hscript : s.script = [.wait])
    (h : ∀ u t, Inv u → SameEngine s u → engineStep u = .next t →
      P ((t.withScript []).reply statusOffset t.status.toByte)) : Serves P s := by
  induction hdelay : s.delay generalizing s with
  | zero =>
    have hmoves : engineMoves s = true := by simp [engineMoves, hbusy, hdelay]
    obtain ⟨t, ht⟩ := engineStep_completes (hinv.op.mp hbusy)
    have hended : t.status.busy = false := by
      obtain hstatus | hstatus := engineStep_status (hinv.status.err_of_busy hbusy) ht <;> rw [hstatus] <;> rfl
    have hrest : Serves P t :=
      .wait (hinv.engineStep hbusy ht) hended ((engineStep_frame ht).1.trans hscript)
        (.served rfl (h s t hinv (.refl s) ht))
    exact .step (by simp [hscript]) ((step_of_engineMoves hmoves).trans ht) hrest
  | succ d ih =>
    have hmoves : engineMoves s = false := by simp [engineMoves, hdelay, hscript]
    have hsame : SameEngine s (waitRound (s.consume [])) := by simp [SameEngine]
    refine .action hmoves hscript rfl (ih (hinv.consume []).waitRound ?_ ?_ ?_ ?_)
    · simpa using hbusy
    · simp [waitRound_script, hbusy]
    · exact fun u t hu hsame' => h u t hu (hsame.trans hsame')
    · simp [hdelay]

/-- A command that the engine accepts, and its `WAIT`: what holds after the engine's step on the buffers and the LEVEL
of the issue holds at the end. -/
theorem Serves.command {P : State → Prop} {s : State} {v : Byte} {op : Op} (hinv : Inv s)
    (hbusy : s.status.busy = false) (herr : s.status.err = false) (hop : op ≠ .none)
    (hissue : issueCommand v (s.withScript Script.wait) = .next ((s.withScript Script.wait).accept op))
    (hscript : s.script = .write cmdOffset v :: Script.wait)
    (h : ∀ u t, Inv u → u.mem = s.mem → u.level = s.level → u.op = op → u.status.busy = true → engineStep u = .next t →
      P ((t.withScript []).reply statusOffset t.status.toByte)) : Serves P s := by
  refine .write hinv hbusy hscript hissue (.waitBusy ((hinv.withScript Script.wait).accept herr hop) rfl rfl ?_)
  intro u t hu hsame ht
  obtain ⟨hmem, hstatus, hlevel, -, -, hop', -⟩ := hsame
  exact h u t hu hmem hlevel hop' (by rw [hstatus]; rfl) ht

/-! ### Reads -/

/-- The state after its buffer offsets `offsets` were read in order (R52, R90). -/
def State.readBack (offsets : List Nat) (s : State) : State :=
  { s with script := [], replies := (offsets.map fun a => (a, s.mem.byte a)).reverse ++ s.replies }

theorem Inv.readBack {s : State} (h : Inv s) (offsets : List Nat) : Inv (s.readBack offsets) :=
  h.congr h.mem rfl rfl rfl rfl rfl h.delay

/-- The latest replies are then the bytes at those offsets. -/
theorem latestReplies_readBack (offsets : List Nat) (s : State) :
    HostImage.latestReplies (s.readBack offsets) offsets.length = offsets.map s.mem.byte := by
  have htake : (s.readBack offsets).replies.take offsets.length =
      (offsets.map fun a => (a, s.mem.byte a)).reverse := List.take_left' (by simp)
  simp [HostImage.latestReplies, htake, Function.comp_def]

/-- Reads within the buffers return the stored bytes (R52). -/
theorem Serves.reads {P : State → Prop} {offsets : List Nat} {s : State} (hinv : Inv s) (hbusy : s.status.busy = false)
    (hoffsets : ∀ a ∈ offsets, a < 267) (hscript : s.script = offsets.map .read) (h : P (s.readBack offsets)) :
    Serves P s := by
  induction offsets generalizing s with
  | nil =>
    have hsame : s.readBack [] = s := by
      rw [State.readBack, ← (show s.script = [] from hscript)]
      rfl
    exact .served hscript (hsame ▸ h)
  | cons a offsets ih =>
    obtain ⟨ha, hoffsets⟩ := List.forall_mem_cons.mp hoffsets
    refine .read hinv hbusy hscript (memRead_buffer ha hbusy) (ih ((hinv.withScript _).reply _ _) hbusy hoffsets rfl ?_)
    have hsame : (((s.withScript (offsets.map .read)).reply a (s.mem.byte a)).readBack offsets) =
        s.readBack (a :: offsets) := by
      simp [State.readBack, State.withScript, State.reply]
    exact hsame ▸ h

/-- The state after the reads of ERRCODE and ERRINFO and the reset of R186 and R187. -/
def State.errorRead (s : State) : State :=
  ((((s.withScript []).reply 0x114 s.errcode).reply 0x115 s.errinfo)).resetEngine

theorem Serves.errorRead {P : State → Prop} {s : State} (hinv : Inv s) (hbusy : s.status.busy = false)
    (hscript : s.script = Script.readError ++ Script.srst) (h : P s.errorRead) : Serves P s := by
  refine .read hinv hbusy hscript rfl ?_
  refine .read ((hinv.withScript _).reply _ _) hbusy rfl rfl ?_
  refine .write ((((hinv.withScript _).reply _ _).withScript _).reply _ _) hbusy rfl ?_ (.served rfl h)
  exact issueCommand_srst _

end Sys2Proof.Machine
end

section
/-! The tiles of an image job (R186, R187): what each of them gives, and what an engine holds after its command. -/

namespace Sys2Proof.Machine.HostImage

/-! ### What a job gives -/

/-- What the engine makes of tile `i`: the record of an encode, the 192 bytes of a decode, or an error. -/
def Job.tileResult : Job → Nat → Except HostError (List Byte)
  | .encode r level, i => encodeTileAt r (hostLevel level) i
  | .decode stream, i => do
    let h ← parseHeader stream
    decodeBlockAt h i

/-- The results of all tiles, in order, where every check of R186 or R187 passes. -/
def Job.results (job : Job) : Except HostError (List (List Byte)) := do
  let _ ← job.begin
  let results ← forTiles job.tileResult (List.range job.count)
  job.finish
  return results

theorem Job.results_of_begin_error {job : Job} {e : HostError} (h : job.begin = .error e) : job.results = .error e := by
  rw [Job.results, h]
  rfl

theorem Job.results_of_tiles_error {job : Job} {script : List HostAction} {e : HostError}
    (hbegin : job.begin = .ok script) (h : forTiles job.tileResult (List.range job.count) = .error e) :
    job.results = .error e := by
  simp only [Job.results, hbegin, h, bind, Except.bind]

theorem Job.results_of_tiles_ok {job : Job} {script : List HostAction} {results : List (List Byte)}
    (hbegin : job.begin = .ok script) (h : forTiles job.tileResult (List.range job.count) = .ok results) :
    job.results = job.finish.map (fun _ => results) := by
  simp only [Job.results, hbegin, h, bind, Except.bind]
  cases job.finish <;> rfl

/-- The result of an image encode is the stream of the records (R186). -/
theorem encodeImage_eq (r : Raster) (level : Nat) :
    encodeImage r level = (Job.encode r level).results.map (fun records => serialize ⟨r.width, r.height, records⟩) := by
  have htile : (Job.encode r level).tileResult = encodeTileAt r (hostLevel level) := rfl
  rw [encodeImage, Job.results, htile]
  by_cases h : encodable r = true
  · simp only [if_pos h, Job.begin, Job.count, Job.finish, bind, Except.bind]
    cases forTiles (encodeTileAt r (hostLevel level)) (List.range (blockCount r.width r.height)) <;> rfl
  · simp only [if_neg h, Job.begin, bind, Except.bind, Except.map]

theorem Job.tileResult_decode {stream : List Byte} {h : Header} (hparse : parseHeader stream = .ok h) :
    (Job.decode stream).tileResult = decodeBlockAt h := by
  funext i
  rw [Job.tileResult, hparse]
  rfl

theorem Job.count_decode {stream : List Byte} {h : Header} (hparse : parseHeader stream = .ok h) :
    (Job.decode stream).count = h.count := by
  rw [Job.count, hparse]

theorem Job.finish_decode {stream : List Byte} {h : Header} (hparse : parseHeader stream = .ok h) :
    (Job.decode stream).finish = h.checkFooter := by
  rw [Job.finish, hparse]
  rfl

theorem Job.begin_decode {stream : List Byte} {h : Header} (hparse : parseHeader stream = .ok h) :
    (Job.decode stream).begin = .ok [] := by
  rw [Job.begin, hparse]
  rfl

/-- The result of an image decode is the raster of the tiles (R187). -/
theorem decodeImage_eq {stream : List Byte} {h : Header} (hparse : parseHeader stream = .ok h) :
    decodeImage stream = (Job.decode stream).results.map (assemble h.width h.height) := by
  rw [decodeImage, Job.results, Job.begin_decode hparse, Job.count_decode hparse, Job.tileResult_decode hparse,
    Job.finish_decode hparse, hparse]
  simp only [bind, Except.bind]
  cases forTiles (decodeBlockAt h) (List.range h.count) with
  | error e => rfl
  | ok tiles => cases h.checkFooter <;> rfl

theorem decodeImage_error {stream : List Byte} {e : HostError} (hparse : parseHeader stream = .error e) :
    decodeImage stream = .error e ∧ (Job.decode stream).results = .error e := by
  constructor
  · rw [decodeImage, hparse]
    rfl
  · apply Job.results_of_begin_error
    rw [Job.begin, hparse]
    rfl

/-! ### The bytes of a load -/

theorem getElem?_eq_some_getD {bytes : List Byte} {j : Nat} (h : j < bytes.length) :
    bytes[j]? = some (bytes.getD j 0) := by
  simp [h]

theorem byte_loaded {s : State} (hinv : Inv s) {base : Nat} {bytes : List Byte} (hfit : base + bytes.length ≤ 267)
    {j : Nat} (hj : j < bytes.length) : (s.loaded base bytes).mem.byte (base + j) = bytes.getD j 0 := by
  have hbyte := Memory.byte_writeBlock_in hinv.mem hj (base := base) (by unfold Memory.size; omega)
  rw [State.loaded, hbyte, List.getD_eq_getElem _ _ hj]

/-- Bytes that are those of a list, one by one, make up the list. -/
theorem map_range_eq_of_getD {bytes : List Byte} {n : Nat} {f : Nat → Byte} (hlen : bytes.length = n)
    (h : ∀ j < n, f j = bytes.getD j 0) : (List.range n).map f = bytes := by
  refine List.ext_getElem (by simp [hlen]) fun j hj hj' => ?_
  rw [List.getElem_map, List.getElem_range, h j (hlen ▸ hj'), List.getD_eq_getElem _ _ hj']

theorem tileOf_length (r : Raster) (i : Nat) : (tileOf r i).length = 192 := by
  simp [tileOf, pixels]

theorem store_append (base : Nat) (first second : List Byte) :
    Script.store base (first ++ second) = Script.store base first ++ Script.store (base + first.length) second := by
  induction first generalizing base with
  | nil => rfl
  | cons v first ih =>
    rw [List.cons_append, Script.store, Script.store, ih, List.cons_append, List.length_cons]
    congr 3
    omega

/-- Pixels loaded in order are stored as one run of bytes (R82, R91). -/
theorem ldPix_range_eq_store (colour : Nat → Rgb Byte) (n : Nat) :
    (List.range n).flatMap (fun p => Script.ldPix p (colour p).r (colour p).g (colour p).b) =
      Script.store 0 ((List.range n).flatMap fun p => [(colour p).r, (colour p).g, (colour p).b]) := by
  induction n with
  | zero => rfl
  | succ n ih =>
    have hlen : ((List.range n).flatMap fun p => [(colour p).r, (colour p).g, (colour p).b]).length = 3 * n := by
      simp [Nat.mul_comm]
    rw [List.range_succ, List.flatMap_append, List.flatMap_append, ih, store_append, hlen, Nat.zero_add]
    rfl

/-- The pixel loads of a tile are the load of its 192 bytes (R91, R186). -/
theorem loadTile_eq_store (r : Raster) (i : Nat) : loadTile r i = Script.store 0 (tileOf r i) := by
  rw [loadTile, tileOf, pixels, ldPix_range_eq_store (r.pixelOf i)]

/-! ### The result of a tile in the engine -/

/-- The buffers hold tile `i` and its record: what the host loaded and what the engine made of it, `result`. -/
def Job.Holds (job : Job) (i : Nat) (result : List Byte) (s : State) : Prop :=
  match job with
  | .encode r _ => (∀ j < 192, s.tileByte j = (tileOf r i).getD j 0) ∧ ∀ j < 75, s.recByte j = result.getD j 0
  | .decode stream =>
    (∃ h record, parseHeader stream = .ok h ∧ h.record i = .ok record ∧ ∀ j < 75, s.recByte j = record.getD j 0) ∧
      ∀ j < 192, s.tileByte j = result.getD j 0

/-- The command of tile `i` has ended: with its result in the buffers, or with its error in the error registers. -/
def Job.TileEnded (job : Job) (i : Nat) (s : State) : Prop :=
  match job.tileResult i with
  | .ok result => s.status = .finished ∧ result.length = job.readBack.length ∧ job.Holds i result s
  | .error e => s.status = .failed ∧ ∃ e', e = .engine i e' ∧ e'.Legal ∧ s.errcode = e'.code ∧ s.errinfo = e'.info

theorem Job.tileEnded_of_ok {job : Job} {i : Nat} {result : List Byte} {s : State} (h : job.tileResult i = .ok result) :
    job.TileEnded i s ↔ s.status = .finished ∧ result.length = job.readBack.length ∧ job.Holds i result s := by
  rw [Job.TileEnded, h]

theorem Job.tileEnded_of_error {job : Job} {i : Nat} {e : HostError} {s : State} (h : job.tileResult i = .error e) :
    job.TileEnded i s ↔
      s.status = .failed ∧ ∃ e', e = .engine i e' ∧ e'.Legal ∧ s.errcode = e'.code ∧ s.errinfo = e'.info := by
  rw [Job.TileEnded, h]

theorem complete_finished {s : State} (herr : s.status.err = false) : s.complete.status = .finished := by
  rw [State.complete_status, herr]
  rfl

theorem encodeTileAt_of_ok {r : Raster} {level i : Nat} {record : List Byte}
    (h : (encodeBlock (fun j => (tileOf r i).getD j 0) level).2 = .ok record) :
    encodeTileAt r level i = .ok record := by
  unfold encodeTileAt
  rw [h]

theorem encodeTileAt_of_error {r : Raster} {level i : Nat} {e : EngineError}
    (h : (encodeBlock (fun j => (tileOf r i).getD j 0) level).2 = .error e) :
    encodeTileAt r level i = .error (.engine i e) := by
  unfold encodeTileAt
  rw [h]

/-- ENC of a tile of the raster, at the level of the job (R150, R186). -/
theorem tileEnded_enc {r : Raster} {level i : Nat} {s t : State} (hinv : Inv s) (hbusy : s.status.busy = true)
    (hop : s.op = .enc) (hlevel : s.levelNat = hostLevel level)
    (htile : ∀ j < 192, s.tileByte j = (tileOf r i).getD j 0) (hstep : engineStep s = .next t) :
    (Job.encode r level).TileEnded i t := by
  have hblock : (encodeBlock s.tileByte s.levelNat).2 =
      (encodeBlock (fun j => (tileOf r i).getD j 0) (hostLevel level)).2 := by
    rw [hlevel, encodeBlock_congr_tile htile]
  rw [engineStep_enc hop] at hstep
  obtain ⟨record, hok, hlen, hexec⟩ | ⟨j, herr, h7, h74, hexec⟩ := exec_enc_cases s <;> cases hexec.symm.trans hstep
  · have hresult : (Job.encode r level).tileResult i = .ok record :=
      encodeTileAt_of_ok (hblock.symm.trans hok)
    rw [Job.tileEnded_of_ok hresult]
    refine ⟨complete_finished (hinv.status.err_of_busy hbusy), hlen, fun j hj => ?_, fun j hj => ?_⟩
    · rw [State.sameTile_encoded s _ _ j hj, htile j hj]
    · exact State.recByte_encoded hinv.mem _ hlen (getElem?_eq_some_getD (hlen ▸ hj))
  · have hresult : (Job.encode r level).tileResult i = .error (.engine i (.packingOverflow j)) :=
      encodeTileAt_of_error (hblock.symm.trans herr)
    rw [Job.tileEnded_of_error hresult]
    exact ⟨rfl, _, rfl, ⟨h7, h74⟩, rfl, rfl⟩

theorem decodeBlock_of_valid {record : Nat → Byte} (h : ValidRecord record) :
    decodeBlock record = .ok (decodedCodes record 63, decodedTile record) := by
  rw [decodeBlock, validateRecord_of_valid h, decodeGrid_pixels]
  rfl

theorem decodeBlock_of_invalid {record : Nat → Byte} (h : ¬ ValidRecord record) :
    decodeBlock record = .error (.formatError (firstBadField record)) := by
  rw [decodeBlock, validateRecord_of_invalid h]
  rfl

theorem firstBadField_legal (record : Nat → Byte) : (EngineError.formatError (firstBadField record)).Legal := by
  unfold firstBadField EngineError.Legal
  split_ifs <;> simp

/-- DEC reads the 75 bytes of REC (R151). -/
theorem decodedTile_congr {record record' : Nat → Byte} (h : ∀ j < 75, record' j = record j) :
    decodedTile record' = decodedTile record := by
  have hsample : ∀ p < 64, ∀ c, decodedSample record' p c = decodedSample record p c := fun p hp c =>
    decodedSample_congr (fun j hj => h j (by omega)) (fun _ k hk => by rw [h (7 + k) (by omega)])
      (fun _ q hq => by rw [h (11 + q) (by omega)]) hp
  exact List.flatMap_congr fun p hp => by
    have hp := List.mem_range.mp hp
    rw [decodedPixel, hsample p hp, hsample p hp, hsample p hp, decodedPixel]

theorem firstBadField_congr {record record' : Nat → Byte} (h : ∀ j < 75, record' j = record j) :
    firstBadField record' = firstBadField record := by
  rw [firstBadField, firstBadField, h 0 (by decide), h 1 (by decide), h 2 (by decide), h 3 (by decide),
    h 4 (by decide), h 5 (by decide)]

theorem decodeBlockAt_of_ok {h : Header} {i : Nat} {record : List Byte} {result : Triple Int × List Byte}
    (hrecord : h.record i = .ok record) (hblock : decodeBlock (fun j => record.getD j 0) = .ok result) :
    decodeBlockAt h i = .ok result.2 := by
  simp only [decodeBlockAt, hrecord, hblock, bind, Except.bind]

theorem decodeBlockAt_of_error {h : Header} {i : Nat} {record : List Byte} {e : EngineError}
    (hrecord : h.record i = .ok record) (hblock : decodeBlock (fun j => record.getD j 0) = .error e) :
    decodeBlockAt h i = .error (.engine i e) := by
  simp only [decodeBlockAt, hrecord, hblock, bind, Except.bind]

/-- DEC of a record of the stream (R151, R187). -/
theorem tileEnded_dec {stream record : List Byte} {h : Header} {i : Nat} {s t : State} (hinv : Inv s)
    (hbusy : s.status.busy = true) (hop : s.op = .dec) (hparse : parseHeader stream = .ok h)
    (hrecord : h.record i = .ok record) (hrec : ∀ j < 75, s.recByte j = record.getD j 0)
    (hstep : engineStep s = .next t) : (Job.decode stream).TileEnded i t := by
  rw [engineStep_dec hop] at hstep
  by_cases hvalid : ValidRecord s.recByte
  · have hlen := decodedTile_length s.recByte
    have hblock := decodeBlock_of_valid (validRecord_congr (fun j hj => (hrec j (by omega)).symm) hvalid)
    have hresult : (Job.decode stream).tileResult i = .ok (decodedTile s.recByte) := by
      rw [Job.tileResult_decode hparse, decodeBlockAt_of_ok hrecord hblock, decodedTile_congr hrec]
    cases (exec_dec_of_valid hvalid).symm.trans hstep
    rw [Job.tileEnded_of_ok hresult]
    refine ⟨complete_finished (hinv.status.err_of_busy hbusy), hlen,
      ⟨h, record, hparse, hrecord, fun j hj => ?_⟩, fun j hj => ?_⟩
    · rw [State.sameRecord_decoded s _ hlen j hj, hrec j hj]
    · exact State.tileByte_decoded hinv.mem _ hlen (getElem?_eq_some_getD (hlen ▸ hj))
  · have hinvalid : ¬ ValidRecord (fun j => record.getD j 0) :=
      mt (validRecord_congr (record' := s.recByte) fun j hj => hrec j (by omega)) hvalid
    have hresult : (Job.decode stream).tileResult i = .error (.engine i (.formatError (firstBadField s.recByte))) := by
      rw [Job.tileResult_decode hparse, decodeBlockAt_of_error hrecord (decodeBlock_of_invalid hinvalid),
        firstBadField_congr hrec]
    cases (exec_dec_of_invalid hvalid).symm.trans hstep
    rw [Job.tileEnded_of_error hresult]
    exact ⟨rfl, _, rfl, firstBadField_legal s.recByte, rfl, rfl⟩

end Sys2Proof.Machine.HostImage
end

section
/-! A host at each stage of a job (R186, R187): what its engine serves, and what holds when it is served. -/

namespace Sys2Proof.Machine.HostImage

/-! ### What holds when the accesses of a stage are served -/

/-- LEVEL during a job, from LEVEL before it: an encode sets it, a decode leaves it (R186, R187). -/
def Job.levelFrom (level : BitVec Config.levelBits) : Job → BitVec Config.levelBits
  | .encode _ n => BitVec.ofNat Config.levelBits (hostLevel n)
  | .decode _ => level

theorem levelFrom_encode (level : BitVec Config.levelBits) (r : Raster) (n : Nat) :
    ((Job.encode r n).levelFrom level).toNat = min n 65535 := by
  have hmax : hostLevel n = min n 65535 := rfl
  rw [Job.levelFrom, BitVec.toNat_ofNat, hmax]
  exact Nat.mod_eq_of_lt (by unfold Config.levelBits; omega)

/-- An engine that takes the next command, with this LEVEL. -/
structure Ready (level : BitVec Config.levelBits) (s : State) : Prop where
  inv : Inv s
  busy : s.status.busy = false
  err : s.status.err = false
  level : s.level = level

/-- The `WAIT` of tile `i` has ended, and its last reply is STATUS (R91). -/
structure Job.Awaited (job : Job) (level : BitVec Config.levelBits) (i : Nat) (s : State) : Prop where
  inv : Inv s
  level : s.level = level
  reply : latestReplies s 1 = [s.status.toByte]
  ended : job.TileEnded i s

/-- The result of tile `i` has been read back (R186, R187). -/
structure Job.HasRead (job : Job) (level : BitVec Config.levelBits) (i : Nat) (s : State) : Prop where
  ready : Ready level s
  finished : s.status = .finished
  result : job.tileResult i = .ok (latestReplies s job.readBack.length)
  holds : job.Holds i (latestReplies s job.readBack.length) s

/-- The error of tile `i` has been read and the engine reset (R186, R187). -/
structure Job.HasFailed (job : Job) (i : Nat) (s : State) : Prop where
  result : job.tileResult i = .error (.engine i (reportedError s))
  idle : s.status = .idle
  level : s.level = 16

/-! ### From each stage to the next -/

section
variable {level : BitVec Config.levelBits} {job : Job} {s : State} {script : List HostAction}

/-- What the host does first leaves LEVEL as the job needs it. -/
theorem serves_begin (hready : Ready level s) (hbegin : job.begin = .ok script) :
    Serves (Ready (job.levelFrom level)) (s.withScript script) := by
  obtain ⟨hinv, hbusy, herr, hlevel⟩ := hready
  cases job with
  | encode r n =>
    rw [Job.begin] at hbegin
    split_ifs at hbegin
    cases hbegin
    refine .setLevel (hinv.withScript _) hbusy (Nat.min_le_right _ _) rfl ⟨?_, hbusy, herr, rfl⟩
    exact hinv.congr hinv.mem rfl rfl rfl rfl rfl hinv.delay
  | decode stream =>
    cases hparse : parseHeader stream with
    | error e => rw [Job.begin, hparse] at hbegin; cases hbegin
    | ok h =>
      cases (Job.begin_decode hparse).symm.trans hbegin
      exact .served rfl ⟨hinv.withScript [], hbusy, herr, hlevel⟩

/-- The engine's step of a tile's command, seen by the `WAIT`. -/
theorem awaited_of_engineStep {t u : State} {i : Nat} (hinv : Inv u) (hbusy : u.status.busy = true)
    (hlevel : u.level = level) (hstep : engineStep u = .next t) (hended : job.TileEnded i t) :
    job.Awaited level i ((t.withScript []).reply statusOffset t.status.toByte) where
  inv := ((hinv.engineStep hbusy hstep).withScript _).reply _ _
  level := (engineStep_frame hstep).2.trans hlevel
  reply := rfl
  ended := hended

/-- The pixel loads of a tile, ENC and the `WAIT` (R186). -/
theorem serves_issue_encode {r : Raster} {n i : Nat} (hready : Ready ((Job.encode r n).levelFrom level) s) :
    Serves ((Job.encode r n).Awaited ((Job.encode r n).levelFrom level) i)
      (s.withScript (loadTile r i ++ Script.enc ++ Script.wait)) := by
  obtain ⟨hinv, hbusy, herr, hlevel⟩ := hready
  have hlen := tileOf_length r i
  rw [loadTile_eq_store]
  refine .store (hinv.withScript _) hbusy (by omega) (List.append_assoc _ _ _) ?_
  refine .command (op := .enc) ((hinv.loaded _ _).withScript _) hbusy herr (by decide) (issueCommand_enc hbusy herr)
    rfl fun u t hu hmem hlevel' hop hbusy' hstep => ?_
  have hlevel' := hlevel'.trans hlevel
  refine awaited_of_engineStep hu hbusy' hlevel' hstep (tileEnded_enc hu hbusy' hop ?level ?tile hstep)
  case level => rw [State.levelNat, hlevel', levelFrom_encode]; rfl
  case tile =>
    intro j hj
    have hbyte := byte_loaded hinv (base := 0) (by omega) (hlen.symm ▸ hj)
    rw [Nat.zero_add] at hbyte
    exact (congrArg (Memory.byte · j) hmem).trans hbyte

/-- The load of a record, DEC and the `WAIT` (R187). -/
theorem serves_issue_decode {stream record : List Byte} {h : Header} {i : Nat}
    (hready : Ready ((Job.decode stream).levelFrom level) s) (hparse : parseHeader stream = .ok h)
    (hrecord : h.record i = .ok record) :
    Serves ((Job.decode stream).Awaited ((Job.decode stream).levelFrom level) i)
      (s.withScript (Script.ldRec record ++ Script.dec ++ Script.wait)) := by
  obtain ⟨hinv, hbusy, herr, hlevel⟩ := hready
  have hfit : recOffset 0 + record.length ≤ 267 := by rw [(Header.record_ok hrecord).2]; decide
  refine .store (hinv.withScript _) hbusy hfit (List.append_assoc _ _ _) ?_
  refine .command (op := .dec) ((hinv.loaded _ _).withScript _) hbusy herr (by decide) (issueCommand_dec hbusy herr)
    rfl fun u t hu hmem hlevel' hop hbusy' hstep => ?_
  refine awaited_of_engineStep hu hbusy' (hlevel'.trans hlevel) hstep
    (tileEnded_dec hu hbusy' hop hparse hrecord (fun j hj => ?_) hstep)
  exact (congrArg (Memory.byte · (recOffset j)) hmem).trans
    (byte_loaded hinv hfit ((Header.record_ok hrecord).2.symm ▸ hj))

/-- A tile of a decode is issued exactly when its record is there; else the tile fails as the issue does (R187). -/
theorem issue_decode_cases (stream : List Byte) (i : Nat) :
    (∃ h record, parseHeader stream = .ok h ∧ h.record i = .ok record ∧
      (Job.decode stream).issue i = .ok (Script.ldRec record ++ Script.dec ++ Script.wait)) ∨
    ∃ e, (Job.decode stream).issue i = .error e ∧ (Job.decode stream).tileResult i = .error e ∧ e.IsFormat := by
  simp only [Job.issue, Job.tileResult, decodeBlockAt, bind, Except.bind]
  cases hparse : parseHeader stream with
  | error e => exact .inr ⟨e, rfl, rfl, parseHeader_error hparse⟩
  | ok h =>
    dsimp only
    cases hrecord : h.record i with
    | error e => exact .inr ⟨e, rfl, rfl, Header.record_error hrecord⟩
    | ok record => exact .inl ⟨h, record, rfl, hrecord, rfl⟩

/-- The loads, the command and the `WAIT` of a tile (R186, R187). -/
theorem serves_issue {i : Nat} (hready : Ready (job.levelFrom level) s) (hissue : job.issue i = .ok script) :
    Serves (job.Awaited (job.levelFrom level) i) (s.withScript script) := by
  cases job with
  | encode r n =>
    cases hissue
    exact serves_issue_encode hready
  | decode stream =>
    obtain ⟨h, record, hparse, hrecord, hok⟩ | ⟨e, herr, -⟩ := issue_decode_cases stream i
    · cases hok.symm.trans hissue
      exact serves_issue_decode hready hparse hrecord
    · cases herr.symm.trans hissue

/-- The reads of a result that is in the buffers (R186, R187). -/
theorem serves_readBack {i : Nat} {result : List Byte} (hresult : job.tileResult i = .ok result)
    (hawaited : job.Awaited level i s) : Serves (job.HasRead level i) (s.withScript job.readBack) := by
  obtain ⟨hinv, hlevel, -, hended⟩ := hawaited
  obtain ⟨hfinished, hlen, hholds⟩ := (Job.tileEnded_of_ok hresult).mp hended
  have hbusy : s.status.busy = false := by rw [hfinished]; rfl
  have herr : s.status.err = false := by rw [hfinished]; rfl
  obtain ⟨offsets, hread, hoffsets, hbytes⟩ : ∃ offsets : List Nat, job.readBack = offsets.map .read ∧
      (∀ a ∈ offsets, a < 267) ∧ offsets.map s.mem.byte = result := by
    cases job with
    | encode r n =>
      refine ⟨(List.range 75).map recOffset, (List.map_map ..).symm, ?_, ?_⟩
      · simp only [List.mem_map, List.mem_range, recOffset]
        omega
      · rw [List.map_map]
        exact map_range_eq_of_getD hlen hholds.2
    | decode stream =>
      refine ⟨(List.range 192).map tileOffset, (List.map_map ..).symm, ?_, ?_⟩
      · simp only [List.mem_map, List.mem_range, tileOffset]
        omega
      · rw [List.map_map]
        exact map_range_eq_of_getD hlen hholds.2
  have hreplies : latestReplies ((s.withScript job.readBack).readBack offsets) job.readBack.length = result := by
    have hlength : job.readBack.length = offsets.length := by rw [hread, List.length_map]
    rw [hlength, latestReplies_readBack]
    exact hbytes
  refine .reads (hinv.withScript _) hbusy hoffsets hread
    ⟨⟨(hinv.withScript _).readBack _, hbusy, herr, hlevel⟩, hfinished, ?_, ?_⟩
  · rw [hreplies, hresult]
  · rw [hreplies]
    cases job <;> exact hholds

/-- The reads of an error and the reset (R186, R187). -/
theorem serves_readError {i : Nat} {e : HostError} (hresult : job.tileResult i = .error e)
    (hawaited : job.Awaited level i s) :
    Serves (job.HasFailed i) (s.withScript (Script.readError ++ Script.srst)) := by
  obtain ⟨hinv, hlevel, -, hended⟩ := hawaited
  obtain ⟨hfailed, e', rfl, hlegal, hcode, hinfo⟩ := (Job.tileEnded_of_error hresult).mp hended
  have hreported : reportedError (s.withScript (Script.readError ++ Script.srst)).errorRead = e' := by
    show errorOf s.errcode s.errinfo = e'
    rw [hcode, hinfo]
    refine errorOf_code_info e' fun j hj => ?_
    obtain rfl | rfl := hj <;> simp only [EngineError.Legal] at hlegal <;> omega
  exact .errorRead (hinv.withScript _) (by rw [State.withScript_status, hfailed]; rfl) rfl
    ⟨by rw [hreported, hresult], rfl, rfl⟩

end

/-! ### A host on its way through a job -/

/-- What the engine of a host serves at each stage, and what it then has; LEVEL was `level` before the job. -/
def HostRun.OnTrack (job : Job) (level : BitVec Config.levelBits) (run : HostRun) : Prop :=
  match run.stage with
  | .start => run.engine.script = [] ∧ Ready level run.engine
  | .next => Serves (Ready (job.levelFrom level)) run.engine
  | .awaited => run.tile < job.count ∧ Serves (job.Awaited (job.levelFrom level) run.tile) run.engine
  | .read => run.tile < job.count ∧ Serves (job.HasRead (job.levelFrom level) run.tile) run.engine
  | .errorRead => run.tile < job.count ∧ Serves (job.HasFailed run.tile) run.engine
  | .done => False
  | .stopped _ => False

section
variable {job : Job} {level : BitVec Config.levelBits} {run : HostRun}

theorem HostRun.onTrack_start {s : State} (hready : Ready level s) (hscript : s.script = []) :
    (HostRun.start s).OnTrack job level :=
  ⟨hscript, hready⟩

/-- The branch after a `WAIT` goes to the reads of the result or to those of the error (R223). -/
theorem HostRun.afterWait_cases (h : job.Awaited level run.tile run.engine) :
    ((∃ result, job.tileResult run.tile = .ok result) ∧ run.afterWait job = run.accesses job.readBack .read) ∨
    ((∃ e, job.tileResult run.tile = .error e) ∧
      run.afterWait job = run.accesses (Script.readError ++ Script.srst) .errorRead) := by
  cases hresult : job.tileResult run.tile with
  | ok result =>
    have hstatus := ((Job.tileEnded_of_ok hresult).mp h.ended).1
    exact .inl ⟨⟨result, rfl⟩, by rw [HostRun.afterWait, h.reply, hstatus, if_neg (by decide)]⟩
  | error e =>
    have hstatus := ((Job.tileEnded_of_error hresult).mp h.ended).1
    exact .inr ⟨⟨e, rfl⟩, by rw [HostRun.afterWait, h.reply, hstatus, if_pos rfl]⟩

theorem HostRun.onTrack_afterWait (htile : run.tile < job.count)
    (h : job.Awaited (job.levelFrom level) run.tile run.engine) : (run.afterWait job).OnTrack job level := by
  obtain ⟨⟨result, hresult⟩, hbranch⟩ | ⟨⟨e, hresult⟩, hbranch⟩ := HostRun.afterWait_cases h <;> rw [hbranch]
  · exact ⟨htile, serves_readBack hresult h⟩
  · exact ⟨htile, serves_readError hresult h⟩

/-- A step of the engine keeps the host on its way. -/
theorem HostRun.OnTrack.engineStep (h : run.OnTrack job level) (hscript : run.engine.script ≠ []) :
    ∃ t, Machine.step run.engine = .next t ∧ ({ run with engine := t } : HostRun).OnTrack job level := by
  obtain ⟨engine, tile, output, stage⟩ := run
  cases stage with
  | start => exact absurd h.1 hscript
  | next => exact Serves.next h hscript
  | awaited => obtain ⟨t, hstep, ht⟩ := h.2.next hscript; exact ⟨t, hstep, h.1, ht⟩
  | read => obtain ⟨t, hstep, ht⟩ := h.2.next hscript; exact ⟨t, hstep, h.1, ht⟩
  | errorRead => obtain ⟨t, hstep, ht⟩ := h.2.next hscript; exact ⟨t, hstep, h.1, ht⟩
  | done => exact h.elim
  | stopped e => exact h.elim

end

/-- Whatever the stage, the engine serves its accesses to their end. -/
theorem HostRun.OnTrack.serves {job : Job} {level : BitVec Config.levelBits} {run : HostRun}
    (h : run.OnTrack job level) :
    ∃ P, Serves P run.engine := by
  obtain ⟨engine, tile, output, stage⟩ := run
  cases stage with
  | start => exact ⟨_, .served h.1 h.2⟩
  | next => exact ⟨_, h⟩
  | awaited => exact ⟨_, h.2⟩
  | read => exact ⟨_, h.2⟩
  | errorRead => exact ⟨_, h.2⟩
  | done => exact h.elim
  | stopped e => exact h.elim

/-! ### The checks of a job -/

/-- Issuing a tile fails only where its record is not there, which is then the result of the tile (R187). -/
theorem Job.issue_error {job : Job} {i : Nat} {e : HostError} (hissue : job.issue i = .error e) :
    job.tileResult i = .error e ∧ e.IsFormat := by
  cases job with
  | encode r n => cases hissue
  | decode stream =>
    obtain ⟨_, _, -, -, hok⟩ | ⟨e', herr, hresult, hformat⟩ := issue_decode_cases stream i
    · cases hok.symm.trans hissue
    · cases herr.symm.trans hissue
      exact ⟨hresult, hformat⟩

theorem Job.begin_error {job : Job} {e : HostError} (hbegin : job.begin = .error e) : e.IsFormat := by
  cases job with
  | encode r n =>
    rw [Job.begin] at hbegin
    split_ifs at hbegin
    exact ⟨_, (Except.error.inj hbegin).symm⟩
  | decode stream =>
    cases hparse : parseHeader stream with
    | error e' =>
      rw [Job.begin, hparse] at hbegin
      exact Except.error.inj hbegin ▸ parseHeader_error hparse
    | ok h => cases (Job.begin_decode hparse).symm.trans hbegin

theorem Job.finish_error {job : Job} {script : List HostAction} {e : HostError} (hbegin : job.begin = .ok script)
    (hfinish : job.finish = .error e) : e.IsFormat := by
  cases job with
  | encode r n => cases hfinish
  | decode stream =>
    cases hparse : parseHeader stream with
    | error e' => rw [Job.begin, hparse] at hbegin; cases hbegin
    | ok h =>
      rw [Job.finish_decode hparse] at hfinish
      obtain ⟨hok, -⟩ | ⟨e', herr, hformat⟩ := h.checkFooter_cases
      · cases hok.symm.trans hfinish
      · cases herr.symm.trans hfinish
        exact hformat

/-- An image that begins has a tile (R182). -/
theorem Job.count_pos {job : Job} {script : List HostAction} (hbegin : job.begin = .ok script) : 0 < job.count := by
  have hpos {width height : Nat} (hw : 8 ≤ width) (hh : 8 ≤ height) : 0 < blockCount width height :=
    Nat.mul_pos (by omega) (by omega)
  cases job with
  | encode r n =>
    rw [Job.begin] at hbegin
    split_ifs at hbegin with hencodable
    simp only [encodable, dimensionOk, Bool.and_eq_true, decide_eq_true_eq, beq_iff_eq] at hencodable
    exact hpos (by omega) (by omega)
  | decode stream =>
    cases hparse : parseHeader stream with
    | error e => rw [Job.begin, hparse] at hbegin; cases hbegin
    | ok h =>
      obtain ⟨-, hw, hh⟩ := parseHeader_ok hparse
      rw [Job.count_decode hparse]
      exact hpos hw hh

end Sys2Proof.Machine.HostImage
end

section
/-! A host that drives one engine through a whole image (R186, R187): tile by tile to the end, with the result of the
image codec. -/

namespace Sys2Proof.Machine.HostImage

/-! ### Runs of a host -/

/-- Some number of steps leads from the one to the other. -/
def HostRun.Reaches (job : Job) (a b : HostRun) : Prop :=
  ∃ n, HostRun.run job n a = .next b

theorem HostRun.Reaches.refl (job : Job) (a : HostRun) : HostRun.Reaches job a a :=
  ⟨0, rfl⟩

theorem HostRun.Reaches.trans {job : Job} {a b c : HostRun} (hab : HostRun.Reaches job a b)
    (hbc : HostRun.Reaches job b c) : HostRun.Reaches job a c := by
  obtain ⟨m, hm⟩ := hab
  obtain ⟨n, hn⟩ := hbc
  exact ⟨m + n, (HostRun.run_add hm).trans hn⟩

theorem HostRun.Reaches.of_step {job : Job} {a b : HostRun} (h : a.step job = .next b) : HostRun.Reaches job a b :=
  ⟨1, by simp only [HostRun.run, h]⟩

section
variable {job : Job} {level : BitVec Config.levelBits} {run : HostRun}

/-- With its accesses served the host moves. -/
theorem HostRun.reaches_advance {run' : HostRun} (hscript : run.engine.script = []) (h : run.advance job = run') :
    HostRun.Reaches job run run' :=
  .of_step (h ▸ HostRun.step_advance job hscript)

/-- What an engine serves it serves in some number of steps of the host, which meanwhile stays where it is. -/
theorem HostRun.reaches_served {P : State → Prop} (h : Serves P run.engine) :
    ∃ t, HostRun.Reaches job run { run with engine := t } ∧ t.script = [] ∧ P t := by
  generalize hs : run.engine = s at h
  induction h generalizing run with
  | served hnil hP => exact ⟨run.engine, .refl job run, hs ▸ hnil, hs ▸ hP⟩
  | @step s t hne hstep _ ih =>
    obtain ⟨u, hreach, hu⟩ := ih (run := { run with engine := t }) rfl
    subst hs
    exact ⟨u, (HostRun.Reaches.of_step (HostRun.step_engine job hne hstep)).trans hreach, hu⟩

/-! ### One tile -/

/-- The host is at the head of its loop, the tiles before done: the engine is ready, and it holds the last of them. -/
structure HostRun.AtTile (job : Job) (level : BitVec Config.levelBits) (run : HostRun) : Prop where
  stage : run.stage = .next
  script : run.engine.script = []
  ready : Ready (job.levelFrom level) run.engine
  last : 0 < run.tile → run.engine.status = .finished ∧
    ∃ result, run.output.getLast? = some result ∧ job.Holds (run.tile - 1) result run.engine

/-- The host has stopped with this error, and after an error of the engine the engine is reset. -/
def HostRun.StoppedWith (e : HostError) (run : HostRun) : Prop :=
  run.stage = .stopped e ∧ ∀ i e', e = .engine i e' → run.engine.status = .idle ∧ run.engine.level = 16

/-- A check that fails stops the host; it is no error of the engine. -/
theorem HostRun.stoppedWith_of_isFormat {e : HostError} (hformat : e.IsFormat) (hstage : run.stage = .stopped e) :
    run.StoppedWith e := by
  obtain ⟨cause, rfl⟩ := hformat
  exact ⟨hstage, fun i e' h => by cases h⟩

/-- What the round of a tile leads to: its result put out, or the host stopped by its error. -/
def HostRun.RoundEnds (job : Job) (level : BitVec Config.levelBits) (run : HostRun) : Prop :=
  (∃ result run', job.tileResult run.tile = .ok result ∧ HostRun.Reaches job run run' ∧ run'.AtTile job level ∧
    run'.tile = run.tile + 1 ∧ run'.output = run.output ++ [result]) ∨
  (∃ e run', job.tileResult run.tile = .error e ∧ HostRun.Reaches job run run' ∧ run'.StoppedWith e)

/-- The rest of a round, from the end of its `WAIT` on. -/
theorem HostRun.roundEnds_of_awaited (hstage : run.stage = .awaited) (hscript : run.engine.script = [])
    (h : job.Awaited (job.levelFrom level) run.tile run.engine) : run.RoundEnds job level := by
  have hbranch : HostRun.Reaches job run (run.afterWait job) :=
    HostRun.reaches_advance hscript (by rw [HostRun.advance, hstage])
  obtain ⟨⟨result, hresult⟩, hafter⟩ | ⟨⟨e, hresult⟩, hafter⟩ := HostRun.afterWait_cases h <;> rw [hafter] at hbranch
  · obtain ⟨u, hread, huscript, hu⟩ :=
      HostRun.reaches_served (job := job) (run := run.accesses job.readBack .read) (serves_readBack hresult h)
    let read : HostRun := { run with engine := u, stage := .read }
    have hput : HostRun.Reaches job read ⟨u, run.tile + 1, run.output ++ [read.result job], .next⟩ :=
      HostRun.reaches_advance huscript rfl
    exact .inl ⟨read.result job, _, hu.result, (hbranch.trans hread).trans hput,
      ⟨rfl, huscript, hu.ready, fun _ => ⟨hu.finished, _, List.getLast?_concat, hu.holds⟩⟩, rfl, rfl⟩
  · obtain ⟨u, hread, huscript, hu⟩ :=
      HostRun.reaches_served (job := job) (run := run.accesses (Script.readError ++ Script.srst) .errorRead)
        (serves_readError hresult h)
    let read : HostRun := { run with engine := u, stage := .errorRead }
    have hstop : HostRun.Reaches job read { read with stage := .stopped read.failure } :=
      HostRun.reaches_advance huscript rfl
    exact .inr ⟨read.failure, _, hu.result, (hbranch.trans hread).trans hstop, rfl, fun _ _ _ => ⟨hu.idle, hu.level⟩⟩

theorem HostRun.AtTile.round (h : run.AtTile job level) (htile : run.tile < job.count) : run.RoundEnds job level := by
  obtain ⟨hstage, hscript, hready, -⟩ := h
  have hadvance : run.advance job = run.issue job := by rw [HostRun.advance, hstage]; exact if_pos htile
  cases hissue : job.issue run.tile with
  | error e =>
    obtain ⟨hresult, hformat⟩ := Job.issue_error hissue
    rw [HostRun.issue, hissue, HostRun.orStop_error] at hadvance
    exact .inr ⟨e, _, hresult, HostRun.reaches_advance hscript hadvance, HostRun.stoppedWith_of_isFormat hformat rfl⟩
  | ok script =>
    rw [HostRun.issue, hissue, HostRun.orStop_ok] at hadvance
    obtain ⟨t, hserved, htscript, hawaited⟩ :=
      HostRun.reaches_served (job := job) (run := run.accesses script .awaited) (serves_issue hready hissue)
    have hwait := (HostRun.reaches_advance hscript hadvance).trans hserved
    obtain ⟨result, run', hresult, hreach, hrest⟩ | ⟨e, run', hresult, hreach, hstopped⟩ :=
      HostRun.roundEnds_of_awaited (run := { run.accesses script .awaited with engine := t }) rfl htscript hawaited
    · exact .inl ⟨result, run', hresult, hwait.trans hreach, hrest⟩
    · exact .inr ⟨e, run', hresult, hwait.trans hreach, hstopped⟩

/-! ### The whole image -/

/-- How a host ends whose job has these results, or fails with this error (R186, R187). -/
def HostRun.Ended (job : Job) (level : BitVec Config.levelBits) (results : Except HostError (List (List Byte)))
    (run : HostRun) : Prop :=
  match results with
  | .ok outputs =>
    run.stage = .done ∧ run.output = outputs ∧ run.tile = job.count ∧ run.engine.status = .finished ∧
      run.engine.level = job.levelFrom level ∧
      ∃ result, outputs.getLast? = some result ∧ job.Holds (job.count - 1) result run.engine
  | .error e => run.StoppedWith e

/-- After the last tile the host ends as the check of the footer says (R187). -/
theorem HostRun.AtTile.reaches_finish {script : List HostAction} (hbegin : job.begin = .ok script)
    (h : run.AtTile job level) (htile : run.tile = job.count) :
    ∃ run', HostRun.Reaches job run run' ∧ run'.Ended job level (job.finish.map fun _ => run.output) := by
  obtain ⟨hstage, hscript, hready, hlast⟩ := h
  have hadvance : run.advance job = run.orStop job.finish (fun _ => { run with stage := .done }) := by
    rw [HostRun.advance, hstage]
    exact if_neg (by omega)
  obtain ⟨hfinished, hholds⟩ := hlast (htile ▸ Job.count_pos hbegin)
  cases hfinish : job.finish with
  | error e =>
    rw [hfinish, HostRun.orStop_error] at hadvance
    exact ⟨_, HostRun.reaches_advance hscript hadvance,
      HostRun.stoppedWith_of_isFormat (Job.finish_error hbegin hfinish) rfl⟩
  | ok _ =>
    rw [hfinish, HostRun.orStop_ok] at hadvance
    exact ⟨_, HostRun.reaches_advance hscript hadvance, rfl, rfl, htile, hfinished, hready.level, htile ▸ hholds⟩

/-- By induction on the tiles to come: each is put out, or stops the host. -/
theorem HostRun.AtTile.reaches_end {script : List HostAction} (hbegin : job.begin = .ok script) {m : Nat}
    (h : run.AtTile job level) (htile : run.tile + m = job.count) :
    ∃ run', HostRun.Reaches job run run' ∧ run'.Ended job level
      ((forTiles job.tileResult (List.range' run.tile m)).bind
        fun results => job.finish.map fun _ => run.output ++ results) := by
  induction m generalizing run with
  | zero =>
    obtain ⟨run', hreach, hend⟩ := h.reaches_finish hbegin htile
    rw [← List.append_nil run.output] at hend
    exact ⟨run', hreach, hend⟩
  | succ m ih =>
    obtain ⟨result, next, hresult, hreach, hnext, hnextTile, houtput⟩ | ⟨e, last, hresult, hreach, hstopped⟩ :=
      h.round (by omega)
    · obtain ⟨run', hreach', hend⟩ := ih hnext (by omega)
      refine ⟨run', hreach.trans hreach', ?_⟩
      rw [List.range'_succ, forTiles_cons_ok hresult]
      rw [hnextTile, houtput] at hend
      cases hrest : forTiles job.tileResult (List.range' (run.tile + 1) m) with
      | error e => rwa [hrest] at hend
      | ok results =>
        rw [hrest] at hend
        simpa only [Except.map, Except.bind, List.append_assoc, List.singleton_append] using hend
    · rw [List.range'_succ, forTiles_cons_error hresult]
      exact ⟨last, hreach, hstopped⟩

/-- A host with a ready engine ends, with the results of its job or with their error (R186, R187). -/
theorem HostRun.reaches_ended {s : State} (hready : Ready level s) (hscript : s.script = []) :
    ∃ run, HostRun.Reaches job (.start s) run ∧ run.Ended job level job.results := by
  have hadvance : (HostRun.start s).advance job =
    (HostRun.start s).orStop job.begin (fun script => (HostRun.start s).accesses script .next) := rfl
  cases hbegin : job.begin with
  | error e =>
    rw [hbegin, HostRun.orStop_error] at hadvance
    rw [Job.results_of_begin_error hbegin]
    exact ⟨_, HostRun.reaches_advance hscript hadvance, HostRun.stoppedWith_of_isFormat (Job.begin_error hbegin) rfl⟩
  | ok script =>
    rw [hbegin, HostRun.orStop_ok] at hadvance
    obtain ⟨t, hserved, htscript, ht⟩ :=
      HostRun.reaches_served (job := job) (run := (HostRun.start s).accesses script .next) (serves_begin hready hbegin)
    have hfirst : HostRun.AtTile job level ⟨t, 0, [], .next⟩ := ⟨rfl, htscript, ht, fun h => absurd h (Nat.lt_irrefl 0)⟩
    obtain ⟨run', hreach, hend⟩ := hfirst.reaches_end hbegin (m := job.count) (Nat.zero_add _)
    refine ⟨run', ((HostRun.reaches_advance hscript hadvance).trans hserved).trans hreach, ?_⟩
    rw [Job.results, hbegin, List.range_eq_range']
    exact hend

end

theorem HostRun.StoppedWith.levelNat {e : HostError} {run : HostRun} (h : run.StoppedWith e) :
    run.stage = .stopped e ∧ ∀ i e', e = .engine i e' → run.engine.status = .idle ∧ run.engine.levelNat = 16 := by
  obtain ⟨hstage, hreset⟩ := h
  refine ⟨hstage, fun i e' he => ?_⟩
  obtain ⟨hidle, hlevel⟩ := hreset i e' he
  exact ⟨hidle, congrArg BitVec.toNat hlevel⟩

/-- Settles O58: the host ends as its job does, and the results of the job make up those of the image codec. -/
theorem imageProgramsDriveTheEngine : Obligations.ImageProgramsDriveTheEngine := by
  intro s hinv hbusy herr hscript
  have hready : Ready s.level s := ⟨hinv, hbusy, herr, rfl⟩
  refine ⟨fun r level => ?encode, fun stream => ?decode⟩
  case encode =>
    obtain ⟨run, ⟨n, hrun⟩, hend⟩ := HostRun.reaches_ended (job := .encode r level) hready hscript
    refine ⟨n, run, hrun, ?_⟩
    rw [encodeImage_eq]
    cases hresults : (Job.encode r level).results with
    | error e =>
      rw [hresults] at hend
      exact hend.levelNat
    | ok records =>
      rw [hresults] at hend
      obtain ⟨hstage, houtput, htile, hfinished, hlevel, record, hlast, hholds⟩ := hend
      have hstream : run.stream r = serialize ⟨r.width, r.height, records⟩ := by
        rw [HostRun.stream, hstage, houtput]
        rfl
      have hlevelNat : run.engine.levelNat = min level 65535 := by
        rw [State.levelNat, hlevel, levelFrom_encode]
      have hcount : run.tile - 1 = (Job.encode r level).count - 1 := by rw [htile]
      exact ⟨hstage, hstream, hfinished, hlevelNat, htile, hcount ▸ hholds.1, record, houtput ▸ hlast, hholds.2⟩
  case decode =>
    obtain ⟨run, ⟨n, hrun⟩, hend⟩ := HostRun.reaches_ended (job := .decode stream) hready hscript
    refine ⟨n, run, hrun, ?_⟩
    cases hparse : parseHeader stream with
    | error e =>
      obtain ⟨hdecode, hresults⟩ := decodeImage_error hparse
      rw [hresults] at hend
      rw [hdecode]
      exact hend.levelNat
    | ok h =>
      rw [decodeImage_eq hparse]
      cases hresults : (Job.decode stream).results with
      | error e =>
        rw [hresults] at hend
        exact hend.levelNat
      | ok tiles =>
        rw [hresults] at hend
        obtain ⟨hstage, houtput, htile, hfinished, hlevel, tile, hlast, hrecord, hholds⟩ := hend
        obtain ⟨h', record, hparse', hrecord, hrec⟩ := hrecord
        cases hparse.symm.trans hparse'
        rw [Job.count_decode hparse] at htile hrecord
        have hraster : run.raster h = assemble h.width h.height tiles := by rw [HostRun.raster, houtput]
        exact ⟨hstage, hfinished, hlevel, ⟨h, record, rfl, hraster, htile, htile ▸ hrecord, hrec⟩,
          tile, houtput ▸ hlast, hholds⟩

end Sys2Proof.Machine.HostImage
end

section
/-! An image over several engines (R188): whatever the moves, each place holds the result of its tile. -/

namespace Sys2Proof.Machine.Platform

open HostImage

/-! ### The results of a job from those of its tiles -/

section
variable {job : Job} {script : List HostAction} (hbegin : job.begin = .ok script)
include hbegin

/-- A tile that fails fails the image, at it or at one before (R186, R187). -/
theorem results_error_of_tile {i : Nat} {e : HostError} (hi : i < job.count) (h : job.tileResult i = .error e) :
    ∃ e', job.results = .error e' := by
  cases hall : forTiles job.tileResult (List.range job.count) with
  | error e' => exact ⟨e', Job.results_of_tiles_error hbegin hall⟩
  | ok results =>
    have hmem : job.tileResult i ∈ (List.range job.count).map job.tileResult :=
      List.mem_map_of_mem (List.mem_range.mpr hi)
    rw [forTiles_eq_ok_iff.mp hall, h] at hmem
    obtain ⟨_, -, hok⟩ := List.mem_map.mp hmem
    cases hok

theorem results_error_of_finish {e : HostError} (h : job.finish = .error e) : ∃ e', job.results = .error e' := by
  cases hall : forTiles job.tileResult (List.range job.count) with
  | error e' => exact ⟨e', Job.results_of_tiles_error hbegin hall⟩
  | ok results =>
    rw [Job.results_of_tiles_ok hbegin hall, h]
    exact ⟨e, rfl⟩

/-- Places that all hold the results of their tiles are the results of the image, in order (R188). -/
theorem results_of_places {places : List (Option (List Byte))} (hsize : places.length = job.count)
    (hplaces : ∀ i result, places[i]? = some (some result) → job.tileResult i = .ok result)
    (hall : places.all Option.isSome = true) (hfinish : job.finish = .ok ()) : job.results = .ok (framed places) := by
  have htiles : forTiles job.tileResult (List.range job.count) = .ok (framed places) := by
    rw [forTiles_eq_ok_iff, framed_of_all hall, List.map_map]
    refine List.ext_getElem (by simp [hsize]) fun i _ hi => ?_
    have hi : i < places.length := by simpa using hi
    obtain ⟨result, hresult⟩ := Option.isSome_iff_exists.mp (List.all_eq_true.mp hall _ (List.getElem_mem hi))
    have htile := hplaces i result (by rw [List.getElem?_eq_getElem hi, hresult])
    simp [hresult, htile]
  rw [Job.results_of_tiles_ok hbegin htiles, hfinish]
  rfl

end

/-! ### What every move keeps -/

/-- What the stage of a team says of its job. -/
def ImageTeam.StageSound (job : Job) (team : ImageTeam) : Prop :=
  match team.stage with
  | .next => ∃ script, job.begin = .ok script
  | .done => (∃ script, job.begin = .ok script) ∧ team.places.all Option.isSome = true ∧ job.finish = .ok ()
  | .stopped _ => ∃ e, job.results = .error e
  | .start => False
  | .awaited => False
  | .read => False
  | .errorRead => False

/-- Each engine is on its way through a tile, and a filled place holds the result of its tile. -/
structure ImageTeam.Sound (job : Job) (team : ImageTeam) : Prop where
  workers : ∀ run ∈ team.workers, ∃ level, run.OnTrack job level
  size : team.places.length = job.count
  places : ∀ i result, team.places[i]? = some (some result) → job.tileResult i = .ok result
  stage : team.StageSound job

section
variable {job : Job} {team team' : ImageTeam} {k : Nat} {run : HostRun}

theorem ImageTeam.StageSound.begins (h : team.StageSound job) (hstage : team.stage = .next) :
    ∃ script, job.begin = .ok script := by
  rwa [ImageTeam.StageSound, hstage] at h

theorem ImageTeam.Sound.start {engines : Engines}
    (hengines : ∀ s ∈ engines, Inv s ∧ s.status.busy = false ∧ s.status.err = false ∧ s.script = []) :
    (ImageTeam.start job engines).Sound job where
  workers := by
    intro run hrun
    obtain ⟨s, hs, rfl⟩ := List.mem_map.mp hrun
    obtain ⟨hinv, hbusy, herr, hscript⟩ := hengines s hs
    exact ⟨s.level, HostRun.onTrack_start ⟨hinv, hbusy, herr, rfl⟩ hscript⟩
  size := List.length_replicate
  places := by
    intro i result hresult
    cases (List.mem_replicate.mp (List.mem_of_getElem? hresult)).2
  stage := by
    unfold ImageTeam.StageSound ImageTeam.start
    cases hbegin : job.begin with
    | ok script => exact ⟨script, rfl⟩
    | error e => exact ⟨e, Job.results_of_begin_error hbegin⟩

theorem ImageTeam.Sound.put (h : team.Sound job) {level : BitVec Config.levelBits} (hrun : run.OnTrack job level) :
    (team.put k run).Sound job where
  workers := by
    intro other hother
    obtain hother | rfl := List.mem_or_eq_of_mem_set hother
    · exact h.workers other hother
    · exact ⟨level, hrun⟩
  size := h.size
  places := h.places
  stage := h.stage

theorem ImageTeam.Sound.stop (h : team.Sound job) (e : HostError) (herror : ∃ e', job.results = .error e') :
    (team.stop e).Sound job :=
  ⟨h.workers, h.size, h.places, herror⟩

/-- A result put at the place of its tile. -/
theorem ImageTeam.Sound.fill (h : team.Sound job) {i : Nat} {result : List Byte}
    (hresult : job.tileResult i = .ok result) :
    ({ team with places := team.places.set i (some result) } : ImageTeam).Sound job where
  workers := h.workers
  size := by rw [← h.size, List.length_set]
  places := by
    intro j result' hj
    rw [List.getElem?_set] at hj
    split_ifs at hj with hij hlt
    · cases hj
      exact hij ▸ hresult
    · exact h.places j result' hj
  stage := by
    have hstage := h.stage
    unfold ImageTeam.StageSound at hstage ⊢
    cases hs : team.stage with
    | done =>
      rw [hs] at hstage
      obtain ⟨hbegin, hall, hfinish⟩ := hstage
      refine ⟨hbegin, List.all_eq_true.mpr fun place hplace => ?_, hfinish⟩
      obtain hplace | rfl := List.mem_or_eq_of_mem_set hplace
      · exact List.all_eq_true.mp hall place hplace
      · rfl
    | _ => rwa [hs] at hstage

/-- A tile given to a free worker is issued, or the stream has no record for it. -/
theorem ImageTeam.Sound.give (h : team.Sound job) (hstage : team.stage = .next) (hrun : run ∈ team.workers) (i : Nat) :
    (team.give job k i run).Sound job := by
  obtain ⟨level, htrack⟩ := h.workers run hrun
  unfold ImageTeam.give
  split_ifs with hfree
  · simp only [Bool.and_eq_true, List.isEmpty_iff, beq_iff_eq, decide_eq_true_eq] at hfree
    obtain ⟨⟨hscript, hnext⟩, hi⟩ := hfree
    rw [HostRun.OnTrack, hnext] at htrack
    have hready := htrack.holds hscript
    rw [HostRun.issue]
    cases hissue : job.issue i with
    | error e =>
      obtain ⟨script, hbegin⟩ := h.stage.begins hstage
      exact h.stop e (results_error_of_tile hbegin hi (Job.issue_error hissue).1)
    | ok script => exact h.put (level := level) ⟨hi, serves_issue hready hissue⟩
  · exact h

/-- The host goes on with a worker as it would with its one engine; the result of a tile goes to its place. -/
theorem ImageTeam.Sound.advance (h : team.Sound job) (hstage : team.stage = .next) (hrun : run ∈ team.workers)
    (hscript : run.engine.script = []) : (team.advance job k run).Sound job := by
  obtain ⟨level, htrack⟩ := h.workers run hrun
  obtain ⟨script, hbegin⟩ := h.stage.begins hstage
  unfold ImageTeam.advance
  rw [HostRun.OnTrack] at htrack
  cases hs : run.stage with
  | start =>
    rw [hs] at htrack
    rw [hbegin]
    exact h.put (level := level) (serves_begin htrack.2 hbegin)
  | next => exact h
  | awaited =>
    rw [hs] at htrack
    exact h.put (level := level) (HostRun.onTrack_afterWait htrack.1 (htrack.2.holds hscript))
  | read =>
    rw [hs] at htrack
    have hread := htrack.2.holds hscript
    exact (h.put (run := { run with stage := .next }) (level := level) (.served hscript hread.ready)).fill hread.result
  | errorRead =>
    rw [hs] at htrack
    exact h.stop _ (results_error_of_tile hbegin htrack.1 (htrack.2.holds hscript).result)
  | done => exact h
  | stopped e => exact h

theorem ImageTeam.Sound.work (h : team.Sound job) (hstage : team.stage = .next) (hrun : run ∈ team.workers)
    (hwork : team.work job k run = .next team') : team'.Sound job := by
  by_cases hscript : run.engine.script = []
  · rw [ImageTeam.work, if_pos (by simp [hscript])] at hwork
    injection hwork with hwork
    exact hwork ▸ h.advance hstage hrun hscript
  · obtain ⟨level, htrack⟩ := h.workers run hrun
    obtain ⟨t, hstep, ht⟩ := htrack.engineStep hscript
    rw [ImageTeam.work, if_neg (by simpa using hscript), hstep] at hwork
    injection hwork with hwork
    exact hwork ▸ h.put ht

theorem ImageTeam.Sound.frame (h : team.Sound job) (hstage : team.stage = .next) : (team.frame job).Sound job := by
  obtain ⟨script, hbegin⟩ := h.stage.begins hstage
  unfold ImageTeam.frame
  split_ifs with hall
  · cases hfinish : job.finish with
    | ok _ => exact ⟨h.workers, h.size, h.places, ⟨script, hbegin⟩, hall, hfinish⟩
    | error e => exact h.stop e (results_error_of_finish hbegin hfinish)
  · exact h

theorem ImageTeam.Sound.step {move : TeamMove} (h : team.Sound job) (hstep : team.step job move = .next team') :
    team'.Sound job := by
  obtain rfl | ⟨hstage, k, i, run, -, hk, rfl⟩ | ⟨hstage, k, run, -, hk, hwork⟩ | ⟨hstage, -, rfl⟩ :=
    ImageTeam.step_cases hstep
  · exact h
  · exact h.give hstage (List.mem_of_getElem? hk) i
  · exact h.work hstage (List.mem_of_getElem? hk) hwork
  · exact h.frame hstage

theorem ImageTeam.Sound.moves {moves : List TeamMove} (h : team.Sound job)
    (hrun : ImageTeam.run job moves team = .next team') : team'.Sound job := by
  induction moves generalizing team with
  | nil =>
    injection hrun with hrun
    exact hrun ▸ h
  | cons move rest ih =>
    rw [ImageTeam.run] at hrun
    cases hstep : team.step job move with
    | next after => rw [hstep] at hrun; exact ih (h.step hstep) hrun
    | fault r => rw [hstep] at hrun; cases hrun
    | refused r => rw [hstep] at hrun; cases hrun

/-! ### What the end of an image says -/

theorem ImageTeam.Sound.results_of_done (h : team.Sound job) (hstage : team.stage = .done) :
    job.results = .ok (framed team.places) ∧ framed team.places = team.places.map (fun place => place.getD []) := by
  have hdone := h.stage
  rw [ImageTeam.StageSound, hstage] at hdone
  obtain ⟨⟨script, hbegin⟩, hall, hfinish⟩ := hdone
  exact ⟨results_of_places hbegin h.size h.places hall hfinish, framed_of_all hall⟩

theorem ImageTeam.Sound.results_of_stopped (h : team.Sound job) {e : HostError} (hstage : team.stage = .stopped e) :
    ∃ e', job.results = .error e' := by
  have hstopped := h.stage
  rwa [ImageTeam.StageSound, hstage] at hstopped

end

end Sys2Proof.Machine.Platform
end

section
/-! An image over several engines comes to its end (R188): some moves bring each tile through its engine. -/

namespace Sys2Proof.Machine.Platform

open HostImage

/-! ### Moves by owner -/

/-- Some moves that give each tile to no other engine than its owner lead from the one to the other. -/
def ImageTeam.Reaches (job : Job) (owner : Nat → Nat) (a b : ImageTeam) : Prop :=
  ∃ moves, ImageTeam.run job moves a = .next b ∧ ∀ k i, .give k i ∈ moves → k = owner i

theorem ImageTeam.Reaches.refl (job : Job) (owner : Nat → Nat) (a : ImageTeam) : ImageTeam.Reaches job owner a a :=
  ⟨[], rfl, fun _ _ h => nomatch h⟩

/-- The place of tile `i` is filled. -/
def ImageTeam.Filled (team : ImageTeam) (i : Nat) : Prop :=
  ∃ result, team.places[i]? = some (some result)

/-- The image is done, or it has failed. -/
def ImageTeam.Over (team : ImageTeam) : Prop :=
  team.stage = .done ∨ ∃ e, team.stage = .stopped e

section
variable {job : Job} {owner : Nat → Nat} {a b c team team' : ImageTeam} {k : Nat} {run : HostRun}

theorem ImageTeam.Reaches.trans (hab : ImageTeam.Reaches job owner a b) (hbc : ImageTeam.Reaches job owner b c) :
    ImageTeam.Reaches job owner a c := by
  obtain ⟨first, hfirst, hown⟩ := hab
  obtain ⟨second, hsecond, hown'⟩ := hbc
  refine ⟨first ++ second, (ImageTeam.run_append hfirst).trans hsecond, fun k i h => ?_⟩
  obtain h | h := List.mem_append.mp h
  · exact hown k i h
  · exact hown' k i h

theorem ImageTeam.Reaches.of_step {move : TeamMove} (hstep : a.step job move = .next b)
    (hown : ∀ k i, move = .give k i → k = owner i) : ImageTeam.Reaches job owner a b :=
  ⟨[move], by simp only [ImageTeam.run, hstep], fun k i h => hown k i (List.mem_singleton.mp h).symm⟩

/-! ### What stays filled -/

theorem ImageTeam.filled_set {i j : Nat} {result : List Byte} (h : team.Filled i) :
    ({ team with places := team.places.set j (some result) } : ImageTeam).Filled i := by
  obtain ⟨old, hold⟩ := h
  have hlt := (List.getElem?_eq_some_iff.mp hold).1
  unfold ImageTeam.Filled
  rw [List.getElem?_set]
  split_ifs with hij hj
  · exact ⟨result, rfl⟩
  · exact absurd (hij ▸ hlt) hj
  · exact ⟨old, hold⟩

/-- Two teams of as many workers, and what is filled in the first is filled in the second. -/
def ImageTeam.Kept (a b : ImageTeam) : Prop :=
  b.workers.length = a.workers.length ∧ ∀ i, a.Filled i → b.Filled i

theorem ImageTeam.Kept.refl (team : ImageTeam) : ImageTeam.Kept team team :=
  ⟨rfl, fun _ h => h⟩

theorem ImageTeam.kept_put : ImageTeam.Kept team (team.put k run) :=
  ⟨List.length_set, fun _ h => h⟩

theorem ImageTeam.kept_stop (e : HostError) : ImageTeam.Kept team (team.stop e) :=
  .refl team

theorem ImageTeam.kept_putOrStop : ImageTeam.Kept team (team.putOrStop k run) := by
  obtain ⟨e, -, h⟩ | ⟨-, h⟩ := team.putOrStop_cases k run <;> rw [h]
  · exact ImageTeam.kept_stop e
  · exact ImageTeam.kept_put

theorem ImageTeam.kept_advance : ImageTeam.Kept team (team.advance job k run) := by
  unfold ImageTeam.advance
  split
  · exact ImageTeam.kept_putOrStop
  · exact .refl _
  · exact ImageTeam.kept_put
  · exact ⟨List.length_set, fun _ h => ImageTeam.filled_set h⟩
  · exact ImageTeam.kept_stop _
  · exact .refl _
  · exact .refl _

theorem ImageTeam.kept_work (h : team.work job k run = .next team') : ImageTeam.Kept team team' := by
  unfold ImageTeam.work at h
  split_ifs at h
  · injection h with h
    exact h ▸ ImageTeam.kept_advance
  · cases hstep : Sys2Proof.Machine.step run.engine with
    | next t => rw [hstep] at h; injection h with h; exact h ▸ ImageTeam.kept_put
    | fault r => rw [hstep] at h; cases h
    | refused r => rw [hstep] at h; cases h

theorem ImageTeam.kept_frame : ImageTeam.Kept team (team.frame job) := by
  unfold ImageTeam.frame
  split_ifs
  · cases job.finish with
    | ok _ => exact ⟨rfl, fun _ h => h⟩
    | error e => exact ImageTeam.kept_stop e
  · exact .refl _

theorem ImageTeam.kept_step {move : TeamMove} (h : team.step job move = .next team') : ImageTeam.Kept team team' := by
  obtain rfl | ⟨-, k, i, run, -, -, rfl⟩ | ⟨-, k, run, -, -, hwork⟩ | ⟨-, -, rfl⟩ := ImageTeam.step_cases h
  · exact .refl _
  · unfold ImageTeam.give
    split_ifs
    · exact ImageTeam.kept_putOrStop
    · exact .refl _
  · exact ImageTeam.kept_work hwork
  · exact ImageTeam.kept_frame

theorem ImageTeam.Reaches.kept (h : ImageTeam.Reaches job owner a b) : ImageTeam.Kept a b := by
  obtain ⟨moves, hmoves, -⟩ := h
  induction moves generalizing a with
  | nil =>
    injection hmoves with hmoves
    exact hmoves ▸ .refl a
  | cons move rest ih =>
    rw [ImageTeam.run] at hmoves
    cases hstep : a.step job move with
    | next after =>
      rw [hstep] at hmoves
      obtain ⟨hlength, hfilled⟩ := ImageTeam.kept_step hstep
      obtain ⟨hlength', hfilled'⟩ := ih hmoves
      exact ⟨hlength'.trans hlength, fun i h => hfilled' i (hfilled i h)⟩
    | fault r => rw [hstep] at hmoves; cases hmoves
    | refused r => rw [hstep] at hmoves; cases hmoves

theorem ImageTeam.Reaches.sound (h : ImageTeam.Reaches job owner a b) (ha : a.Sound job) : b.Sound job := by
  obtain ⟨moves, hmoves, -⟩ := h
  exact ha.moves hmoves

/-! ### One worker -/

/-- The team is in work, and worker `k` is `run`. -/
structure ImageTeam.Has (team : ImageTeam) (k : Nat) (run : HostRun) : Prop where
  stage : team.stage = .next
  worker : team.workers[k]? = some run

theorem ImageTeam.Has.put (h : team.Has k run) (run' : HostRun) : (team.put k run').Has k run' :=
  ⟨h.stage, by rw [ImageTeam.put_workers, List.getElem?_set_self (List.getElem?_eq_some_iff.mp h.worker).1]⟩

theorem ImageTeam.Has.reaches_work (h : team.Has k run) (hwork : team.work job k run = .next team') :
    ImageTeam.Reaches job owner team team' := by
  refine .of_step (move := .work k) ?_ (fun _ _ h => nomatch h)
  simp only [ImageTeam.step, if_pos h.stage, h.worker, hwork]

theorem ImageTeam.Has.reaches_advance (h : team.Has k run) (hscript : run.engine.script = []) :
    ImageTeam.Reaches job owner team (team.advance job k run) :=
  h.reaches_work (if_pos (by simp [hscript]))

/-- What the engine of a worker serves it serves while the worker works. -/
theorem ImageTeam.Has.reaches_served {P : State → Prop} (h : team.Has k run) (hserves : Serves P run.engine) :
    ∃ team' t, ImageTeam.Reaches job owner team team' ∧ team'.Has k { run with engine := t } ∧ t.script = [] := by
  generalize hs : run.engine = s at hserves
  induction hserves generalizing run team with
  | served hnil _ => exact ⟨team, run.engine, .refl job owner team, h, hs ▸ hnil⟩
  | @step s t hne hstep _ ih =>
    subst hs
    have hwork : team.work job k run = .next (team.put k { run with engine := t }) := by
      rw [ImageTeam.work, if_neg (by simpa using hne), hstep]
    obtain ⟨team', u, hreach, hhas, hu⟩ := ih (h.put { run with engine := t }) rfl
    exact ⟨team', u, (h.reaches_work hwork).trans hreach, hhas, hu⟩

/-- Worker `k` can be brought to where the host moves next, at the same stage. -/
theorem ImageTeam.Has.settles (h : team.Has k run) (hsound : team.Sound job) :
    ∃ team' run', ImageTeam.Reaches job owner team team' ∧ team'.Has k run' ∧ run'.engine.script = [] ∧
      run'.stage = run.stage ∧ run'.tile = run.tile := by
  obtain ⟨level, htrack⟩ := hsound.workers run (List.mem_of_getElem? h.worker)
  obtain ⟨P, hserves⟩ := htrack.serves
  obtain ⟨team', t, hreach, hhas, hscript⟩ := h.reaches_served hserves
  exact ⟨team', _, hreach, hhas, hscript, rfl, rfl⟩

/-- Worker `k` can be given a tile. -/
def ImageTeam.Free (team : ImageTeam) (k : Nat) : Prop :=
  ∃ run, team.Has k run ∧ run.stage = .next ∧ run.engine.script = []

/-- Some moves end the image, or free worker `k` and make `P` true. -/
def ImageTeam.Frees (job : Job) (owner : Nat → Nat) (team : ImageTeam) (k : Nat) (P : ImageTeam → Prop) : Prop :=
  ∃ team', ImageTeam.Reaches job owner team team' ∧ (team'.Over ∨ (team'.Free k ∧ P team'))

theorem ImageTeam.Frees.of_reaches {P Q : ImageTeam → Prop} (hreach : ImageTeam.Reaches job owner team team')
    (h : team'.Frees job owner k P) (hPQ : ∀ u, P u → Q u) : team.Frees job owner k Q := by
  obtain ⟨after, hafter, hend⟩ := h
  exact ⟨after, hreach.trans hafter, hend.imp_right fun ⟨hfree, hP⟩ => ⟨hfree, hPQ after hP⟩⟩

theorem ImageTeam.Has.frees_of_next (h : team.Has k run) (hsound : team.Sound job) (hnext : run.stage = .next) :
    team.Frees job owner k fun after => ∀ i, team.Filled i → after.Filled i := by
  obtain ⟨team', run', hreach, hhas, hscript, hstage, -⟩ := h.settles (owner := owner) hsound
  exact ⟨team', hreach, .inr ⟨⟨run', hhas, hstage.trans hnext, hscript⟩, hreach.kept.2⟩⟩

theorem ImageTeam.Has.frees_of_start (h : team.Has k run) (hsound : team.Sound job) (hstart : run.stage = .start) :
    team.Frees job owner k fun _ => True := by
  obtain ⟨team', run', hreach, hhas, hscript, hstage, -⟩ := h.settles (owner := owner) hsound
  have hsound' := hreach.sound hsound
  obtain ⟨script, hbegin⟩ := hsound'.stage.begins hhas.stage
  have hadvance : team'.advance job k run' = team'.put k (run'.accesses script .next) := by
    rw [ImageTeam.advance, hstage.trans hstart, hbegin]
    rfl
  have hmove := hhas.reaches_advance (job := job) (owner := owner) hscript
  rw [hadvance] at hmove
  exact .of_reaches (hreach.trans hmove)
    ((hhas.put _).frees_of_next (hmove.sound hsound') rfl) (fun _ _ => trivial)

theorem ImageTeam.Has.frees_of_read (h : team.Has k run) (hsound : team.Sound job) (hread : run.stage = .read) :
    team.Frees job owner k fun after => after.Filled run.tile := by
  obtain ⟨team', run', hreach, hhas, hscript, hstage, htile⟩ := h.settles (owner := owner) hsound
  have hsound' := hreach.sound hsound
  have hread' := hstage.trans hread
  let after : ImageTeam :=
    { team'.put k { run' with stage := .next } with places := team'.places.set run'.tile (some (run'.result job)) }
  have hadvance : team'.advance job k run' = after := by rw [ImageTeam.advance, hread']
  have hmove := hhas.reaches_advance (job := job) (owner := owner) hscript
  rw [hadvance] at hmove
  have hfilled : after.Filled run.tile := by
    have hlt : run'.tile < team'.places.length := by
      obtain ⟨level, htrack⟩ := hsound'.workers run' (List.mem_of_getElem? hhas.worker)
      rw [HostRun.OnTrack, hread'] at htrack
      exact hsound'.size ▸ htrack.1
    exact ⟨run'.result job, htile ▸ List.getElem?_set_self hlt⟩
  have hhas' : after.Has k { run' with stage := .next } := ⟨hhas.stage, (hhas.put _).worker⟩
  exact .of_reaches (hreach.trans hmove) (hhas'.frees_of_next (hmove.sound hsound') rfl)
    (fun _ hkept => hkept _ hfilled)

theorem ImageTeam.Has.frees_of_errorRead (h : team.Has k run) (hsound : team.Sound job)
    (herror : run.stage = .errorRead) (P : ImageTeam → Prop) : team.Frees job owner k P := by
  obtain ⟨team', run', hreach, hhas, hscript, hstage, -⟩ := h.settles (owner := owner) hsound
  have hadvance : team'.advance job k run' = team'.stop run'.failure := by
    rw [ImageTeam.advance, hstage.trans herror]
  have hmove := hhas.reaches_advance (job := job) (owner := owner) hscript
  rw [hadvance] at hmove
  exact ⟨_, hreach.trans hmove, .inl (.inr ⟨_, rfl⟩)⟩

theorem ImageTeam.Has.frees_of_awaited (h : team.Has k run) (hsound : team.Sound job)
    (hawaited : run.stage = .awaited) :
    team.Frees job owner k fun after => after.Filled run.tile := by
  obtain ⟨team', run', hreach, hhas, hscript, hstage, htile⟩ := h.settles (owner := owner) hsound
  have hsound' := hreach.sound hsound
  have hadvance : team'.advance job k run' = team'.put k (run'.afterWait job) := by
    rw [ImageTeam.advance, hstage.trans hawaited]
  have hmove := hhas.reaches_advance (job := job) (owner := owner) hscript
  rw [hadvance] at hmove
  have hnext := hhas.put (run'.afterWait job)
  have hsound'' := hmove.sound hsound'
  have hbranch : (run'.afterWait job).tile = run.tile ∧
      ((run'.afterWait job).stage = .read ∨ (run'.afterWait job).stage = .errorRead) := by
    unfold HostRun.afterWait
    split_ifs
    · exact ⟨htile, .inr rfl⟩
    · exact ⟨htile, .inl rfl⟩
  obtain ⟨htile', hread | herror⟩ := hbranch
  · exact .of_reaches (hreach.trans hmove) (hnext.frees_of_read hsound'' hread) (fun _ hfilled => htile' ▸ hfilled)
  · exact .of_reaches (hreach.trans hmove) (hnext.frees_of_errorRead hsound'' herror _) (fun _ h => h)

/-- A worker is freed from every stage, or the image ends. -/
theorem ImageTeam.Has.frees (h : team.Has k run) (hsound : team.Sound job) : team.Frees job owner k fun _ => True := by
  cases hs : run.stage with
  | start => exact h.frees_of_start hsound hs
  | next => exact .of_reaches (.refl job owner team) (h.frees_of_next hsound hs) (fun _ _ => trivial)
  | awaited => exact .of_reaches (.refl job owner team) (h.frees_of_awaited hsound hs) (fun _ _ => trivial)
  | read => exact .of_reaches (.refl job owner team) (h.frees_of_read hsound hs) (fun _ _ => trivial)
  | errorRead => exact h.frees_of_errorRead hsound hs _
  | done =>
    obtain ⟨level, htrack⟩ := hsound.workers run (List.mem_of_getElem? h.worker)
    rw [HostRun.OnTrack, hs] at htrack
    exact htrack.elim
  | stopped e =>
    obtain ⟨level, htrack⟩ := hsound.workers run (List.mem_of_getElem? h.worker)
    rw [HostRun.OnTrack, hs] at htrack
    exact htrack.elim

/-! ### The whole image -/

/-- A free worker that is given a tile brings it to its place, or the image ends. -/
theorem ImageTeam.Free.fills {i : Nat} (h : team.Free (owner i)) (hsound : team.Sound job) (hi : i < job.count) :
    ∃ team', ImageTeam.Reaches job owner team team' ∧ (team'.Over ∨ (team'.stage = .next ∧ team'.Filled i)) := by
  obtain ⟨run, hhas, hnext, hscript⟩ := h
  have hmove : ImageTeam.Reaches job owner team (team.give job (owner i) i run) := by
    refine .of_step (move := .give (owner i) i) ?_ (fun k j h => by cases h; rfl)
    simp only [ImageTeam.step, if_pos hhas.stage, hhas.worker]
  have hgive : team.give job (owner i) i run = team.putOrStop (owner i) ({ run with tile := i }.issue job) :=
    if_pos (by simp [hscript, hnext, hi])
  rw [hgive, HostRun.issue] at hmove
  cases hissue : job.issue i with
  | error e =>
    rw [hissue] at hmove
    exact ⟨_, hmove, .inl (.inr ⟨e, rfl⟩)⟩
  | ok script =>
    rw [hissue] at hmove
    have hissued := hhas.put (({ run with tile := i } : HostRun).accesses script .awaited)
    obtain ⟨team', hreach, hend⟩ := hissued.frees_of_awaited (owner := owner) (hmove.sound hsound) rfl
    exact ⟨team', hmove.trans hreach, hend.imp_right fun ⟨⟨run', hhas', _⟩, hfilled⟩ => ⟨hhas'.stage, hfilled⟩⟩

/-- Tile by tile, each through its owner. -/
theorem ImageTeam.Sound.fills {n : Nat} (hsound : team.Sound job) (hstage : team.stage = .next)
    (howner : ∀ i < job.count, owner i < team.workers.length) (hn : n ≤ job.count) :
    ∃ team', ImageTeam.Reaches job owner team team' ∧
      (team'.Over ∨ (team'.stage = .next ∧ ∀ i < n, team'.Filled i)) := by
  induction n with
  | zero => exact ⟨team, .refl job owner team, .inr ⟨hstage, fun i hi => absurd hi (Nat.not_lt_zero i)⟩⟩
  | succ n ih =>
    obtain ⟨before, hbefore, hover | ⟨hnext, hfilled⟩⟩ := ih (by omega)
    · exact ⟨before, hbefore, .inl hover⟩
    have hk : owner n < before.workers.length := hbefore.kept.1 ▸ howner n (by omega)
    have hhas : before.Has (owner n) before.workers[owner n] := ⟨hnext, List.getElem?_eq_getElem hk⟩
    obtain ⟨free, hfree, hover | ⟨hworker, -⟩⟩ := hhas.frees (owner := owner) (hbefore.sound hsound)
    · exact ⟨free, hbefore.trans hfree, .inl hover⟩
    have hreach := hbefore.trans hfree
    obtain ⟨after, hafter, hover | ⟨hnext', hlast⟩⟩ := hworker.fills (hreach.sound hsound) (by omega)
    · exact ⟨after, hreach.trans hafter, .inl hover⟩
    refine ⟨after, hreach.trans hafter, .inr ⟨hnext', fun i hi => ?_⟩⟩
    obtain hi | rfl := Nat.lt_succ_iff_lt_or_eq.mp hi
    · exact hafter.kept.2 i (hfree.kept.2 i (hfilled i hi))
    · exact hlast

/-- With every place filled the framing ends the image. -/
theorem ImageTeam.Sound.reaches_over (hsound : team.Sound job)
    (howner : ∀ i < job.count, owner i < team.workers.length) :
    ∃ team', ImageTeam.Reaches job owner team team' ∧ team'.Over := by
  have hstage := hsound.stage
  rw [ImageTeam.StageSound] at hstage
  cases hs : team.stage with
  | done => exact ⟨team, .refl job owner team, .inl hs⟩
  | stopped e => exact ⟨team, .refl job owner team, .inr ⟨e, hs⟩⟩
  | next =>
    obtain ⟨full, hfull, hover | ⟨hnext, hfilled⟩⟩ := hsound.fills hs howner (Nat.le_refl _)
    · exact ⟨full, hfull, hover⟩
    have hall : full.places.all Option.isSome = true := by
      rw [List.all_eq_true]
      intro place hplace
      obtain ⟨i, hi, rfl⟩ := List.getElem_of_mem hplace
      obtain ⟨result, hresult⟩ := hfilled i ((hfull.sound hsound).size ▸ hi)
      rw [List.getElem?_eq_getElem hi] at hresult
      rw [Option.some.inj hresult]
      rfl
    have hmove : ImageTeam.Reaches job owner full (full.frame job) :=
      .of_step (move := .frame) (if_pos hnext) (fun _ _ h => nomatch h)
    refine ⟨_, hfull.trans hmove, ?_⟩
    rw [ImageTeam.frame, if_pos hall]
    cases job.finish with
    | ok _ => exact .inl rfl
    | error e => exact .inr ⟨e, rfl⟩
  | _ => rw [hs] at hstage; exact hstage.elim

end

/-- Settles O60: the soundness of every team that moves reach says what its places and its end are, and by owner some
moves bring it to its end. -/
theorem imageOverSeveralEngines : Obligations.ImageOverSeveralEngines := by
  intro job engines hengines
  have hstart : (ImageTeam.start job engines).Sound job := .start hengines
  refine ⟨fun moves team hmoves => ?results, fun owner howner => ?ends⟩
  case results =>
    have hsound := hstart.moves hmoves
    constructor
    · rintro r level rfl
      refine ⟨fun i record => hsound.places i record, fun hdone => ?_, fun e hstopped => ?_⟩
      · have hresults := (hsound.results_of_done hdone).1
        rw [encodeImage_eq, hresults, ImageTeam.stream, hdone]
        rfl
      · obtain ⟨e', hresults⟩ := hsound.results_of_stopped hstopped
        exact ⟨e', by rw [encodeImage_eq, hresults]; rfl⟩
    · rintro stream rfl
      refine ⟨fun h i tile hparse hplace => ?_, fun hdone => ?_, fun e hstopped => ?_⟩
      · rw [← Job.tileResult_decode hparse]
        exact hsound.places i tile hplace
      · obtain ⟨hresults, hframed⟩ := hsound.results_of_done hdone
        cases hparse : parseHeader stream with
        | error e => cases (decodeImage_error hparse).2.symm.trans hresults
        | ok h => exact ⟨h, rfl, by rw [decodeImage_eq hparse, hresults, hframed]; rfl⟩
      · obtain ⟨e', hresults⟩ := hsound.results_of_stopped hstopped
        cases hparse : parseHeader stream with
        | error e => exact ⟨e, (decodeImage_error hparse).1⟩
        | ok h => exact ⟨e', by rw [decodeImage_eq hparse, hresults]; rfl⟩
  case ends =>
    have hlength : (ImageTeam.start job engines).workers.length = engines.length := List.length_map _
    obtain ⟨team, ⟨moves, hmoves, hown⟩, hover⟩ :=
      hstart.reaches_over (owner := owner) fun i hi => hlength ▸ howner i hi
    exact ⟨moves, team, hmoves, hown, hover⟩

end Sys2Proof.Machine.Platform
end

section
/-! Resets and errors: what raising an error writes, what stays until a reset, the free draws, and the two ends of the
packing check (R200 to R206, R220, R221). -/

namespace Sys2Proof.Machine

/-! ### The resets -/

/-- Settles O10: both actions are resets, and a reset answers `State.resetEngine` in every state. -/
theorem bothResetsAgree : Obligations.BothResetsAgree := fun s =>
  ⟨s.resetEngine, serve_reset (.inl rfl) s, serve_reset (.inr rfl) s, rfl, rfl, rfl, rfl, rfl, rfl⟩

/-! ### Free draws -/

theorem State.tileByte_resetEngine (s : State) {i : Nat} (hi : i < 192) :
    s.resetEngine.tileByte i = Config.freeByte s.draws i :=
  Memory.byte_drawn s.draws (hi.trans (by decide))

theorem State.recByte_resetEngine (s : State) {j : Nat} (hj : j < 75) :
    s.resetEngine.recByte j = Config.freeByte s.draws (0x0C0 + j) :=
  Memory.byte_drawn s.draws (by unfold recOffset Memory.size; omega)

/-- After a PackingOverflow every byte of REC is that of one new draw (R152, U3). -/
theorem State.recByte_overflowed {s : State} (h : s.mem.wf) (prev : Triple Int) (index : Nat) {j : Nat} (hj : j < 75) :
    (s.overflowed prev index).recByte j = Config.freeByte s.draws (0x0C0 + j) := by
  have hlen : j < (drawnRecord s.draws).length := by rwa [drawnRecord_length]
  rw [State.recByte, State.overflowed_mem, recOffset,
    Memory.byte_writeBlock_in h hlen (by unfold Memory.size; omega)]
  simp [drawnRecord]

/-- Settles O9: a reset draws both buffers, and an ENC without DONE is one that overflowed, which draws REC. -/
theorem unspecifiedBytesAreFreeDraws : Obligations.UnspecifiedBytesAreFreeDraws := by
  intro s hwf
  refine ⟨⟨s.resetEngine, exec_srst s, fun _ => s.tileByte_resetEngine, fun _ => s.recByte_resetEngine, rfl⟩,
    fun t hexec hdone => ?overflow⟩
  case overflow =>
    obtain ⟨record, -, -, hcase⟩ | ⟨index, -, -, -, hcase⟩ := exec_enc_cases s <;> cases hcase.symm.trans hexec
    · cases hdone
    · exact ⟨fun _ => State.recByte_overflowed hwf _ _, rfl⟩

/-! ### Raising an error -/

/-- No error touches TILE: PackingOverflow draws REC alone (R201 to R203). -/
theorem State.sameTile_raise (s : State) (e : EngineError) : SameTile s (s.raise e) := by
  cases e with
  | packingOverflow j => exact s.sameTile_overflowed s.prev j
  | formatError j => exact fun _ _ => rfl
  | illegalCommand v => exact fun _ _ => rfl

/-- Settles O41: the registers by the rules of `State.raise`, and for each error its code, its detail and REC. -/
theorem raisingAnError : Obligations.RaisingAnError := by
  intro s e
  refine ⟨rfl, rfl, s.raise_level e, s.raise_prev e, s.sameTile_raise e, ⟨s.raise_script e, s.raise_replies e⟩,
    ?overflow, ?format, ?illegal⟩
  case overflow =>
    rintro j rfl hj
    exact ⟨rfl, Nat.mod_eq_of_lt hj⟩
  case format =>
    rintro j rfl hj
    exact ⟨rfl, Nat.mod_eq_of_lt hj, fun _ _ => rfl⟩
  case illegal =>
    rintro v rfl
    exact ⟨rfl, rfl, fun _ _ => rfl⟩

/-! ### An error stays until a reset -/

/-- STATUS, the error registers and OP are the same in both. -/
def SameError (s t : State) : Prop :=
  t.status = s.status ∧ t.errcode = s.errcode ∧ t.errinfo = s.errinfo ∧ t.op = s.op

theorem SameEngine.sameError {s t : State} (h : SameEngine s t) : SameError s t := by
  obtain ⟨-, hstatus, -, hcode, hinfo, hop, -⟩ := h
  exact ⟨hstatus, hcode, hinfo, hop⟩

/-- In ERROR a write that is no reset can change a buffer byte or LEVEL, never the error (R59 (d), R204). -/
theorem memWrite_err_same {a : Nat} {v : Byte} {s t : State} (herr : s.status.err = true)
    (hreset : ¬ IsReset (.write a v)) (hwrite : memWrite a v s = .next t) : SameError s t := by
  obtain ⟨hcmd, hcase⟩ | hcase | ⟨-, -, hcase⟩ | ⟨-, level, hcase⟩ | ⟨-, hcase⟩ := memWrite_cases a v s <;>
    have hnext := hcase.symm.trans hwrite
  · obtain rfl := eq_of_locate_cmd hcmd
    have hv : v ≠ 0xFF := fun hv => hreset (.inr (hv ▸ rfl))
    cases (issueCommand_ignored (.inr herr) hv).symm.trans hnext
    exact (SameEngine.refl s).sameError
  all_goals cases hnext
  all_goals exact ⟨rfl, rfl, rfl, rfl⟩

/-- In ERROR a host action that is no reset leaves the error as it is (R204, R206). -/
theorem serve_err_same {a : HostAction} {s t : State} (herr : s.status.err = true) (hreset : ¬ IsReset a)
    (hserve : serve a s = .next t) : SameError s t := by
  obtain ⟨offset, v, u, -, hread, rfl⟩ | ⟨offset, v, rfl, hwrite⟩ | ⟨-, rfl⟩ | ⟨rfl, -⟩ := serve_next hserve
  · exact (memRead_same hread).1.sameError
  · exact memWrite_err_same herr hreset hwrite
  · simp [SameError]
  · exact absurd (.inl rfl) hreset

/-- Settles O27: with ERR set BUSY is clear, so a step is the host's, and its action resets or leaves the error. -/
theorem errorsAreStickyUntilReset : Obligations.ErrorsAreStickyUntilReset := by
  intro s t hlegal herr hstep
  obtain ⟨hbusy, -, -⟩ | ⟨-, -, hcase⟩ | ⟨a, rest, hscript, -, hcase⟩ := step_cases s
  · exact absurd (herr.symm.trans (hlegal.err_of_busy hbusy)) (by decide)
  · cases hcase.symm.trans hstep
    exact .inr (SameEngine.refl s).sameError
  · have hserve := hcase.symm.trans hstep
    by_cases hreset : IsReset a
    · cases (serve_reset hreset _).symm.trans hserve
      exact .inl ⟨a, rest, hscript, hreset, rfl, rfl, rfl, rfl, rfl⟩
    · exact .inr (serve_err_same (s := s.consume rest) herr hreset hserve)

/-! ### Both ends of the packing check -/

/-- The grid bytes depend on the 192 bytes of TILE and on LEVEL (R150 (f)). -/
theorem packedSum_grid_congr {tile tile' : Nat → Byte} (h : ∀ i < 192, tile i = tile' i) (level : Nat) {p : Nat}
    (hp : p < 64) : packedSum tile level (11 + p) = packedSum tile' level (11 + p) := by
  have hcodes : ∀ q < 64, sourceCodes tile level q = sourceCodes tile' level q := fun q hq => by
    rw [← gridCode_eq, ← gridCode_eq, gridCode_congr h level hq]
  simp only [packedSum_grid, codesBefore, hcodes p hp, hcodes (p - 1) (by omega)]

/-- The bytes of the first tile of a raster. -/
def firstTile (r : HostImage.Raster) (i : Nat) : Byte :=
  (HostImage.tileOf r 0).getD i 0

/-- The engine after reset with that tile in TILE and LEVEL 0, at which no channel is flagged. -/
def State.unflagged (r : HostImage.Raster) : State :=
  { State.reset.loaded (tileOffset 0) (HostImage.tileOf r 0) with level := 0 }

theorem State.unflagged_wf (r : HostImage.Raster) : (State.unflagged r).mem.wf :=
  (Inv.reset.loaded (tileOffset 0) (HostImage.tileOf r 0)).mem

theorem State.tileByte_unflagged (r : HostImage.Raster) {i : Nat} (hi : i < 192) :
    (State.unflagged r).tileByte i = firstTile r i := by
  have hlen := HostImage.tileOf_length r 0
  have hbyte := HostImage.byte_loaded Inv.reset (base := tileOffset 0) (by rw [hlen]; decide) (hlen ▸ hi)
  rwa [tileOffset, Nat.zero_add] at hbyte

theorem packedSum_unflagged (r : HostImage.Raster) {p : Nat} (hp : p < 64) :
    packedSum (State.unflagged r).tileByte (State.unflagged r).levelNat (11 + p) =
      packedSum (firstTile r) 0 (11 + p) :=
  packedSum_grid_congr (fun _ => State.tileByte_unflagged r) 0 hp

/-- Where the grid byte of pixel 1 is the first that does not fit, ENC reports its REC index; corner bytes always fit. -/
theorem enc_reports_pixel_one {r : HostImage.Raster} (hfirst : FitsByte (packedSum (firstTile r) 0 11))
    (hover : ¬ FitsByte (packedSum (firstTile r) 0 12)) :
    ∃ t, exec .enc (State.unflagged r) = .next t ∧ t.status = ⟨false, false, true⟩ ∧ t.errcode = 0x01 ∧
      t.errinfo.toNat = 12 := by
  rw [← packedSum_unflagged r (p := 0) (by decide)] at hfirst
  rw [← packedSum_unflagged r (p := 1) (by decide)] at hover
  have hbefore : ∀ i, 7 ≤ i → i < 12 →
      FitsByte (packedSum (State.unflagged r).tileByte (State.unflagged r).levelNat i) := fun i h7 h12 => by
    obtain hcorner | rfl : i < 11 ∨ i = 11 := by omega
    · have hfit := cornerBytesNeverOverflow (State.unflagged r).tileByte (State.unflagged r).levelNat (i - 7) (by omega)
      rwa [Nat.add_sub_cancel' h7] at hfit
    · exact hfirst
  obtain ⟨t, hexec, hstatus, -, hcode, hinfo, -⟩ := encOverflowReportsTheFirstByte (State.unflagged r) 12
    (State.unflagged_wf r) (by decide) (by decide) hover hbefore
  exact ⟨t, hexec, hstatus, hcode, hinfo⟩

/-- The tile of O1 of 95_test_vectors.md: the U code of pixel 1 is 5. -/
def highSumRaster : HostImage.Raster :=
  ⟨8, 8, pixels.map fun p => if p = 1 then ⟨0, 0, 255⟩ else ⟨1, 0, 253⟩⟩

/-- The tile of O4 of 95_test_vectors.md: the U code falls from pixel 0 to pixel 1. -/
def negativeSumRaster : HostImage.Raster :=
  ⟨8, 8, pixels.map fun p =>
    if p = 0 then ⟨1, 0, 255⟩ else if p = 1 then ⟨0, 1, 253⟩ else if p = 2 then ⟨0, 3, 254⟩ else ⟨0, 0, 252⟩⟩

theorem packedSum_highSumRaster :
    FitsByte (packedSum (firstTile highSumRaster) 0 11) ∧ 255 < packedSum (firstTile highSumRaster) 0 12 := by
  decide +kernel

theorem packedSum_negativeSumRaster :
    FitsByte (packedSum (firstTile negativeSumRaster) 0 11) ∧ packedSum (firstTile negativeSumRaster) 0 12 < 0 := by
  decide +kernel

/-- Settles O17: the sum of pixel 1 is the first that does not fit, above 255 for the one tile and below 0 for the
other. -/
theorem gridOverflowIsReachable : Obligations.GridOverflowIsReachable := by
  obtain ⟨hfirst, hhigh⟩ := packedSum_highSumRaster
  obtain ⟨hfirst', hnegative⟩ := packedSum_negativeSumRaster
  obtain ⟨t, ht⟩ := enc_reports_pixel_one hfirst fun hfit => by omega
  obtain ⟨u, hu⟩ := enc_reports_pixel_one hfirst' fun hfit => by omega
  rw [← packedSum_unflagged highSumRaster (p := 1) (by decide)] at hhigh
  rw [← packedSum_unflagged negativeSumRaster (p := 1) (by decide)] at hnegative
  exact ⟨⟨_, t, 12, State.unflagged_wf _, by decide, by decide, hhigh, ht⟩,
    ⟨_, u, 12, State.unflagged_wf _, by decide, by decide, hnegative, hu⟩⟩

end Sys2Proof.Machine
end

section
/-! A `WAIT` that follows an accepted command (R223, R91, R174), and engines side by side (R209). -/

namespace Sys2Proof.Machine

/-! ### The end of a WAIT -/

/-- One round of a `WAIT` that is the host's next action (R91). -/
theorem step_wait {s : State} {rest : List HostAction} (hmoves : engineMoves s = false)
    (hscript : s.script = .wait :: rest) : step s = .next (waitRound (s.consume rest)) :=
  step_of_script hmoves hscript

/-- The `WAIT` at the head of the list can end: after some steps it is off the list, and the byte it read last is that
of DONE or of ERROR. -/
def WaitEnds (rest : List HostAction) (s : State) : Prop :=
  ∃ n t v more, Sys2Proof.core.run n s = .next t ∧ t.script = rest ∧ t.replies = (0x111, v) :: more ∧
    (v = 0x02 ∨ v = 0x04)

theorem WaitEnds.of_step {s t : State} {rest : List HostAction} (hstep : step s = .next t) (h : WaitEnds rest t) :
    WaitEnds rest s := by
  obtain ⟨n, u, v, more, hrun, hu⟩ := h
  exact ⟨n + 1, u, v, more, (run_succ_of_step (M := Sys2Proof.core) hstep n).trans hrun, hu⟩

/-- Once the command has ended, one round of the `WAIT` reads its end (R91). -/
theorem waitEnds_of_ended {s : State} {rest : List HostAction} (hscript : s.script = .wait :: rest)
    (hended : s.status = .finished ∨ s.status = .failed) : WaitEnds rest s := by
  have hbusy : s.status.busy = false := by
    obtain h | h := hended <;> rw [h] <;> rfl
  have hstep := step_wait (engineMoves_of_not_busy hbusy) hscript
  refine ⟨1, _, s.status.toByte, s.replies, run_succ_of_step (M := Sys2Proof.core) hstep 0, ?script,
    waitRound_replies _, ?byte⟩
  case script => rw [waitRound_script, Status.toByte_busy, State.consume_status, hbusy]; rfl
  case byte =>
    obtain h | h := hended <;> rw [h]
    · exact .inl rfl
    · exact .inr rfl

/-- By induction on the delay: while it lasts, a round of the `WAIT` uses up one action of it and leaves the `WAIT` to
do; then the engine's step ends the command. -/
theorem waitEnds_of_busy {s : State} {rest : List HostAction} (hinv : Inv s) (hbusy : s.status.busy = true)
    (hscript : s.script = .wait :: rest) : WaitEnds rest s := by
  induction hdelay : s.delay generalizing s with
  | zero =>
    have hmoves : engineMoves s = true := by simp [engineMoves, hbusy, hdelay]
    obtain ⟨t, ht⟩ := engineStep_completes (hinv.op.mp hbusy)
    exact .of_step ((step_of_engineMoves hmoves).trans ht) (waitEnds_of_ended ((engineStep_frame ht).1.trans hscript)
      (engineStep_status (hinv.status.err_of_busy hbusy) ht))
  | succ d ih =>
    have hmoves : engineMoves s = false := by simp [engineMoves, hdelay, hscript]
    refine .of_step (step_wait hmoves hscript) (ih (hinv.consume rest).waitRound ?busy ?script ?delay)
    case busy => simpa using hbusy
    case script => simp [waitRound_script, hbusy]
    case delay => simp [hdelay]

/-- Settles O31, by the induction on the delay. -/
theorem waitReturnsDoneOrError : Obligations.WaitReturnsDoneOrError :=
  fun _ _ => waitEnds_of_busy

/-! ### Engines side by side -/

/-- A step of the platform that answers: there is no engine `k` and nothing changes, or engine `k` takes its own step
(R209). -/
theorem Platform.step_cases {k : Nat} {engines after : Platform.Engines}
    (h : Platform.step k engines = .next after) :
    (engines[k]? = none ∧ after = engines) ∨
    ∃ s t, engines[k]? = some s ∧ Machine.step s = .next t ∧ after = engines.set k t := by
  unfold Platform.step at h
  cases hk : engines[k]? with
  | none =>
    rw [hk] at h
    cases h
    exact .inl ⟨rfl, rfl⟩
  | some s =>
    rw [hk] at h
    cases hs : Machine.step s with
    | next t =>
      simp only [hs] at h
      cases h
      exact .inr ⟨s, t, rfl, hs, rfl⟩
    | fault r => simp [hs] at h
    | refused r => simp [hs] at h

/-- Settles O59: the list is unchanged, or changed at place `k` alone. -/
theorem enginesAreIndependent : Obligations.EnginesAreIndependent := by
  intro engines after k hstep
  obtain ⟨hnone, rfl⟩ | ⟨s, t, hsome, hs, rfl⟩ := Platform.step_cases hstep
  · refine ⟨rfl, fun _ _ => rfl, fun s hs => ?_⟩
    cases hnone.symm.trans hs
  · refine ⟨List.length_set, fun j hj => List.getElem?_set_ne (Ne.symm hj), fun s' hs' => ?_⟩
    cases hsome.symm.trans hs'
    obtain ⟨hk, -⟩ := List.getElem?_eq_some_iff.mp hsome
    exact ⟨t, hs, List.getElem?_set_self hk⟩

end Sys2Proof.Machine
end
